-- ==== Sys2Proof/Word.lean ====
section
/-! DEFINITION. The plain data types every other file speaks of: a byte, a 32-bit configuration key, a character
sequence. -/

namespace Sys2Proof

/-- A byte (00_scope.md R6: "bytes are 8 bits"). -/
abbrev Byte := BitVec 8

/-- A configuration key, a 32-bit word (30_encoding.md R84). -/
abbrev Key := BitVec 32

/-- A character sequence (00_scope.md R9), not limited to ASCII: PACK_CH checks that (41_field_codec.md R154).
A character is a Unicode scalar value (DESIGN CHOICE, log 18). -/
abbrev Text := List Char

end Sys2Proof
end

