-- ==== Sys2Proof/Config.lean ====
section
/-! DEFINITION. What the spec leaves to an implementation: the parameters of 00_scope.md R6 and the free values of
93_implementation_defined.md I5 and I6. -/

namespace Sys2Proof

/-- A bounded queue capacity: a positive number of entries (R6, I18: 0 is refused, here by its type). -/
structure Capacity where
  entries : Nat
  positive : 0 < entries
  deriving DecidableEq, Repr

/-- The parameters of an instance (R6, R38). Plain data, so that a claim can quantify over them and a test can
choose them (log 1). -/
structure Params where
  /-- `MAX_MSG_LEN`, 0 to 65535 (R6, I18). -/
  maxMsgLen : Fin 65536
  /-- `QUEUE_CAPACITY`: `none` is unbounded. -/
  queueCapacity : Option Capacity
  /-- `SIGNED_KEYS`, as the list of the keys at which it is true. -/
  signedKeys : List Key
  deriving DecidableEq, Repr, Inhabited

/-- `SIGNED_KEYS(key)` (R6, 42_config_item.md R203). -/
def Params.signed (c : Params) (k : Key) : Bool := c.signedKeys.contains k

namespace Config

/-- The parameters an instance is created with: OPEN in R6, so an unknown constant. -/
opaque params : Params

/-- The free integers: the value of a 1-bit configuration byte other than 0 and 1 (I5), and of an integer or padding
field after a failed FS_UNPACK (I6). Applied to the draw counter of State. -/
opaque freeInt : Nat → Int

/-- The free character sequences: the value of a CH field after a failed FS_UNPACK (I6). -/
opaque freeText : Nat → Text

end Config

end Sys2Proof
end

