-- ==== Sys2Proof/Syntax.lean ====
section
/-! DEFINITION. The operations of the block as syntax: one constructor of Instr per row of opcode_table.json, and the
types their operands need. -/

namespace Sys2Proof

/-- The eight integer kinds of a field descriptor (10_state.md R35). -/
inductive IntKind where
  | u8 | u16 | u32 | u64 | i8 | i16 | i32 | i64
  deriving DecidableEq, Repr

/-- The kind of a field descriptor (10_state.md R35): an integer, CH(N) or PAD(N). -/
inductive Kind where
  | int (k : IntKind)
  | ch (n : Nat)
  | pad (n : Nat)
  deriving DecidableEq, Repr

/-- A field's value (10_state.md R35): a mathematical integer, or a character sequence. -/
inductive Value where
  | int (v : Int)
  | text (t : Text)
  deriving DecidableEq, Repr

/-- An identity, the pair (class, id) (43_envelope.md R220). -/
structure Ident where
  cls : Byte
  id : Byte
  deriving DecidableEq, Repr

/-- The parser state `st` (10_state.md R20), in the order that rule lists them. -/
inductive ParserSt where
  | waitSync1 | waitSync2 | class_ | id | lenLo | lenHi | payload | crcA | crcB
  deriving DecidableEq, Repr

/-- The sixteen rows of the parser's transition table (30_encoding.md R95), in its order. -/
inductive ByteRow where
  | waitSync1Sync
  | waitSync1Other
  | waitSync2Sync
  | waitSync2Other
  | classAny
  | idAny
  | lenLoAny
  | lenHiZero
  | lenHiOversize
  | lenHiPayload
  | payloadMore
  | payloadLast
  | crcAAny
  | crcBAccept
  | crcBFiltered
  | crcBCrcError
  deriving DecidableEq, Repr

/-- Why the bytes at the front of the command stream are no command. The stream's form is the model's (log 3). -/
inductive DecodeError where
  /-- The command byte is above 51: no row of 30_encoding.md R91 has that cmd_index. -/
  | unknownCommand (cmd : Nat)
  /-- The stream ends inside a command. -/
  | truncated
  /-- A character code that is no Unicode scalar value. -/
  | badCharacter (code : Nat)
  deriving DecidableEq, Repr

/-- The operations of the block: the sixteen input-byte rows of 30_encoding.md R95, then the commands of R91. `acc`
is the number of a checksum accumulator, `fs` of a field set (log 7, log 8). -/
inductive Instr where
  /-- BYTE_WAIT_SYNC1_0XB5 (R240: 0xB5 in WAIT_SYNC1). -/
  | byteWaitSync1Sync
  /-- BYTE_WAIT_SYNC1_OTHER (R240: any other byte in WAIT_SYNC1). -/
  | byteWaitSync1Other (x : Byte)
  /-- BYTE_WAIT_SYNC2_0X62 (R241: 0x62 in WAIT_SYNC2). -/
  | byteWaitSync2Sync
  /-- BYTE_WAIT_SYNC2_OTHER (R241: any other byte in WAIT_SYNC2). -/
  | byteWaitSync2Other (x : Byte)
  /-- BYTE_CLASS_ANY (R242). -/
  | byteClassAny (x : Byte)
  /-- BYTE_ID_ANY (R243). -/
  | byteIdAny (x : Byte)
  /-- BYTE_LEN_LO_ANY (R244). -/
  | byteLenLoAny (x : Byte)
  /-- BYTE_LEN_HI_ZERO (R245: the length is 0). -/
  | byteLenHiZero (x : Byte)
  /-- BYTE_LEN_HI_OVERSIZE (R245: the length exceeds MAX_MSG_LEN). -/
  | byteLenHiOversize (x : Byte)
  /-- BYTE_LEN_HI_PAYLOAD (R245: a payload follows). -/
  | byteLenHiPayload (x : Byte)
  /-- BYTE_PAYLOAD_MORE (R246: not the last payload byte). -/
  | bytePayloadMore (x : Byte)
  /-- BYTE_PAYLOAD_LAST (R246: the last payload byte). -/
  | bytePayloadLast (x : Byte)
  /-- BYTE_CRC_A_ANY (R247). -/
  | byteCrcAAny (x : Byte)
  /-- BYTE_CRC_B_ACCEPT (R248: the checksum matches, the identity is in the filter). -/
  | byteCrcBAccept (x : Byte)
  /-- BYTE_CRC_B_FILTERED (R248: the checksum matches, the identity is not in the filter). -/
  | byteCrcBFiltered (x : Byte)
  /-- BYTE_CRC_B_CRC_ERROR (R248: the checksum does not match). -/
  | byteCrcBCrcError (x : Byte)
  /-- CK_ADD (R120). -/
  | ckAdd (acc : Nat) (x : Byte)
  /-- CK_RESET (R121). -/
  | ckReset (acc : Nat)
  /-- CK_VALUE (R122). -/
  | ckValue (acc : Nat)
  /-- CK_MATCHES (R123). -/
  | ckMatches (acc : Nat) (ra rb : Byte)
  /-- PACK_U8 (R146). -/
  | packU8 (v : Int)
  /-- PACK_U16 (R147). -/
  | packU16 (v : Int)
  /-- PACK_U32 (R148). -/
  | packU32 (v : Int)
  /-- PACK_U64 (R149). -/
  | packU64 (v : Int)
  /-- PACK_I8 (R150). -/
  | packI8 (v : Int)
  /-- PACK_I16 (R151). -/
  | packI16 (v : Int)
  /-- PACK_I32 (R152). -/
  | packI32 (v : Int)
  /-- PACK_I64 (R153). -/
  | packI64 (v : Int)
  /-- PACK_CH (R154). -/
  | packCh (n : Nat) (str : Text)
  /-- PACK_PAD (R155). -/
  | packPad (n : Nat)
  /-- UNPACK_U8 (R156). -/
  | unpackU8 (buf : List Byte)
  /-- UNPACK_U16 (R157). -/
  | unpackU16 (buf : List Byte)
  /-- UNPACK_U32 (R158). -/
  | unpackU32 (buf : List Byte)
  /-- UNPACK_U64 (R159). -/
  | unpackU64 (buf : List Byte)
  /-- UNPACK_I8 (R160). -/
  | unpackI8 (buf : List Byte)
  /-- UNPACK_I16 (R161). -/
  | unpackI16 (buf : List Byte)
  /-- UNPACK_I32 (R162). -/
  | unpackI32 (buf : List Byte)
  /-- UNPACK_I64 (R163). -/
  | unpackI64 (buf : List Byte)
  /-- UNPACK_CH (R164). -/
  | unpackCh (n : Nat) (buf : List Byte)
  /-- UNPACK_PAD (R165). -/
  | unpackPad (n : Nat) (buf : List Byte)
  /-- FS_NEW (R169). -/
  | fsNew
  /-- FS_ADD (R170). -/
  | fsAdd (fs : Nat) (kind : Kind) (name : Text)
  /-- FS_GET (R171). -/
  | fsGet (fs : Nat) (name : Text)
  /-- FS_SET (R172). -/
  | fsSet (fs : Nat) (name : Text) (v : Value)
  /-- FS_PACK (R173). -/
  | fsPack (fs : Nat)
  /-- FS_UNPACK (R174). -/
  | fsUnpack (fs : Nat) (buf : List Byte) (start : Nat)
  /-- FS_ADD_GROUP (R175). The spec gives `count` no type; here it is an integer, as FS_GET of an integer field returns
  it (DESIGN CHOICE, log 28). -/
  | fsAddGroup (fs : Nat) (template : List (Kind × Text)) (count : Int) (pre : Text)
  /-- BF_GET (R180, with v ≥ 0 and lsb ≥ 0 by type). -/
  | bfGet (v lsb width : Nat)
  /-- BF_SET (R181, with v ≥ 0 and lsb ≥ 0 by type). -/
  | bfSet (v lsb width : Nat) (x : Int)
  /-- CFGKEY_MAKE (R201). -/
  | cfgKeyMake (group item bits : Int)
  /-- CFGKEY_FIELDS (R202). -/
  | cfgKeyFields (key : Key)
  /-- CFGVAL_PACK (R204). -/
  | cfgValPack (key : Key) (v : Int)
  /-- CFGVAL_UNPACK (R205). -/
  | cfgValUnpack (key : Key) (buf : List Byte)
  /-- CFGITEM_PACK (R206). -/
  | cfgItemPack (key : Key) (v : Int)
  /-- CFGITEM_UNPACK (R207). -/
  | cfgItemUnpack (buf : List Byte)
  /-- IDENT_EQ (R220). -/
  | identEq (i j : Ident)
  /-- ENV_LENGTH (R221). -/
  | envLength (payload : List Byte)
  /-- ENV_TO_BYTES (R222). -/
  | envToBytes (ident : Ident) (payload : List Byte)
  /-- ENV_PACK (R223). -/
  | envPack (fs : Nat)
  /-- ENV_UNPACK (R224). -/
  | envUnpack (fs : Nat) (payload : List Byte)
  /-- STEP (R249). -/
  | step (x : Byte)
  /-- PROCESS (R255). -/
  | process (chunk : List Byte)
  /-- SET_FILTERS (R250). -/
  | setFilters (idents : List Ident)
  /-- SET_FILTER (R251). -/
  | setFilter (ident : Ident)
  /-- RESTART (R252). -/
  | restart
  /-- PACKET (R253). -/
  | packet
  /-- EMPTY_QUEUE (R254). -/
  | emptyQueue
  /-- RESET (R340). -/
  | reset
  deriving DecidableEq, Repr

end Sys2Proof
end

