-- ==== Sys2Proof/Machine/ByteOrder.lean ====
section
/-! DEFINITION. Byte order, widths and two's complement: the helpers the decoder and the codec share
(20_memory.md R61, 41_field_codec.md R140, R141, 30_encoding.md R86). -/

namespace Sys2Proof

/-- `LE_k(u)` (41_field_codec.md R141): the k low bytes of u, least significant first. -/
def leBytes : Nat → Nat → List Byte
  | 0, _ => []
  | k + 1, u => BitVec.ofNat 8 u :: leBytes k (u / 256)

/-- `FromLE` of a whole byte sequence (41_field_codec.md R141). -/
def fromLE : List Byte → Nat
  | [] => 0
  | b :: bs => b.toNat + 256 * fromLE bs

/-- `size` of an integer kind, in bytes (41_field_codec.md R140). -/
def IntKind.bytes : IntKind → Nat
  | .u8 | .i8 => 1
  | .u16 | .i16 => 2
  | .u32 | .i32 => 4
  | .u64 | .i64 => 8

/-- Whether an integer kind is signed (30_encoding.md R86). -/
def IntKind.signed : IntKind → Bool
  | .u8 | .u16 | .u32 | .u64 => false
  | .i8 | .i16 | .i32 | .i64 => true

/-- `size(kind)` (41_field_codec.md R140). -/
def Kind.size : Kind → Nat
  | .int k => k.bytes
  | .ch n => n
  | .pad n => n

/-- The two's complement reading of a pattern of `bits` bits (30_encoding.md R86, 41_field_codec.md R160-R163). -/
def signedOf (bits u : Nat) : Int :=
  if 2 ^ (bits - 1) ≤ u then (u : Int) - (2 ^ bits : Nat) else (u : Int)

/-- The value an integer kind gives a pattern of its width (41_field_codec.md R156-R163). -/
def IntKind.read (k : IntKind) (u : Nat) : Int :=
  if k.signed then signedOf (8 * k.bytes) u else (u : Int)

/-- The least value an integer kind packs (30_encoding.md R86). -/
def IntKind.lo (k : IntKind) : Int :=
  if k.signed then -((2 ^ (8 * k.bytes - 1) : Nat) : Int) else 0

/-- The greatest value an integer kind packs (30_encoding.md R86). -/
def IntKind.hi (k : IntKind) : Int :=
  if k.signed then ((2 ^ (8 * k.bytes - 1) : Nat) : Int) - 1 else ((2 ^ (8 * k.bytes) : Nat) : Int) - 1

end Sys2Proof
end

