-- ==== Sys2Proof/Decode.lean ====
section
/-! DEFINITION. The decoder and the encoder of the command stream, and the table words.
The spec numbers the commands (cmd_index, 30_encoding.md R91, R96) and gives no encoding of their operands (D25,
91_not_in_source.md N18): the operand forms here are the model's own (DESIGN CHOICE, log 3). An input byte is its own
encoding (95_test_vectors.md, L3); which row it selects depends on the parser, see Machine/Select.lean. -/

namespace Sys2Proof

/-- The command index of 30_encoding.md R91 and R96, this spec's own numbering (D25). An input-byte row has none. -/
def Instr.cmdIndex : Instr → Option Nat
  | .byteWaitSync1Sync => none
  | .byteWaitSync1Other _ => none
  | .byteWaitSync2Sync => none
  | .byteWaitSync2Other _ => none
  | .byteClassAny _ => none
  | .byteIdAny _ => none
  | .byteLenLoAny _ => none
  | .byteLenHiZero _ => none
  | .byteLenHiOversize _ => none
  | .byteLenHiPayload _ => none
  | .bytePayloadMore _ => none
  | .bytePayloadLast _ => none
  | .byteCrcAAny _ => none
  | .byteCrcBAccept _ => none
  | .byteCrcBFiltered _ => none
  | .byteCrcBCrcError _ => none
  | .ckAdd _ _ => some 0
  | .ckReset _ => some 1
  | .ckValue _ => some 2
  | .ckMatches _ _ _ => some 3
  | .packU8 _ => some 4
  | .packU16 _ => some 5
  | .packU32 _ => some 6
  | .packU64 _ => some 7
  | .packI8 _ => some 8
  | .packI16 _ => some 9
  | .packI32 _ => some 10
  | .packI64 _ => some 11
  | .packCh _ _ => some 12
  | .packPad _ => some 13
  | .unpackU8 _ => some 14
  | .unpackU16 _ => some 15
  | .unpackU32 _ => some 16
  | .unpackU64 _ => some 17
  | .unpackI8 _ => some 18
  | .unpackI16 _ => some 19
  | .unpackI32 _ => some 20
  | .unpackI64 _ => some 21
  | .unpackCh _ _ => some 22
  | .unpackPad _ _ => some 23
  | .fsNew => some 24
  | .fsAdd _ _ _ => some 25
  | .fsGet _ _ => some 26
  | .fsSet _ _ _ => some 27
  | .fsPack _ => some 28
  | .fsUnpack _ _ _ => some 29
  | .fsAddGroup _ _ _ _ => some 30
  | .bfGet _ _ _ => some 31
  | .bfSet _ _ _ _ => some 32
  | .cfgKeyMake _ _ _ => some 33
  | .cfgKeyFields _ => some 34
  | .cfgValPack _ _ => some 35
  | .cfgValUnpack _ _ => some 36
  | .cfgItemPack _ _ => some 37
  | .cfgItemUnpack _ => some 38
  | .identEq _ _ => some 39
  | .envLength _ => some 40
  | .envToBytes _ _ => some 41
  | .envPack _ => some 42
  | .envUnpack _ _ => some 43
  | .step _ => some 44
  | .process _ => some 45
  | .setFilters _ => some 46
  | .setFilter _ => some 47
  | .restart => some 48
  | .packet => some 49
  | .emptyQueue => some 50
  | .reset => some 51

/-! ## Operand forms, read -/

/-- A natural number: groups of seven bits, least significant first, the top bit set on all but the last byte. -/
def getNat : List Byte → Except DecodeError (Nat × List Byte)
  | [] => .error .truncated
  | b :: bs =>
    if b.toNat < 128 then .ok (b.toNat, bs)
    else match getNat bs with
      | .ok (n, rest) => .ok (b.toNat - 128 + 128 * n, rest)
      | .error e => .error e

/-- One byte. -/
def getByte : List Byte → Except DecodeError (Byte × List Byte)
  | [] => .error .truncated
  | b :: bs => .ok (b, bs)

/-- The integer of a natural number: even for 0, 1, 2, ..., odd for -1, -2, .... -/
def unfoldInt (n : Nat) : Int :=
  if n % 2 = 0 then ((n / 2 : Nat) : Int) else Int.negSucc (n / 2)

/-- An integer. -/
def getInt (bs : List Byte) : Except DecodeError (Int × List Byte) :=
  match getNat bs with
  | .ok (n, rest) => .ok (unfoldInt n, rest)
  | .error e => .error e

/-- `n` items, one after the other. -/
def getMany {α : Type} (item : List Byte → Except DecodeError (α × List Byte)) :
    Nat → List Byte → Except DecodeError (List α × List Byte)
  | 0, bs => .ok ([], bs)
  | n + 1, bs =>
    match item bs with
    | .error e => .error e
    | .ok (a, bs') =>
      match getMany item n bs' with
      | .error e => .error e
      | .ok (as, rest) => .ok (a :: as, rest)

/-- A count, then that many items. -/
def getList {α : Type} (item : List Byte → Except DecodeError (α × List Byte)) (bs : List Byte) :
    Except DecodeError (List α × List Byte) :=
  match getNat bs with
  | .error e => .error e
  | .ok (n, bs') => getMany item n bs'

/-- A character, by its code. -/
def getChar (bs : List Byte) : Except DecodeError (Char × List Byte) :=
  match getNat bs with
  | .error e => .error e
  | .ok (n, rest) => if n.isValidChar then .ok (Char.ofNat n, rest) else .error (.badCharacter n)

/-- A byte sequence. -/
def getBytes (bs : List Byte) : Except DecodeError (List Byte × List Byte) := getList getByte bs

/-- A character sequence. -/
def getText (bs : List Byte) : Except DecodeError (Text × List Byte) := getList getChar bs

/-- The kind of a natural number: 0 to 7 the integers in the order of 10_state.md R35, then CH(N) and PAD(N) by turns. -/
def unfoldKind : Nat → Kind
  | 0 => .int .u8 | 1 => .int .u16 | 2 => .int .u32 | 3 => .int .u64
  | 4 => .int .i8 | 5 => .int .i16 | 6 => .int .i32 | 7 => .int .i64
  | n + 8 => if n % 2 = 0 then .ch (n / 2) else .pad (n / 2)

/-- A kind. -/
def getKind (bs : List Byte) : Except DecodeError (Kind × List Byte) :=
  match getNat bs with
  | .error e => .error e
  | .ok (n, rest) => .ok (unfoldKind n, rest)

/-- A value: an even number holds an integer, an odd one the length of a character sequence that follows. -/
def getValue (bs : List Byte) : Except DecodeError (Value × List Byte) :=
  match getNat bs with
  | .error e => .error e
  | .ok (n, bs') =>
    if n % 2 = 0 then .ok (.int (unfoldInt (n / 2)), bs')
    else match getMany getChar (n / 2) bs' with
      | .error e => .error e
      | .ok (t, rest) => .ok (.text t, rest)

/-- A 32-bit key, four bytes, little-endian (20_memory.md R62). -/
def getKey (bs : List Byte) : Except DecodeError (Key × List Byte) :=
  match getMany getByte 4 bs with
  | .error e => .error e
  | .ok (k, rest) => .ok (BitVec.ofNat 32 (fromLE k), rest)

/-- An identity: class, then id. -/
def getIdent : List Byte → Except DecodeError (Ident × List Byte)
  | c :: i :: rest => .ok (⟨c, i⟩, rest)
  | _ => .error .truncated

/-- One field of a group template: kind, then base name. -/
def getTemplateField (bs : List Byte) : Except DecodeError ((Kind × Text) × List Byte) :=
  match getKind bs with
  | .error e => .error e
  | .ok (k, bs') =>
    match getText bs' with
    | .error e => .error e
    | .ok (t, rest) => .ok ((k, t), rest)

/-! ## Operand forms, written -/

/-- The groups of `putNat`, with the number of groups that may still follow. -/
def putNatGroups : Nat → Nat → List Byte
  | 0, n => [BitVec.ofNat 8 (n % 128)]
  | more + 1, n =>
    if n < 128 then [BitVec.ofNat 8 n] else BitVec.ofNat 8 (n % 128 + 128) :: putNatGroups more (n / 128)

/-- A natural number, as `getNat` reads it. -/
def putNat (n : Nat) : List Byte := putNatGroups n.log2 n

/-- The natural number of an integer, as `unfoldInt` reads it. -/
def foldInt : Int → Nat
  | .ofNat n => 2 * n
  | .negSucc n => 2 * n + 1

/-- An integer. -/
def putInt (v : Int) : List Byte := putNat (foldInt v)

/-- A count, then the items. -/
def putList {α : Type} (item : α → List Byte) (as : List α) : List Byte := putNat as.length ++ as.flatMap item

/-- A character. -/
def putChar (c : Char) : List Byte := putNat c.toNat

/-- A byte sequence. -/
def putBytes (bs : List Byte) : List Byte := putList (fun b => [b]) bs

/-- A character sequence. -/
def putText (t : Text) : List Byte := putList putChar t

/-- The natural number of a kind, as `unfoldKind` reads it. -/
def foldKind : Kind → Nat
  | .int .u8 => 0 | .int .u16 => 1 | .int .u32 => 2 | .int .u64 => 3
  | .int .i8 => 4 | .int .i16 => 5 | .int .i32 => 6 | .int .i64 => 7
  | .ch n => 2 * n + 8
  | .pad n => 2 * n + 9

/-- A kind. -/
def putKind (k : Kind) : List Byte := putNat (foldKind k)

/-- A value. -/
def putValue : Value → List Byte
  | .int v => putNat (2 * foldInt v)
  | .text t => putNat (2 * t.length + 1) ++ t.flatMap putChar

/-- A key. -/
def putKey (k : Key) : List Byte := leBytes 4 k.toNat

/-- An identity. -/
def putIdent (i : Ident) : List Byte := [i.cls, i.id]

/-- One field of a group template. -/
def putTemplateField (f : Kind × Text) : List Byte := putKind f.1 ++ putText f.2

/-! ## Commands -/

/-- The operands of the command with index `cmd`, in the order of 30_encoding.md R91. The width of a bit range is held
as width - 1, since it is at least 1 (41_field_codec.md R180). -/
def getOperands : Nat → List Byte → Except DecodeError (Instr × List Byte)
  | 0, bs => do
    let (acc, bs) ← getNat bs
    let (x, bs) ← getByte bs
    .ok (.ckAdd acc x, bs)
  | 1, bs => do
    let (acc, bs) ← getNat bs
    .ok (.ckReset acc, bs)
  | 2, bs => do
    let (acc, bs) ← getNat bs
    .ok (.ckValue acc, bs)
  | 3, bs => do
    let (acc, bs) ← getNat bs
    let (ra, bs) ← getByte bs
    let (rb, bs) ← getByte bs
    .ok (.ckMatches acc ra rb, bs)
  | 4, bs => do
    let (v, bs) ← getInt bs
    .ok (.packU8 v, bs)
  | 5, bs => do
    let (v, bs) ← getInt bs
    .ok (.packU16 v, bs)
  | 6, bs => do
    let (v, bs) ← getInt bs
    .ok (.packU32 v, bs)
  | 7, bs => do
    let (v, bs) ← getInt bs
    .ok (.packU64 v, bs)
  | 8, bs => do
    let (v, bs) ← getInt bs
    .ok (.packI8 v, bs)
  | 9, bs => do
    let (v, bs) ← getInt bs
    .ok (.packI16 v, bs)
  | 10, bs => do
    let (v, bs) ← getInt bs
    .ok (.packI32 v, bs)
  | 11, bs => do
    let (v, bs) ← getInt bs
    .ok (.packI64 v, bs)
  | 12, bs => do
    let (n, bs) ← getNat bs
    let (str, bs) ← getText bs
    .ok (.packCh n str, bs)
  | 13, bs => do
    let (n, bs) ← getNat bs
    .ok (.packPad n, bs)
  | 14, bs => do
    let (buf, bs) ← getBytes bs
    .ok (.unpackU8 buf, bs)
  | 15, bs => do
    let (buf, bs) ← getBytes bs
    .ok (.unpackU16 buf, bs)
  | 16, bs => do
    let (buf, bs) ← getBytes bs
    .ok (.unpackU32 buf, bs)
  | 17, bs => do
    let (buf, bs) ← getBytes bs
    .ok (.unpackU64 buf, bs)
  | 18, bs => do
    let (buf, bs) ← getBytes bs
    .ok (.unpackI8 buf, bs)
  | 19, bs => do
    let (buf, bs) ← getBytes bs
    .ok (.unpackI16 buf, bs)
  | 20, bs => do
    let (buf, bs) ← getBytes bs
    .ok (.unpackI32 buf, bs)
  | 21, bs => do
    let (buf, bs) ← getBytes bs
    .ok (.unpackI64 buf, bs)
  | 22, bs => do
    let (n, bs) ← getNat bs
    let (buf, bs) ← getBytes bs
    .ok (.unpackCh n buf, bs)
  | 23, bs => do
    let (n, bs) ← getNat bs
    let (buf, bs) ← getBytes bs
    .ok (.unpackPad n buf, bs)
  | 24, bs => .ok (.fsNew, bs)
  | 25, bs => do
    let (fs, bs) ← getNat bs
    let (kind, bs) ← getKind bs
    let (name, bs) ← getText bs
    .ok (.fsAdd fs kind name, bs)
  | 26, bs => do
    let (fs, bs) ← getNat bs
    let (name, bs) ← getText bs
    .ok (.fsGet fs name, bs)
  | 27, bs => do
    let (fs, bs) ← getNat bs
    let (name, bs) ← getText bs
    let (v, bs) ← getValue bs
    .ok (.fsSet fs name v, bs)
  | 28, bs => do
    let (fs, bs) ← getNat bs
    .ok (.fsPack fs, bs)
  | 29, bs => do
    let (fs, bs) ← getNat bs
    let (buf, bs) ← getBytes bs
    let (start, bs) ← getNat bs
    .ok (.fsUnpack fs buf start, bs)
  | 30, bs => do
    let (fs, bs) ← getNat bs
    let (template, bs) ← getList getTemplateField bs
    let (count, bs) ← getInt bs
    let (pre, bs) ← getText bs
    .ok (.fsAddGroup fs template count pre, bs)
  | 31, bs => do
    let (v, bs) ← getNat bs
    let (lsb, bs) ← getNat bs
    let (width, bs) ← getNat bs
    .ok (.bfGet v lsb (width + 1), bs)
  | 32, bs => do
    let (v, bs) ← getNat bs
    let (lsb, bs) ← getNat bs
    let (width, bs) ← getNat bs
    let (x, bs) ← getInt bs
    .ok (.bfSet v lsb (width + 1) x, bs)
  | 33, bs => do
    let (group, bs) ← getInt bs
    let (item, bs) ← getInt bs
    let (bits, bs) ← getInt bs
    .ok (.cfgKeyMake group item bits, bs)
  | 34, bs => do
    let (key, bs) ← getKey bs
    .ok (.cfgKeyFields key, bs)
  | 35, bs => do
    let (key, bs) ← getKey bs
    let (v, bs) ← getInt bs
    .ok (.cfgValPack key v, bs)
  | 36, bs => do
    let (key, bs) ← getKey bs
    let (buf, bs) ← getBytes bs
    .ok (.cfgValUnpack key buf, bs)
  | 37, bs => do
    let (key, bs) ← getKey bs
    let (v, bs) ← getInt bs
    .ok (.cfgItemPack key v, bs)
  | 38, bs => do
    let (buf, bs) ← getBytes bs
    .ok (.cfgItemUnpack buf, bs)
  | 39, bs => do
    let (i, bs) ← getIdent bs
    let (j, bs) ← getIdent bs
    .ok (.identEq i j, bs)
  | 40, bs => do
    let (payload, bs) ← getBytes bs
    .ok (.envLength payload, bs)
  | 41, bs => do
    let (ident, bs) ← getIdent bs
    let (payload, bs) ← getBytes bs
    .ok (.envToBytes ident payload, bs)
  | 42, bs => do
    let (fs, bs) ← getNat bs
    .ok (.envPack fs, bs)
  | 43, bs => do
    let (fs, bs) ← getNat bs
    let (payload, bs) ← getBytes bs
    .ok (.envUnpack fs payload, bs)
  | 44, bs => do
    let (x, bs) ← getByte bs
    .ok (.step x, bs)
  | 45, bs => do
    let (chunk, bs) ← getBytes bs
    .ok (.process chunk, bs)
  | 46, bs => do
    let (idents, bs) ← getList getIdent bs
    .ok (.setFilters idents, bs)
  | 47, bs => do
    let (ident, bs) ← getIdent bs
    .ok (.setFilter ident, bs)
  | 48, bs => .ok (.restart, bs)
  | 49, bs => .ok (.packet, bs)
  | 50, bs => .ok (.emptyQueue, bs)
  | 51, bs => .ok (.reset, bs)
  | cmd, _ => .error (.unknownCommand cmd)

/-- The decoder of the command stream: the first command and the bytes after it, or why there is none. -/
def decode : List Byte → Except DecodeError (Instr × List Byte)
  | [] => .error .truncated
  | b :: bs => getOperands b.toNat bs

/-- The operands of a command as `getOperands` reads them, the byte itself of an input-byte row. -/
def putOperands : Instr → List Byte
  | .byteWaitSync1Sync => [0xB5]
  | .byteWaitSync1Other x => [x]
  | .byteWaitSync2Sync => [0x62]
  | .byteWaitSync2Other x => [x]
  | .byteClassAny x => [x]
  | .byteIdAny x => [x]
  | .byteLenLoAny x => [x]
  | .byteLenHiZero x => [x]
  | .byteLenHiOversize x => [x]
  | .byteLenHiPayload x => [x]
  | .bytePayloadMore x => [x]
  | .bytePayloadLast x => [x]
  | .byteCrcAAny x => [x]
  | .byteCrcBAccept x => [x]
  | .byteCrcBFiltered x => [x]
  | .byteCrcBCrcError x => [x]
  | .ckAdd acc x => putNat acc ++ [x]
  | .ckReset acc => putNat acc
  | .ckValue acc => putNat acc
  | .ckMatches acc ra rb => putNat acc ++ [ra] ++ [rb]
  | .packU8 v => putInt v
  | .packU16 v => putInt v
  | .packU32 v => putInt v
  | .packU64 v => putInt v
  | .packI8 v => putInt v
  | .packI16 v => putInt v
  | .packI32 v => putInt v
  | .packI64 v => putInt v
  | .packCh n str => putNat n ++ putText str
  | .packPad n => putNat n
  | .unpackU8 buf => putBytes buf
  | .unpackU16 buf => putBytes buf
  | .unpackU32 buf => putBytes buf
  | .unpackU64 buf => putBytes buf
  | .unpackI8 buf => putBytes buf
  | .unpackI16 buf => putBytes buf
  | .unpackI32 buf => putBytes buf
  | .unpackI64 buf => putBytes buf
  | .unpackCh n buf => putNat n ++ putBytes buf
  | .unpackPad n buf => putNat n ++ putBytes buf
  | .fsNew => []
  | .fsAdd fs kind name => putNat fs ++ putKind kind ++ putText name
  | .fsGet fs name => putNat fs ++ putText name
  | .fsSet fs name v => putNat fs ++ putText name ++ putValue v
  | .fsPack fs => putNat fs
  | .fsUnpack fs buf start => putNat fs ++ putBytes buf ++ putNat start
  | .fsAddGroup fs template count pre => putNat fs ++ putList putTemplateField template ++ putInt count ++ putText pre
  | .bfGet v lsb width => putNat v ++ putNat lsb ++ putNat (width - 1)
  | .bfSet v lsb width x => putNat v ++ putNat lsb ++ putNat (width - 1) ++ putInt x
  | .cfgKeyMake group item bits => putInt group ++ putInt item ++ putInt bits
  | .cfgKeyFields key => putKey key
  | .cfgValPack key v => putKey key ++ putInt v
  | .cfgValUnpack key buf => putKey key ++ putBytes buf
  | .cfgItemPack key v => putKey key ++ putInt v
  | .cfgItemUnpack buf => putBytes buf
  | .identEq i j => putIdent i ++ putIdent j
  | .envLength payload => putBytes payload
  | .envToBytes ident payload => putIdent ident ++ putBytes payload
  | .envPack fs => putNat fs
  | .envUnpack fs payload => putNat fs ++ putBytes payload
  | .step x => [x]
  | .process chunk => putBytes chunk
  | .setFilters idents => putList putIdent idents
  | .setFilter ident => putIdent ident
  | .restart => []
  | .packet => []
  | .emptyQueue => []
  | .reset => []

/-- The encoder: the command byte and the operands, or the input byte. -/
def encode (i : Instr) : List Byte :=
  match i.cmdIndex with
  | some cmd => BitVec.ofNat 8 cmd :: putOperands i
  | none => putOperands i

/-! ## Input bytes -/

/-- The instruction of a row of the transition table and the byte that selected it. -/
def ByteRow.instr : ByteRow → Byte → Instr
  | .waitSync1Sync, _ => .byteWaitSync1Sync
  | .waitSync1Other, x => .byteWaitSync1Other x
  | .waitSync2Sync, _ => .byteWaitSync2Sync
  | .waitSync2Other, x => .byteWaitSync2Other x
  | .classAny, x => .byteClassAny x
  | .idAny, x => .byteIdAny x
  | .lenLoAny, x => .byteLenLoAny x
  | .lenHiZero, x => .byteLenHiZero x
  | .lenHiOversize, x => .byteLenHiOversize x
  | .lenHiPayload, x => .byteLenHiPayload x
  | .payloadMore, x => .bytePayloadMore x
  | .payloadLast, x => .bytePayloadLast x
  | .crcAAny, x => .byteCrcAAny x
  | .crcBAccept, x => .byteCrcBAccept x
  | .crcBFiltered, x => .byteCrcBFiltered x
  | .crcBCrcError, x => .byteCrcBCrcError x

/-- The input-byte rows that a byte alone names: those with mask 0xFF, which come before the others (30_encoding.md R96).
Neither byte is a cmd_index, so a table word is a command or one of these two. -/
def fixedByteRow (x : Byte) : Option ByteRow :=
  if x = 0xB5 then some .waitSync1Sync else if x = 0x62 then some .waitSync2Sync else none

/-- The bytes of a table word, the first at bits 7:0, with zero bytes after them for every operand form (log 4). -/
def tableWordBytes (nbits w : Nat) : List Byte := leBytes 160 (w % 2 ^ nbits)

/-- What the decoder reads from the word `w` of a row of opcode_table.json: for an input-byte row with a fixed byte that
row, else the command (log 4). The rows with mask 0x00 share every byte and have no word of their own. -/
def decodeTableWord (nbits w : Nat) : Option Instr :=
  match fixedByteRow (BitVec.ofNat 8 (w % 2 ^ nbits)) with
  | some row => some (row.instr (BitVec.ofNat 8 (w % 2 ^ nbits)))
  | none =>
    match decode (tableWordBytes nbits w) with
    | .ok (i, _) => some i
    | .error _ => none

end Sys2Proof
end

