-- ==== Sys2Proof/Machine/State.lean ====
section
/-! DEFINITION. The state of one instance of the block, as plain data, the values it holds, why a step can stop, and
the state after reset. -/

namespace Sys2Proof.Machine

open Sys2Proof

/-! ## What the state is made of -/

/-- A checksum accumulator, a pair of u8 counters (10_state.md R29). -/
structure Acc where
  a : Byte
  b : Byte
  deriving DecidableEq, Repr

/-- The accumulator at reset: "Reset returns both to zero" (R29). -/
def Acc.zero : Acc := ⟨0, 0⟩

/-- An entry of the packet queue (10_state.md R31). -/
inductive Entry where
  /-- `Packet(ident, payload)`. -/
  | packet (ident : Ident) (payload : List Byte)
  /-- `CrcError`, with no payload; no identity stands for it (D5). -/
  | crcError
  deriving DecidableEq, Repr

/-- An event of the diagnostic trace (10_state.md R33). -/
inductive DiagEvent where
  | abandoned (len : BitVec 16)
  | filtered (ident : Ident)
  deriving DecidableEq, Repr

/-- The sticky model fault (10_state.md R32), which "records the entry that did not fit" (60_exceptions.md R304). -/
inductive ModelFault where
  | queueOverflow (entry : Entry)
  deriving DecidableEq, Repr

/-- Kind and value of a field descriptor together (10_state.md R35), so that a value of the wrong sort cannot be
written down. A PAD's value is 0 but after a failed FS_UNPACK (41_field_codec.md R177; log 10). -/
inductive Body where
  | int (k : IntKind) (v : Int)
  | ch (n : Nat) (t : Text)
  | pad (n : Nat) (v : Int)
  deriving DecidableEq, Repr

/-- A field descriptor (10_state.md R35). -/
structure Field where
  name : Text
  order : Nat
  body : Body
  deriving DecidableEq, Repr

/-- A field set (10_state.md R36). -/
structure FieldSet where
  fields : List Field
  next : Nat
  deriving DecidableEq, Repr

/-- A field set at creation (R36, 70_reset_and_hazards.md R341). -/
def FieldSet.empty : FieldSet := ⟨[], 0⟩

/-! ## Errors and results -/

/-- The causes of a DecodingError (60_exceptions.md R301); their codes are `DecodingCause.code`. -/
inductive DecodingCause where
  | shortBuffer | invalidEncoding | outOfRange | stringTooLong | badSizeCode | payloadTooLong
  deriving DecidableEq, Repr

/-- The causes of a FieldSetError (60_exceptions.md R302); their codes are `FieldSetCause.code`. -/
inductive FieldSetCause where
  | duplicateName | unknownName | readOnlyField | typeMismatch
  deriving DecidableEq, Repr

/-- The operands a range check can fail on outside a field (60_exceptions.md R301, OutOfRange). -/
inductive OperandName where
  | group | item | bits | x | v
  deriving DecidableEq, Repr

/-- "the value it records" of a DecodingError (60_exceptions.md R301). -/
inductive Subject where
  /-- The field, with its name when it stands inside a field set. -/
  | field (kind : Kind) (name : Option Text)
  | operand (which : OperandName) (v : Int)
  | key (k : Key)
  | payloadLength (n : Nat)
  deriving DecidableEq, Repr

/-- An error returned to the caller (60_exceptions.md R301, R302, R311). -/
inductive Error where
  | decoding (cause : DecodingCause) (subject : Subject)
  | fieldSet (cause : FieldSetCause)
  deriving DecidableEq, Repr

/-- What a command returned to its caller: the result column of 30_encoding.md R91, or the error it raised (log 6). -/
inductive Result where
  /-- A command with no result has returned; also the value at reset. -/
  | done
  /-- CK_VALUE. -/
  | pair (a b : Byte)
  /-- CK_MATCHES, IDENT_EQ. -/
  | bool (b : Bool)
  /-- The packing commands, FS_PACK, ENV_PACK, ENV_TO_BYTES. -/
  | bytes (bs : List Byte)
  /-- The unpacking commands: value and bytes consumed. -/
  | unpacked (v : Value) (consumed : Nat)
  /-- FS_NEW: the number of the new field set. -/
  | fieldSet (fs : Nat)
  /-- FS_GET. -/
  | value (v : Value)
  /-- FS_UNPACK, ENV_UNPACK: the unconsumed bytes. -/
  | rest (bs : List Byte)
  /-- BF_GET, BF_SET. -/
  | int (v : Int)
  /-- CFGKEY_MAKE. -/
  | key (k : Key)
  /-- CFGKEY_FIELDS. -/
  | keyFields (group item size bits : Nat)
  /-- CFGITEM_UNPACK. -/
  | item (k : Key) (v : Int) (consumed : Nat)
  /-- ENV_LENGTH. -/
  | length (n : BitVec 16)
  /-- PACKET: `(ident, payload)`. -/
  | packet (ident : Ident) (payload : List Byte)
  /-- PACKET: `(CRC_ERROR, none)`. -/
  | crcError
  /-- PACKET: `(none, none)`. -/
  | noPacket
  /-- The command raised. -/
  | raised (e : Error)
  deriving DecidableEq, Repr

/-! ## The state -/

/-- The binary stream parser's state (10_state.md R20-R33), every element under the spec's name. -/
structure Parser where
  /-- `st` (R20). -/
  st : ParserSt
  /-- `cls` (R22). -/
  cls : Byte
  /-- `id` (R23). -/
  id : Byte
  /-- `len_lo` (R24). -/
  lenLo : Byte
  /-- `len` (R24). -/
  len : BitVec 16
  /-- `cnt` (R25), a count. -/
  cnt : Nat
  /-- `pbuf` (R26). -/
  pbuf : List Byte
  /-- `rxa` (R27). -/
  rxa : Byte
  /-- `pck` (R28). -/
  pck : Acc
  /-- `filt` (R30): a finite set, held in rising order with no repeats so that equal sets are equal data (log 21). -/
  filt : List Ident
  /-- `q` (R31), oldest entry first. -/
  q : List Entry
  /-- `fault` (R32). -/
  fault : Option ModelFault
  /-- `diag` (R33), oldest event first. -/
  diag : List DiagEvent
  deriving DecidableEq, Repr

/-- The state of one instance: parser, codec objects, parameters, and the model's own fields (INVENTORY.md). -/
structure State where
  /-- The parameters of the instance (00_scope.md R6, 10_state.md R38), which no operation writes (log 1). -/
  params : Params
  parser : Parser
  /-- The checksum accumulators by number (R29), in rising order, none at (0,0): an unlisted number reads so (log 7). -/
  accs : List (Nat × Acc)
  /-- The field sets by number (R36), in rising order: an unlisted number reads as the empty one (log 8). -/
  sets : List (Nat × FieldSet)
  /-- What the last command returned to its caller (log 6). -/
  res : Result
  /-- How many free values have been drawn (log 9). -/
  draws : Nat
  /-- Bytes the producer has supplied and no byte step has consumed (20_memory.md R70; log 2, log 12). -/
  rx : List Byte
  /-- The bytes of the commands not yet performed, in their order (20_memory.md R71; log 2, log 3). -/
  cmds : List Byte
  deriving DecidableEq, Repr

/-! ## Why a step can stop -/

/-- The faults. -/
inductive Fault where
  /-- No byte step is enabled while `fault` is set (44_parser.md R249, 60_exceptions.md R304: "the producer is stuck").
  Raised by an input-byte row performed while `fault` is set, and by `step` when the producer has bytes waiting,
  `fault` is set and no command is waiting. Safe: the spec enables no step there (log 12). -/
  | producerStuck
  deriving DecidableEq, Repr

/-- The refusals. -/
inductive Refusal where
  /-- The instruction has no meaning yet; raised by an arm of `exec` only. Safe. -/
  | notModelled (mnemonic : String)
  /-- The command stream holds no command; raised by `step`. Safe: the spec gives no such encoding (log 19). -/
  | undecodable (e : DecodeError)
  /-- An input-byte row whose condition on the parser does not hold; raised by the sixteen rows. Safe: the decode of
  30_encoding.md R95 selects no such row, so `step` never answers this (log 13). -/
  | rowNotSelected
  deriving DecidableEq, Repr

/-- What there is to do next (Machine/Fetch.lean). -/
inductive Fetched where
  /-- Perform `i` in the state `s`, from which its bytes are taken. -/
  | run (i : Instr) (s : State)
  /-- Nothing is waiting. -/
  | idle
  /-- Bytes are waiting that no byte step may take, and nothing else is. -/
  | stuck
  /-- The command stream does not decode. -/
  | bad (e : DecodeError)
  deriving DecidableEq, Repr

/-! ## Reset -/

/-- The parser at reset (70_reset_and_hazards.md R340). -/
def Parser.reset : Parser where
  st := .waitSync1
  cls := 0
  id := 0
  lenLo := 0
  len := 0
  cnt := 0
  pbuf := []
  rxa := 0
  pck := Acc.zero
  filt := []
  q := []
  fault := none
  diag := []

/-- An instance with the given parameters right after reset (R340, R341); the model's own fields as log 16 says. -/
def State.resetWith (c : Params) : State where
  params := c
  parser := Parser.reset
  accs := []
  sets := []
  res := .done
  draws := 0
  rx := []
  cmds := []

/-- The machine right after reset. The parameters are chosen at reset (R340) and OPEN (R6): an unknown constant. -/
def State.reset : State := State.resetWith Config.params

end Sys2Proof.Machine
end

