-- ==== Sys2Proof/Machine/Operands.lean ====
section
/-! DEFINITION. The operand forms: accumulators and field sets by number, fields by name, the filter set, the parts of a
configuration key. -/

namespace Sys2Proof.Machine

open Sys2Proof

/-! ## Objects by number (log 7, log 8) -/

/-- The object numbered `n`, or `dflt` where none is listed. -/
def bankGet {α : Type} (dflt : α) (n : Nat) : List (Nat × α) → α
  | [] => dflt
  | (k, v) :: l => if k = n then v else bankGet dflt n l

/-- List `v` under `n`, in rising order of the numbers. -/
def bankPut {α : Type} (n : Nat) (v : α) : List (Nat × α) → List (Nat × α)
  | [] => [(n, v)]
  | (k, w) :: l =>
    if n < k then (n, v) :: (k, w) :: l
    else if n = k then (n, v) :: l
    else (k, w) :: bankPut n v l

/-- List nothing under `n`. -/
def bankDrop {α : Type} (n : Nat) (l : List (Nat × α)) : List (Nat × α) := l.filter (fun e => e.1 != n)

/-- A number above all those listed. -/
def bankFresh {α : Type} : List (Nat × α) → Nat
  | [] => 0
  | (k, _) :: l => max (k + 1) (bankFresh l)

/-- The accumulator `acc` of an operand list (30_encoding.md R91). -/
def State.acc (s : State) (n : Nat) : Acc := bankGet Acc.zero n s.accs

/-- Write an accumulator. One at (0,0) is not listed, so that equal accumulators are equal data. -/
def State.setAcc (s : State) (n : Nat) (v : Acc) : State :=
  { s with accs := if v = Acc.zero then bankDrop n s.accs else bankPut n v s.accs }

/-- The field set `fs` of an operand list (30_encoding.md R91). -/
def State.fieldSet (s : State) (n : Nat) : FieldSet := bankGet FieldSet.empty n s.sets

/-- Write a field set. -/
def State.setFieldSet (s : State) (n : Nat) (fs : FieldSet) : State :=
  { s with sets := bankPut n fs s.sets }

/-! ## Fields (10_state.md R35) -/

/-- The descriptor's `kind`. -/
def Body.kind : Body → Kind
  | .int k _ => .int k
  | .ch n _ => .ch n
  | .pad n _ => .pad n

/-- The descriptor's `value`. -/
def Body.value : Body → Value
  | .int _ v => .int v
  | .ch _ t => .text t
  | .pad _ v => .int v

/-- `default(kind)` (41_field_codec.md R170; D13). -/
def initialBody : Kind → Body
  | .int k => .int k 0
  | .ch n => .ch n []
  | .pad n => .pad n 0

/-- The field named `name`. -/
def FieldSet.find (fs : FieldSet) (name : Text) : Option Field := fs.fields.find? (fun f => f.name == name)

/-- The fields with every field named `name` given the descriptor `b`. -/
def replaceBody (name : Text) (b : Body) (fields : List Field) : List Field :=
  fields.map (fun f => if f.name = name then { f with body := b } else f)

/-- The decimal digits of a number, as FS_ADD_GROUP appends them (41_field_codec.md R175). -/
def decimal (n : Nat) : Text := Nat.toDigits 10 n

/-- The fields FS_ADD_GROUP adds, in order: for i from 0 to count - 1, every (kind, base) of the template under the
name `prefix ++ base ++ "_" ++ decimal(i)` (41_field_codec.md R175; D35). -/
def groupFields (template : List (Kind × Text)) (count : Nat) (pre : Text) : List (Kind × Text) :=
  (List.range count).flatMap (fun i => template.map (fun kb => (kb.1, pre ++ kb.2 ++ ['_'] ++ decimal i)))

/-! ## The filter set (44_parser.md R250; log 21) -/

/-- The place of an identity in the order the filter list is held in. -/
def identKey (i : Ident) : Nat := 256 * i.cls.toNat + i.id.toNat

/-- Add an identity to a rising list, once. -/
def insertIdent (i : Ident) : List Ident → List Ident
  | [] => [i]
  | j :: l =>
    if identKey i < identKey j then i :: j :: l
    else if i = j then j :: l
    else j :: insertIdent i l

/-- `{ i | i occurs in list }` (R250). -/
def identSet (l : List Ident) : List Ident := l.foldr insertIdent []

/-! ## Configuration keys (30_encoding.md R84, R85) -/

/-- SIZE, bits 30:28. -/
def keySize (k : Key) : Nat := (k.extractLsb' 28 3).toNat

/-- GROUP, bits 23:16. -/
def keyGroup (k : Key) : Nat := (k.extractLsb' 16 8).toNat

/-- ITEM, bits 11:0. -/
def keyItem (k : Key) : Nat := (k.extractLsb' 0 12).toNat

/-- `BITS_OF(size)` (42_config_item.md R200); none for the reserved codes 0, 6 and 7. -/
def bitsOf : Nat → Option Nat
  | 1 => some 1
  | 2 => some 8
  | 3 => some 16
  | 4 => some 32
  | 5 => some 64
  | _ => none

/-- `SIZE_OF(bits)` (42_config_item.md R200); none for a bit-width no size code has. -/
def sizeOf? (bits : Int) : Option Nat :=
  if bits = 1 then some 1
  else if bits = 8 then some 2
  else if bits = 16 then some 3
  else if bits = 32 then some 4
  else if bits = 64 then some 5
  else none

/-- `(SIZE << 28) | (GROUP << 16) | ITEM` (30_encoding.md R84). -/
def keyOf (size group item : Nat) : Key :=
  (BitVec.ofNat 32 size <<< 28) ||| (BitVec.ofNat 32 group <<< 16) ||| BitVec.ofNat 32 item

/-- The integer kind of a value of 8, 16, 32 or 64 bits (42_config_item.md R203); 64 for every other width. -/
def valueKind (signed : Bool) (bits : Nat) : IntKind :=
  match bits, signed with
  | 8, false => .u8
  | 8, true => .i8
  | 16, false => .u16
  | 16, true => .i16
  | 32, false => .u32
  | 32, true => .i32
  | _, false => .u64
  | _, true => .i64

end Sys2Proof.Machine
end

