-- ==== Sys2Proof/Machine/Flags.lean ====
section
/-! DEFINITION. The Booleans operations compute. The block stores none of them (10_state.md R34): a range check, the
checksum comparison, and the conditions of the rows of the transition table (30_encoding.md R95). -/

namespace Sys2Proof.Machine

open Sys2Proof

/-- The range check on pack of an integer kind (30_encoding.md R86). -/
def intFits (k : IntKind) (v : Int) : Bool := decide (k.lo ≤ v ∧ v ≤ k.hi)

/-- `(acc.a = ra) and (acc.b = rb)` (40_checksum.md R123). -/
def Acc.agrees (acc : Acc) (ra rb : Byte) : Bool := acc.a == ra && acc.b == rb

/-- Whether a queue of `n` entries is full (20_memory.md R64). -/
def queueFull (c : Params) (n : Nat) : Bool :=
  match c.queueCapacity with
  | none => false
  | some k => n == k.entries

/-- `len_lo | (x << 8)`, the declared length the LEN_HI byte completes (30_encoding.md R95, 20_memory.md R60). -/
def declaredLen (lenLo x : Byte) : BitVec 16 := lenLo.setWidth 16 ||| (x.setWidth 16 <<< 8)

/-- The condition of a row of the transition table (30_encoding.md R95): parser state and "byte condition". For a
PAYLOAD byte that is not the last, the condition is R246's: `cnt` + 1 differs from `len` (log 14). -/
def rowSelected (c : Params) (p : Parser) (x : Byte) : ByteRow → Bool
  | .waitSync1Sync => p.st == .waitSync1 && x == 0xB5
  | .waitSync1Other => p.st == .waitSync1 && x != 0xB5
  | .waitSync2Sync => p.st == .waitSync2 && x == 0x62
  | .waitSync2Other => p.st == .waitSync2 && x != 0x62
  | .classAny => p.st == .class_
  | .idAny => p.st == .id
  | .lenLoAny => p.st == .lenLo
  | .lenHiZero => p.st == .lenHi && declaredLen p.lenLo x == 0
  | .lenHiOversize => p.st == .lenHi && decide (c.maxMsgLen.val < (declaredLen p.lenLo x).toNat)
  | .lenHiPayload =>
    p.st == .lenHi && declaredLen p.lenLo x != 0 && decide ((declaredLen p.lenLo x).toNat ≤ c.maxMsgLen.val)
  | .payloadMore => p.st == .payload && p.cnt + 1 != p.len.toNat
  | .payloadLast => p.st == .payload && p.cnt + 1 == p.len.toNat
  | .crcAAny => p.st == .crcA
  | .crcBAccept => p.st == .crcB && p.pck.agrees p.rxa x && p.filt.contains ⟨p.cls, p.id⟩
  | .crcBFiltered => p.st == .crcB && p.pck.agrees p.rxa x && !p.filt.contains ⟨p.cls, p.id⟩
  | .crcBCrcError => p.st == .crcB && !p.pck.agrees p.rxa x

end Sys2Proof.Machine
end

