-- ==== Sys2Proof/Machine/Ops.lean ====
section
/-! DEFINITION. The operations the meanings share: ending a command, raising an error, the packet queue, the checksum
step, free values, and the turn of an input-byte row. -/

namespace Sys2Proof.Machine

open Sys2Proof

/-! ## Ending a command -/

/-- `return r` (00_scope.md R7): the caller receives `r`. -/
def State.finish (s : State) (r : Result) : State := { s with res := r }

/-- `raise e` (00_scope.md R7): the one way an error is taken. "Control returns to the caller" and "no other state
changes: no mode, mask or saved-state register exists" (60_exceptions.md R311). There is no return beside it: "There is no
return-from-error operation, because nothing is saved" (R312). -/
def State.raise (s : State) (e : Error) : State := { s with res := .raised e }

/-- The numeric code of a DecodingError's cause (60_exceptions.md R301; the spec's own numbering, D39). -/
def DecodingCause.code : DecodingCause → Nat
  | .shortBuffer => 1
  | .invalidEncoding => 2
  | .outOfRange => 3
  | .stringTooLong => 4
  | .badSizeCode => 5
  | .payloadTooLong => 6

/-- The numeric code of a FieldSetError's cause (60_exceptions.md R302; the spec's own numbering, D39). -/
def FieldSetCause.code : FieldSetCause → Nat
  | .duplicateName => 1
  | .unknownName => 2
  | .readOnlyField => 3
  | .typeMismatch => 4

/-- End a command with the result or the error it computed (60_exceptions.md R309: at most one outcome). -/
def answer (s : State) (r : Except Error Result) : Host.Outcome State Fault Refusal :=
  match r with
  | .ok r => .next (s.finish r)
  | .error e => .next (s.raise e)

/-- A cause raised by the pack or unpack of a field, with the field it records (60_exceptions.md R301). -/
def fieldError (kind : Kind) (name : Option Text) (cause : DecodingCause) : Error := .decoding cause (.field kind name)

/-! ## The checksum (40_checksum.md R120) -/

/-- `acc.a <- (acc.a + x) mod 256; acc.b <- (acc.b + acc.a) mod 256`, with the new `a`. -/
def Acc.add (acc : Acc) (x : Byte) : Acc := ⟨acc.a + x, acc.b + (acc.a + x)⟩

/-- CK_ADD of every byte in order. -/
def Acc.addAll (acc : Acc) (bs : List Byte) : Acc := bs.foldl Acc.add acc

/-! ## The packet queue (20_memory.md R64) -/

/-- `Enqueue(q, e)`: a full queue records QueueOverflow with the entry that did not fit (60_exceptions.md R304). -/
def Parser.enqueue (c : Params) (p : Parser) (e : Entry) : Parser :=
  if queueFull c p.q.length then { p with fault := some (.queueOverflow e) } else { p with q := p.q ++ [e] }

/-- `Dequeue(q)`, for a queue that is not empty. -/
def Parser.dequeue (p : Parser) : Parser := { p with q := p.q.tail }

/-- `Clear(q)`. -/
def Parser.clear (p : Parser) : Parser := { p with q := [] }

/-- `diag(event)` (00_scope.md R7, 10_state.md R33). -/
def Parser.note (p : Parser) (e : DiagEvent) : Parser := { p with diag := p.diag ++ [e] }

/-! ## Free values (93_implementation_defined.md I5, I6; log 9, log 10) -/

/-- The free integer of the next draw. -/
def State.freeInt (s : State) : Int := Config.freeInt s.draws

/-- `n` draws have been made. -/
def State.drew (s : State) (n : Nat) : State := { s with draws := s.draws + n }

/-- A descriptor with a free value of its kind, from draw `n`. -/
def Body.freed (n : Nat) : Body → Body
  | .int k _ => .int k (Config.freeInt n)
  | .ch m _ => .ch m (Config.freeText n)
  | .pad m _ => .pad m (Config.freeInt n)

/-- Every field with a free value, from draw `n` on; the schema as it was (41_field_codec.md R177). -/
def freeFields : Nat → List Field → List Field
  | _, [] => []
  | n, f :: fs => { f with body := f.body.freed n } :: freeFields (n + 1) fs

/-! ## Input-byte rows (30_encoding.md R95) -/

/-- The state with another parser. -/
def State.withParser (s : State) (p : Parser) : State := { s with parser := p }

/-- The turn of an input-byte row: no step while `fault` is set (44_parser.md R249), the row's action when its condition
holds, a refusal when the decode of R95 does not select it (log 13). A row has no caller and leaves `res` alone. -/
def byteTurn (row : ByteRow) (x : Byte) (action : Params → Parser → Byte → Parser) (s : State) :
    Host.Outcome State Fault Refusal :=
  match s.parser.fault with
  | some _ => .fault .producerStuck
  | none =>
    if rowSelected s.params s.parser x row then .next (s.withParser (action s.params s.parser x))
    else .refused .rowNotSelected

end Sys2Proof.Machine
end

