-- ==== Sys2Proof/Machine/BitFlags.lean ====
section
/-! DEFINITION. The bit-flag helpers (41_field_codec.md R180, R181). They hold no state (10_state.md R37). -/

namespace Sys2Proof.Machine

open Sys2Proof

/-- `(v >> lsb) & (2^width - 1)` (R180). -/
def bitField (v lsb width : Nat) : Nat := (v >>> lsb) &&& (2 ^ width - 1)

/-- `(v & ~m) | (x << lsb)` with `m = (2^width - 1) << lsb` (R181); `v ^ (v & m)` is `v & ~m`. -/
def withBitField (v lsb width x : Nat) : Nat := (v ^^^ (v &&& ((2 ^ width - 1) <<< lsb))) ||| (x <<< lsb)

/-- BF_GET v, lsb, width (R180). -/
def execBfGet (v lsb width : Nat) (s : State) : Host.Outcome State Fault Refusal :=
  .next (s.finish (.int (bitField v lsb width)))

/-- BF_SET v, lsb, width, x (R181): OutOfRange when x does not fit the width. -/
def execBfSet (v lsb width : Nat) (x : Int) (s : State) : Host.Outcome State Fault Refusal :=
  if 0 ≤ x ∧ x < ((2 ^ width : Nat) : Int) then answer s (.ok (.int (withBitField v lsb width x.toNat)))
  else answer s (.error (.decoding .outOfRange (.operand .x x)))

end Sys2Proof.Machine
end

