-- ==== Sys2Proof/Machine/Checksum.lean ====
section
/-! DEFINITION. The checksum commands (40_checksum.md R120-R123). None raises (60_exceptions.md R307). -/

namespace Sys2Proof.Machine

open Sys2Proof

/-- CK_ADD acc, x (R120). -/
def execCkAdd (acc : Nat) (x : Byte) (s : State) : Host.Outcome State Fault Refusal :=
  .next ((s.setAcc acc ((s.acc acc).add x)).finish .done)

/-- CK_RESET acc (R121). -/
def execCkReset (acc : Nat) (s : State) : Host.Outcome State Fault Refusal :=
  .next ((s.setAcc acc Acc.zero).finish .done)

/-- CK_VALUE acc (R122): the pair (a, b). -/
def execCkValue (acc : Nat) (s : State) : Host.Outcome State Fault Refusal :=
  .next (s.finish (.pair (s.acc acc).a (s.acc acc).b))

/-- CK_MATCHES acc, ra, rb (R123). -/
def execCkMatches (acc : Nat) (ra rb : Byte) (s : State) : Host.Outcome State Fault Refusal :=
  .next (s.finish (.bool ((s.acc acc).agrees ra rb)))

end Sys2Proof.Machine
end

