-- ==== Sys2Proof/Machine/Codec.lean ====
section
/-! DEFINITION. The field codec: packing and unpacking one field (41_field_codec.md R140-R165). A command packs or
unpacks a field outside any field set, so the error it raises records the kind and no name (60_exceptions.md R301). -/

namespace Sys2Proof.Machine

open Sys2Proof

/-! ## Pack -/

/-- Pack an integer (41_field_codec.md R146-R153): the range check, then `LE_k(v mod 2^(8k))`. -/
def packInt (k : IntKind) (v : Int) : Except DecodingCause (List Byte) :=
  if intFits k v then .ok (leBytes k.bytes (v % ((2 ^ (8 * k.bytes) : Nat) : Int)).toNat) else .error .outOfRange

/-- Pack a character sequence as CH(N) (R154): InvalidEncoding before StringTooLong (R309). -/
def packChars (n : Nat) (t : Text) : Except DecodingCause (List Byte) :=
  if t.any (fun c => decide (0x7F < c.toNat)) then .error .invalidEncoding
  else if n < t.length then .error .stringTooLong
  else .ok (t.map (fun c => BitVec.ofNat 8 c.toNat) ++ List.replicate (n - t.length) 0)

/-- Pack PAD(N) (R155); its value is ignored. -/
def packZeros (n : Nat) : List Byte := List.replicate n 0

/-- `PACK(d)` (R144). -/
def packBody : Body → Except DecodingCause (List Byte)
  | .int k v => packInt k v
  | .ch n t => packChars n t
  | .pad n _ => .ok (packZeros n)

/-! ## Unpack -/

/-- Unpack an integer (R156-R163): ShortBuffer, else the value of the first `size` bytes. -/
def unpackInt (k : IntKind) (buf : List Byte) : Except DecodingCause Int :=
  if buf.length < k.bytes then .error .shortBuffer else .ok (k.read (fromLE (buf.take k.bytes)))

/-- The bytes without the 0x00 bytes at their end (R164; D12). -/
def stripZeros (bs : List Byte) : List Byte := (bs.reverse.dropWhile (· == 0)).reverse

/-- Unpack CH(N) (R164): ShortBuffer, then InvalidEncoding, else the characters without trailing zeros. -/
def unpackChars (n : Nat) (buf : List Byte) : Except DecodingCause Text :=
  if buf.length < n then .error .shortBuffer
  else if (buf.take n).any (fun b => decide (0x7F < b.toNat)) then .error .invalidEncoding
  else .ok ((stripZeros (buf.take n)).map (fun b => Char.ofNat b.toNat))

/-- Unpack PAD(N) (R165): the value 0, whatever the bytes. -/
def unpackZeros (n : Nat) (buf : List Byte) : Except DecodingCause Int :=
  if buf.length < n then .error .shortBuffer else .ok 0

/-- `UNPACK(d, buf)` (R144): the descriptor with the decoded value. It consumes `size` bytes (R140). -/
def unpackBody (b : Body) (buf : List Byte) : Except DecodingCause Body :=
  match b with
  | .int k _ =>
    match unpackInt k buf with
    | .ok v => .ok (.int k v)
    | .error e => .error e
  | .ch n _ =>
    match unpackChars n buf with
    | .ok t => .ok (.ch n t)
    | .error e => .error e
  | .pad n _ =>
    match unpackZeros n buf with
    | .ok v => .ok (.pad n v)
    | .error e => .error e

/-! ## The commands -/

/-- End a PACK command: the bytes, or the error with the kind it records. -/
def answerPack (kind : Kind) (r : Except DecodingCause (List Byte)) (s : State) : Host.Outcome State Fault Refusal :=
  match r with
  | .ok bs => answer s (.ok (.bytes bs))
  | .error e => answer s (.error (fieldError kind none e))

/-- End an UNPACK command: the value and `size(kind)` bytes consumed (R140), or the error with the kind it records. -/
def answerUnpack (kind : Kind) (r : Except DecodingCause Value) (s : State) : Host.Outcome State Fault Refusal :=
  match r with
  | .ok v => answer s (.ok (.unpacked v kind.size))
  | .error e => answer s (.error (fieldError kind none e))

/-- The value of an unpack that gives an integer. -/
def intValue (r : Except DecodingCause Int) : Except DecodingCause Value :=
  match r with
  | .ok v => .ok (.int v)
  | .error e => .error e

/-- The value of an unpack that gives a character sequence. -/
def textValue (r : Except DecodingCause Text) : Except DecodingCause Value :=
  match r with
  | .ok t => .ok (.text t)
  | .error e => .error e

/-- PACK_U8 v (R146). -/
def execPackU8 (v : Int) (s : State) : Host.Outcome State Fault Refusal :=
  answerPack (.int .u8) (packInt .u8 v) s

/-- PACK_U16 v (R147). -/
def execPackU16 (v : Int) (s : State) : Host.Outcome State Fault Refusal :=
  answerPack (.int .u16) (packInt .u16 v) s

/-- PACK_U32 v (R148). -/
def execPackU32 (v : Int) (s : State) : Host.Outcome State Fault Refusal :=
  answerPack (.int .u32) (packInt .u32 v) s

/-- PACK_U64 v (R149). -/
def execPackU64 (v : Int) (s : State) : Host.Outcome State Fault Refusal :=
  answerPack (.int .u64) (packInt .u64 v) s

/-- PACK_I8 v (R150). -/
def execPackI8 (v : Int) (s : State) : Host.Outcome State Fault Refusal :=
  answerPack (.int .i8) (packInt .i8 v) s

/-- PACK_I16 v (R151). -/
def execPackI16 (v : Int) (s : State) : Host.Outcome State Fault Refusal :=
  answerPack (.int .i16) (packInt .i16 v) s

/-- PACK_I32 v (R152). -/
def execPackI32 (v : Int) (s : State) : Host.Outcome State Fault Refusal :=
  answerPack (.int .i32) (packInt .i32 v) s

/-- PACK_I64 v (R153). -/
def execPackI64 (v : Int) (s : State) : Host.Outcome State Fault Refusal :=
  answerPack (.int .i64) (packInt .i64 v) s

/-- PACK_CH(N) s (R154). -/
def execPackCh (n : Nat) (str : Text) (s : State) : Host.Outcome State Fault Refusal :=
  answerPack (.ch n) (packChars n str) s

/-- PACK_PAD(N) (R155). -/
def execPackPad (n : Nat) (s : State) : Host.Outcome State Fault Refusal :=
  answerPack (.pad n) (.ok (packZeros n)) s

/-- UNPACK_U8 buf (R156). -/
def execUnpackU8 (buf : List Byte) (s : State) : Host.Outcome State Fault Refusal :=
  answerUnpack (.int .u8) (intValue (unpackInt .u8 buf)) s

/-- UNPACK_U16 buf (R157). -/
def execUnpackU16 (buf : List Byte) (s : State) : Host.Outcome State Fault Refusal :=
  answerUnpack (.int .u16) (intValue (unpackInt .u16 buf)) s

/-- UNPACK_U32 buf (R158). -/
def execUnpackU32 (buf : List Byte) (s : State) : Host.Outcome State Fault Refusal :=
  answerUnpack (.int .u32) (intValue (unpackInt .u32 buf)) s

/-- UNPACK_U64 buf (R159). -/
def execUnpackU64 (buf : List Byte) (s : State) : Host.Outcome State Fault Refusal :=
  answerUnpack (.int .u64) (intValue (unpackInt .u64 buf)) s

/-- UNPACK_I8 buf (R160). -/
def execUnpackI8 (buf : List Byte) (s : State) : Host.Outcome State Fault Refusal :=
  answerUnpack (.int .i8) (intValue (unpackInt .i8 buf)) s

/-- UNPACK_I16 buf (R161). -/
def execUnpackI16 (buf : List Byte) (s : State) : Host.Outcome State Fault Refusal :=
  answerUnpack (.int .i16) (intValue (unpackInt .i16 buf)) s

/-- UNPACK_I32 buf (R162). -/
def execUnpackI32 (buf : List Byte) (s : State) : Host.Outcome State Fault Refusal :=
  answerUnpack (.int .i32) (intValue (unpackInt .i32 buf)) s

/-- UNPACK_I64 buf (R163). -/
def execUnpackI64 (buf : List Byte) (s : State) : Host.Outcome State Fault Refusal :=
  answerUnpack (.int .i64) (intValue (unpackInt .i64 buf)) s

/-- UNPACK_CH(N) buf (R164). -/
def execUnpackCh (n : Nat) (buf : List Byte) (s : State) : Host.Outcome State Fault Refusal :=
  answerUnpack (.ch n) (textValue (unpackChars n buf)) s

/-- UNPACK_PAD(N) buf (R165). -/
def execUnpackPad (n : Nat) (buf : List Byte) (s : State) : Host.Outcome State Fault Refusal :=
  answerUnpack (.pad n) (intValue (unpackZeros n buf)) s

end Sys2Proof.Machine
end

