-- ==== Sys2Proof/Machine/ConfigItem.lean ====
section
/-! DEFINITION. The configuration key and item commands (42_config_item.md R200-R207). They hold no state but the
parameter SIGNED_KEYS they read (10_state.md R37). -/

namespace Sys2Proof.Machine

open Sys2Proof

/-- CFGKEY_FIELDS over a key (R202): (group, item, size, bits). Bits 31, 27:24 and 15:12 are not examined. -/
def keyFields (key : Key) : Except Error (Nat × Nat × Nat × Nat) :=
  match bitsOf (keySize key) with
  | some bits => .ok (keyGroup key, keyItem key, keySize key, bits)
  | none => .error (.decoding .badSizeCode (.key key))

/-- CFGKEY_MAKE over its operands (R201): the checks in the order group, item, bits. -/
def makeKey (group item bits : Int) : Except Error Key :=
  if ¬(0 ≤ group ∧ group ≤ 255) then .error (.decoding .outOfRange (.operand .group group))
  else if ¬(0 ≤ item ∧ item ≤ 4095) then .error (.decoding .outOfRange (.operand .item item))
  else match sizeOf? bits with
    | none => .error (.decoding .outOfRange (.operand .bits bits))
    | some size => .ok (keyOf size group.toNat item.toNat)

/-- CFGVAL_PACK over a key and a value (R204). A 1-bit value is one byte, 0 or 1, whatever SIGNED_KEYS says (R203);
out of range, the error records the operand v, since no field is packed (DESIGN CHOICE, log 29). -/
def packValue (c : Params) (key : Key) (v : Int) : Except Error (List Byte) :=
  match keyFields key with
  | .error e => .error e
  | .ok (_, _, _, bits) =>
    if bits = 1 then
      if v = 0 ∨ v = 1 then .ok [BitVec.ofInt 8 v] else .error (.decoding .outOfRange (.operand .v v))
    else
      match packInt (valueKind (c.signed key) bits) v with
      | .ok bs => .ok bs
      | .error e => .error (fieldError (.int (valueKind (c.signed key) bits)) none e)

/-- CFGVAL_UNPACK over a key and a buffer (R205): the value and the bytes consumed; no value for a 1-bit byte other
than 0 and 1, which is a draw (D36, I5). A 1-bit value missing from the buffer records a U8 field, the one byte that is
read (DESIGN CHOICE, log 29). -/
def unpackValue (c : Params) (key : Key) (buf : List Byte) : Except Error (Option Int × Nat) :=
  match keyFields key with
  | .error e => .error e
  | .ok (_, _, _, bits) =>
    if bits = 1 then
      match buf with
      | [] => .error (fieldError (.int .u8) none .shortBuffer)
      | b :: _ => .ok (if b = 0 ∨ b = 1 then some (b.toNat : Int) else none, 1)
    else
      match unpackInt (valueKind (c.signed key) bits) buf with
      | .ok v => .ok (some v, (valueKind (c.signed key) bits).bytes)
      | .error e => .error (fieldError (.int (valueKind (c.signed key) bits)) none e)

/-- CFGITEM_PACK over a key and a value (R206): BadSizeCode before any range check. -/
def packItem (c : Params) (key : Key) (v : Int) : Except Error (List Byte) :=
  match keyFields key with
  | .error e => .error e
  | .ok _ =>
    match packValue c key v with
    | .error e => .error e
    | .ok bs => .ok (leBytes 4 key.toNat ++ bs)

/-- CFGITEM_UNPACK over a buffer (R207): key, value as `unpackValue` gives it, bytes consumed. -/
def unpackItem (c : Params) (buf : List Byte) : Except Error (Key × Option Int × Nat) :=
  if buf.length < 4 then .error (fieldError (.int .u32) none .shortBuffer)
  else
    match unpackValue c (BitVec.ofNat 32 (fromLE (buf.take 4))) (buf.drop 4) with
    | .error e => .error e
    | .ok (v, n) => .ok (BitVec.ofNat 32 (fromLE (buf.take 4)), v, 4 + n)

/-- CFGKEY_MAKE group, item, bits (R201). -/
def execCfgKeyMake (group item bits : Int) (s : State) : Host.Outcome State Fault Refusal :=
  match makeKey group item bits with
  | .ok key => answer s (.ok (.key key))
  | .error e => answer s (.error e)

/-- CFGKEY_FIELDS key (R202). -/
def execCfgKeyFields (key : Key) (s : State) : Host.Outcome State Fault Refusal :=
  match keyFields key with
  | .ok (group, item, size, bits) => answer s (.ok (.keyFields group item size bits))
  | .error e => answer s (.error e)

/-- CFGVAL_PACK key, v (R204). -/
def execCfgValPack (key : Key) (v : Int) (s : State) : Host.Outcome State Fault Refusal :=
  match packValue s.params key v with
  | .ok bs => answer s (.ok (.bytes bs))
  | .error e => answer s (.error e)

/-- CFGVAL_UNPACK key, buf (R205). An undefined 1-bit byte gives a free integer (log 9). -/
def execCfgValUnpack (key : Key) (buf : List Byte) (s : State) : Host.Outcome State Fault Refusal :=
  match unpackValue s.params key buf with
  | .ok (some v, n) => answer s (.ok (.unpacked (.int v) n))
  | .ok (none, n) => answer (s.drew 1) (.ok (.unpacked (.int s.freeInt) n))
  | .error e => answer s (.error e)

/-- CFGITEM_PACK key, v (R206). -/
def execCfgItemPack (key : Key) (v : Int) (s : State) : Host.Outcome State Fault Refusal :=
  match packItem s.params key v with
  | .ok bs => answer s (.ok (.bytes bs))
  | .error e => answer s (.error e)

/-- CFGITEM_UNPACK buf (R207). An undefined 1-bit byte gives a free integer (log 9). -/
def execCfgItemUnpack (buf : List Byte) (s : State) : Host.Outcome State Fault Refusal :=
  match unpackItem s.params buf with
  | .ok (key, some v, n) => answer s (.ok (.item key v n))
  | .ok (key, none, n) => answer (s.drew 1) (.ok (.item key s.freeInt n))
  | .error e => answer s (.error e)

end Sys2Proof.Machine
end

