-- ==== Sys2Proof/Machine/FieldSets.lean ====
section
/-! DEFINITION. The field-set commands (41_field_codec.md R169-R175). -/

namespace Sys2Proof.Machine

open Sys2Proof

/-! ## The operations over one field set -/

/-- FS_ADD over a field set (R170). A rejected add changes nothing. -/
def FieldSet.add (fs : FieldSet) (kind : Kind) (name : Text) : Except Error FieldSet :=
  if fs.fields.any (fun f => f.name == name) then .error (.fieldSet .duplicateName)
  else .ok ⟨fs.fields ++ [⟨name, fs.next, initialBody kind⟩], fs.next + 1⟩

/-- FS_ADD of each field in order, to the first that raises: the fields added before it stay (R98, R175; log 17). -/
def FieldSet.addEach : List (Kind × Text) → FieldSet → FieldSet × Option Error
  | [], fs => (fs, none)
  | (k, name) :: more, fs =>
    match fs.add k name with
    | .ok fs' => FieldSet.addEach more fs'
    | .error e => (fs, some e)

/-- FS_SET over a field's descriptor (R172): the read-only check, then the type check; no range check (R9). -/
def Body.set : Body → Value → Except Error Body
  | .pad _ _, _ => .error (.fieldSet .readOnlyField)
  | .ch n _, .text t => .ok (.ch n t)
  | .ch _ _, .int _ => .error (.fieldSet .typeMismatch)
  | .int k _, .int v => .ok (.int k v)
  | .int _ _, .text _ => .error (.fieldSet .typeMismatch)

/-- FS_SET over a field set (R172). -/
def FieldSet.set (fs : FieldSet) (name : Text) (v : Value) : Except Error FieldSet :=
  match fs.find name with
  | none => .error (.fieldSet .unknownName)
  | some f =>
    match f.body.set v with
    | .ok b => .ok ⟨replaceBody name b fs.fields, fs.next⟩
    | .error e => .error e

/-- FS_PACK over the fields in ascending order, which is the order of the list (10_state.md R36; R173): the bytes, or
the error of the first field that raises, with its name (R177, 60_exceptions.md R301). -/
def packFields : List Field → Except Error (List Byte)
  | [] => .ok []
  | f :: fs =>
    match packBody f.body with
    | .error e => .error (fieldError f.body.kind (some f.name) e)
    | .ok bs =>
      match packFields fs with
      | .error e => .error e
      | .ok out => .ok (bs ++ out)

/-- FS_UNPACK over the fields to decode (R174): the fields with their values and the bytes left over, or the error of
the first field that raises. -/
def unpackFields : List Field → List Byte → Except Error (List Field × List Byte)
  | [], buf => .ok ([], buf)
  | f :: fs, buf =>
    match unpackBody f.body buf with
    | .error e => .error (fieldError f.body.kind (some f.name) e)
    | .ok b =>
      match unpackFields fs (buf.drop f.body.kind.size) with
      | .error e => .error e
      | .ok (done, rest) => .ok ({ f with body := b } :: done, rest)

/-- FS_UNPACK over a field set of the state (R174, R177). An unpack that raises leaves the fields from `start` on with
free values and the schema as it was (log 10). -/
def unpackInto (n : Nat) (buf : List Byte) (start : Nat) (s : State) : Host.Outcome State Fault Refusal :=
  match unpackFields ((s.fieldSet n).fields.drop start) buf with
  | .ok (done, rest) =>
    answer (s.setFieldSet n ⟨(s.fieldSet n).fields.take start ++ done, (s.fieldSet n).next⟩) (.ok (.rest rest))
  | .error e =>
    answer
      ((s.setFieldSet n ⟨(s.fieldSet n).fields.take start ++ freeFields s.draws ((s.fieldSet n).fields.drop start),
          (s.fieldSet n).next⟩).drew ((s.fieldSet n).fields.length - start))
      (.error e)

/-- FS_PACK of a field set of the state (R173). No state but the result is written. -/
def packOut (n : Nat) (s : State) : Host.Outcome State Fault Refusal :=
  match packFields (s.fieldSet n).fields with
  | .ok out => answer s (.ok (.bytes out))
  | .error e => answer s (.error e)

/-! ## The commands -/

/-- FS_NEW (R169): a new empty field set under a number no listed one has (log 8). -/
def execFsNew (s : State) : Host.Outcome State Fault Refusal :=
  .next ((s.setFieldSet (bankFresh s.sets) FieldSet.empty).finish (.fieldSet (bankFresh s.sets)))

/-- FS_ADD fs, kind, name (R170). -/
def execFsAdd (fs : Nat) (kind : Kind) (name : Text) (s : State) : Host.Outcome State Fault Refusal :=
  match (s.fieldSet fs).add kind name with
  | .ok fs' => answer (s.setFieldSet fs fs') (.ok .done)
  | .error e => answer s (.error e)

/-- FS_GET fs, name (R171). -/
def execFsGet (fs : Nat) (name : Text) (s : State) : Host.Outcome State Fault Refusal :=
  match (s.fieldSet fs).find name with
  | some f => answer s (.ok (.value f.body.value))
  | none => answer s (.error (.fieldSet .unknownName))

/-- FS_SET fs, name, v (R172). -/
def execFsSet (fs : Nat) (name : Text) (v : Value) (s : State) : Host.Outcome State Fault Refusal :=
  match (s.fieldSet fs).set name v with
  | .ok fs' => answer (s.setFieldSet fs fs') (.ok .done)
  | .error e => answer s (.error e)

/-- FS_PACK fs (R173). -/
def execFsPack (fs : Nat) (s : State) : Host.Outcome State Fault Refusal :=
  packOut fs s

/-- FS_UNPACK fs, buf, start (R174). -/
def execFsUnpack (fs : Nat) (buf : List Byte) (start : Nat) (s : State) : Host.Outcome State Fault Refusal :=
  unpackInto fs buf start s

/-- FS_ADD_GROUP fs, template, count, prefix (R175), expanded as 30_encoding.md R98 says. For a negative count the loop
from 0 to count - 1 is empty, as for 0 (DEDUCED, log 28). -/
def execFsAddGroup (fs : Nat) (template : List (Kind × Text)) (count : Int) (pre : Text) (s : State) :
    Host.Outcome State Fault Refusal :=
  match FieldSet.addEach (groupFields template count.toNat pre) (s.fieldSet fs) with
  | (fs', none) => answer (s.setFieldSet fs fs') (.ok .done)
  | (fs', some e) => answer (s.setFieldSet fs fs') (.error e)

end Sys2Proof.Machine
end

