-- ==== Sys2Proof/Machine/Envelope.lean ====
section
/-! DEFINITION. The frame identity and envelope commands (43_envelope.md R220-R224). -/

namespace Sys2Proof.Machine

open Sys2Proof

/-- ENV_LENGTH over a payload (R221). -/
def envLength (payload : List Byte) : Except Error (BitVec 16) :=
  if 65535 < payload.length then .error (.decoding .payloadTooLong (.payloadLength payload.length))
  else .ok (BitVec.ofNat 16 payload.length)

/-- The bytes the checksum covers, in its order: class, id, length low, length high, payload (30_encoding.md R82,
40_checksum.md R126). -/
def coveredBytes (ident : Ident) (payload : List Byte) : List Byte :=
  [ident.cls, ident.id] ++ leBytes 2 payload.length ++ payload

/-- The frame of an identity and a payload (30_encoding.md R80, R222), the checksum taken over a fresh accumulator. -/
def frameBytes (ident : Ident) (payload : List Byte) : List Byte :=
  [0xB5, 0x62] ++ coveredBytes ident payload ++
    [(Acc.zero.addAll (coveredBytes ident payload)).a, (Acc.zero.addAll (coveredBytes ident payload)).b]

/-- IDENT_EQ i, j (R220). -/
def execIdentEq (i j : Ident) (s : State) : Host.Outcome State Fault Refusal :=
  .next (s.finish (.bool (i.cls == j.cls && i.id == j.id)))

/-- ENV_LENGTH payload (R221). -/
def execEnvLength (payload : List Byte) (s : State) : Host.Outcome State Fault Refusal :=
  match envLength payload with
  | .ok n => answer s (.ok (.length n))
  | .error e => answer s (.error e)

/-- ENV_TO_BYTES ident, payload (R222). -/
def execEnvToBytes (ident : Ident) (payload : List Byte) (s : State) : Host.Outcome State Fault Refusal :=
  match envLength payload with
  | .ok _ => answer s (.ok (.bytes (frameBytes ident payload)))
  | .error e => answer s (.error e)

/-- ENV_PACK fs (R223): FS_PACK fs. -/
def execEnvPack (fs : Nat) (s : State) : Host.Outcome State Fault Refusal :=
  packOut fs s

/-- ENV_UNPACK fs, payload (R224): FS_UNPACK fs, payload, 0. -/
def execEnvUnpack (fs : Nat) (payload : List Byte) (s : State) : Host.Outcome State Fault Refusal :=
  unpackInto fs payload 0 s

end Sys2Proof.Machine
end

