-- ==== Sys2Proof/Machine/Select.lean ====
section
/-! DEFINITION. The decode of an input byte against the parser (30_encoding.md R95, 44_parser.md R249). -/

namespace Sys2Proof.Machine

open Sys2Proof

/-- The row the byte `x` selects. LEN_HI tests the zero length before the bound, CRC_B the checksum before the filter
(60_exceptions.md R309). -/
def selectRow (c : Params) (p : Parser) (x : Byte) : ByteRow :=
  match p.st with
  | .waitSync1 => if x = 0xB5 then .waitSync1Sync else .waitSync1Other
  | .waitSync2 => if x = 0x62 then .waitSync2Sync else .waitSync2Other
  | .class_ => .classAny
  | .id => .idAny
  | .lenLo => .lenLoAny
  | .lenHi =>
    if declaredLen p.lenLo x = 0 then .lenHiZero
    else if c.maxMsgLen.val < (declaredLen p.lenLo x).toNat then .lenHiOversize
    else .lenHiPayload
  | .payload => if p.cnt + 1 = p.len.toNat then .payloadLast else .payloadMore
  | .crcA => .crcAAny
  | .crcB =>
    if p.pck.agrees p.rxa x then
      if p.filt.contains ⟨p.cls, p.id⟩ then .crcBAccept else .crcBFiltered
    else .crcBCrcError

end Sys2Proof.Machine
end

