-- ==== Sys2Proof/Machine/Parser.lean ====
section
/-! DEFINITION. The binary stream parser: the actions of the sixteen rows, the byte step, and the parser's commands
(44_parser.md R240-R255, 70_reset_and_hazards.md R340). -/

namespace Sys2Proof.Machine

open Sys2Proof

/-! ## The actions of the rows (30_encoding.md R95) -/

/-- R240, 0xB5. -/
def actWaitSync1Sync (_ : Params) (p : Parser) (_ : Byte) : Parser := { p with st := .waitSync2 }

/-- R240, any other byte: ignored. -/
def actWaitSync1Other (_ : Params) (p : Parser) (_ : Byte) : Parser := { p with st := .waitSync1 }

/-- R241, 0x62: start of a frame. -/
def actWaitSync2Sync (_ : Params) (p : Parser) (_ : Byte) : Parser :=
  { p with pck := Acc.zero, pbuf := [], cnt := 0, st := .class_ }

/-- R241, any other byte: resync, the byte is consumed. -/
def actWaitSync2Other (_ : Params) (p : Parser) (_ : Byte) : Parser := { p with st := .waitSync1 }

/-- R242. -/
def actClassAny (_ : Params) (p : Parser) (x : Byte) : Parser := { p with cls := x, pck := p.pck.add x, st := .id }

/-- R243. -/
def actIdAny (_ : Params) (p : Parser) (x : Byte) : Parser := { p with id := x, pck := p.pck.add x, st := .lenLo }

/-- R244. -/
def actLenLoAny (_ : Params) (p : Parser) (x : Byte) : Parser := { p with lenLo := x, pck := p.pck.add x, st := .lenHi }

/-- R245, length 0. -/
def actLenHiZero (_ : Params) (p : Parser) (x : Byte) : Parser :=
  { p with pck := p.pck.add x, len := declaredLen p.lenLo x, st := .crcA }

/-- R245, length above MAX_MSG_LEN: the frame is abandoned. -/
def actLenHiOversize (_ : Params) (p : Parser) (x : Byte) : Parser :=
  { p.note (.abandoned (declaredLen p.lenLo x)) with
    pck := p.pck.add x, len := declaredLen p.lenLo x, st := .waitSync1 }

/-- R245, any other length. -/
def actLenHiPayload (_ : Params) (p : Parser) (x : Byte) : Parser :=
  { p with pck := p.pck.add x, len := declaredLen p.lenLo x, cnt := 0, st := .payload }

/-- R246, not the last byte. -/
def actPayloadMore (_ : Params) (p : Parser) (x : Byte) : Parser :=
  { p with pbuf := p.pbuf ++ [x], pck := p.pck.add x, cnt := p.cnt + 1, st := .payload }

/-- R246, the last byte. -/
def actPayloadLast (_ : Params) (p : Parser) (x : Byte) : Parser :=
  { p with pbuf := p.pbuf ++ [x], pck := p.pck.add x, cnt := p.cnt + 1, st := .crcA }

/-- R247. -/
def actCrcAAny (_ : Params) (p : Parser) (x : Byte) : Parser := { p with rxa := x, st := .crcB }

/-- R248, matched and in the filter: the packet is enqueued with a copy of `pbuf` (D26). -/
def actCrcBAccept (c : Params) (p : Parser) (_ : Byte) : Parser :=
  { p.enqueue c (.packet ⟨p.cls, p.id⟩ p.pbuf) with st := .waitSync1 }

/-- R248, matched and not in the filter: discarded. -/
def actCrcBFiltered (_ : Params) (p : Parser) (_ : Byte) : Parser :=
  { p.note (.filtered ⟨p.cls, p.id⟩) with st := .waitSync1 }

/-- R248, not matched: the checksum-error entry is enqueued, whatever the filter holds. -/
def actCrcBCrcError (c : Params) (p : Parser) (_ : Byte) : Parser :=
  { p.enqueue c .crcError with st := .waitSync1 }

/-- The action of a row. -/
def rowAction : ByteRow → Params → Parser → Byte → Parser
  | .waitSync1Sync => actWaitSync1Sync
  | .waitSync1Other => actWaitSync1Other
  | .waitSync2Sync => actWaitSync2Sync
  | .waitSync2Other => actWaitSync2Other
  | .classAny => actClassAny
  | .idAny => actIdAny
  | .lenLoAny => actLenLoAny
  | .lenHiZero => actLenHiZero
  | .lenHiOversize => actLenHiOversize
  | .lenHiPayload => actLenHiPayload
  | .payloadMore => actPayloadMore
  | .payloadLast => actPayloadLast
  | .crcAAny => actCrcAAny
  | .crcBAccept => actCrcBAccept
  | .crcBFiltered => actCrcBFiltered
  | .crcBCrcError => actCrcBCrcError

/-- The parser after it consumes the byte `x` (R249): the action of the row the byte selects. -/
def byteStep (c : Params) (p : Parser) (x : Byte) : Parser := rowAction (selectRow c p x) c p x

/-- STEP of each byte in order (R255). No byte step is enabled while `fault` is set (R249), and earlier bytes come first
(20_memory.md R71): from there on the bytes wait in `rx` (log 12). -/
def feed : List Byte → State → State
  | [], s => s
  | x :: xs, s =>
    if s.parser.fault.isSome || !s.rx.isEmpty then { s with rx := s.rx ++ x :: xs }
    else feed xs (s.withParser (byteStep s.params s.parser x))

/-- Feed bytes and return to the producer once none of them waits; while some do, the producer's call has not
returned and `res` stays as it was (log 12). -/
def feedAndReturn (bs : List Byte) (s : State) : State :=
  if (feed bs s).rx.isEmpty then (feed bs s).finish .done else feed bs s

/-! ## The input-byte rows -/

/-- BYTE_WAIT_SYNC1_0XB5 (R240): the byte is 0xB5. -/
def execByteWaitSync1Sync (s : State) : Host.Outcome State Fault Refusal :=
  byteTurn .waitSync1Sync 0xB5 actWaitSync1Sync s

/-- BYTE_WAIT_SYNC1_OTHER (R240). -/
def execByteWaitSync1Other (x : Byte) (s : State) : Host.Outcome State Fault Refusal :=
  byteTurn .waitSync1Other x actWaitSync1Other s

/-- BYTE_WAIT_SYNC2_0X62 (R241): the byte is 0x62. -/
def execByteWaitSync2Sync (s : State) : Host.Outcome State Fault Refusal :=
  byteTurn .waitSync2Sync 0x62 actWaitSync2Sync s

/-- BYTE_WAIT_SYNC2_OTHER (R241). -/
def execByteWaitSync2Other (x : Byte) (s : State) : Host.Outcome State Fault Refusal :=
  byteTurn .waitSync2Other x actWaitSync2Other s

/-- BYTE_CLASS_ANY (R242). -/
def execByteClassAny (x : Byte) (s : State) : Host.Outcome State Fault Refusal :=
  byteTurn .classAny x actClassAny s

/-- BYTE_ID_ANY (R243). -/
def execByteIdAny (x : Byte) (s : State) : Host.Outcome State Fault Refusal :=
  byteTurn .idAny x actIdAny s

/-- BYTE_LEN_LO_ANY (R244). -/
def execByteLenLoAny (x : Byte) (s : State) : Host.Outcome State Fault Refusal :=
  byteTurn .lenLoAny x actLenLoAny s

/-- BYTE_LEN_HI_ZERO (R245). -/
def execByteLenHiZero (x : Byte) (s : State) : Host.Outcome State Fault Refusal :=
  byteTurn .lenHiZero x actLenHiZero s

/-- BYTE_LEN_HI_OVERSIZE (R245). -/
def execByteLenHiOversize (x : Byte) (s : State) : Host.Outcome State Fault Refusal :=
  byteTurn .lenHiOversize x actLenHiOversize s

/-- BYTE_LEN_HI_PAYLOAD (R245). -/
def execByteLenHiPayload (x : Byte) (s : State) : Host.Outcome State Fault Refusal :=
  byteTurn .lenHiPayload x actLenHiPayload s

/-- BYTE_PAYLOAD_MORE (R246). -/
def execBytePayloadMore (x : Byte) (s : State) : Host.Outcome State Fault Refusal :=
  byteTurn .payloadMore x actPayloadMore s

/-- BYTE_PAYLOAD_LAST (R246). -/
def execBytePayloadLast (x : Byte) (s : State) : Host.Outcome State Fault Refusal :=
  byteTurn .payloadLast x actPayloadLast s

/-- BYTE_CRC_A_ANY (R247). -/
def execByteCrcAAny (x : Byte) (s : State) : Host.Outcome State Fault Refusal :=
  byteTurn .crcAAny x actCrcAAny s

/-- BYTE_CRC_B_ACCEPT (R248). -/
def execByteCrcBAccept (x : Byte) (s : State) : Host.Outcome State Fault Refusal :=
  byteTurn .crcBAccept x actCrcBAccept s

/-- BYTE_CRC_B_FILTERED (R248). -/
def execByteCrcBFiltered (x : Byte) (s : State) : Host.Outcome State Fault Refusal :=
  byteTurn .crcBFiltered x actCrcBFiltered s

/-- BYTE_CRC_B_CRC_ERROR (R248). -/
def execByteCrcBCrcError (x : Byte) (s : State) : Host.Outcome State Fault Refusal :=
  byteTurn .crcBCrcError x actCrcBCrcError s

/-! ## The parser's commands -/

/-- STEP x (R249). -/
def execStep (x : Byte) (s : State) : Host.Outcome State Fault Refusal :=
  .next (feedAndReturn [x] s)

/-- PROCESS chunk (R255), expanded as 30_encoding.md R98 says (log 15). -/
def execProcess (chunk : List Byte) (s : State) : Host.Outcome State Fault Refusal :=
  .next (feedAndReturn chunk s)

/-- SET_FILTERS list (R250): the whole set is replaced. -/
def execSetFilters (idents : List Ident) (s : State) : Host.Outcome State Fault Refusal :=
  .next ((s.withParser { s.parser with filt := identSet idents }).finish .done)

/-- SET_FILTER ident (R251): SET_FILTERS [ident] (30_encoding.md R98). -/
def execSetFilter (ident : Ident) (s : State) : Host.Outcome State Fault Refusal :=
  .next ((s.withParser { s.parser with filt := identSet [ident] }).finish .done)

/-- RESTART (R252): only `st` changes (D24). -/
def execRestart (s : State) : Host.Outcome State Fault Refusal :=
  .next ((s.withParser { s.parser with st := .waitSync1 }).finish .done)

/-- PACKET (R253): the oldest entry, removed; `(none, none)` on an empty queue, which changes nothing (D32). -/
def execPacket (s : State) : Host.Outcome State Fault Refusal :=
  match s.parser.q with
  | [] => answer s (.ok .noPacket)
  | .packet ident payload :: _ => answer (s.withParser s.parser.dequeue) (.ok (.packet ident payload))
  | .crcError :: _ => answer (s.withParser s.parser.dequeue) (.ok .crcError)

/-- EMPTY_QUEUE (R254). -/
def execEmptyQueue (s : State) : Host.Outcome State Fault Refusal :=
  .next ((s.withParser s.parser.clear).finish .done)

/-- RESET (70_reset_and_hazards.md R340, R341): the instance is made anew. No operation writes the parameters (10_state.md
R38); the commands not yet performed are the users' and go on; the draws go on, so that a free value is never drawn twice
(log 11). -/
def execReset (s : State) : Host.Outcome State Fault Refusal :=
  .next { State.resetWith s.params with cmds := s.cmds, draws := s.draws }

end Sys2Proof.Machine
end

