-- ==== Sys2Proof/Machine/Dispatch.lean ====
section
/-! DEFINITION. One arm per operation of the block. -/

namespace Sys2Proof.Machine

open Sys2Proof

def exec (i : Instr) (s : State) : Host.Outcome State Fault Refusal :=
  match i with
  | .byteWaitSync1Sync => Sys2Proof.Machine.execByteWaitSync1Sync s
  | .byteWaitSync1Other x => Sys2Proof.Machine.execByteWaitSync1Other x s
  | .byteWaitSync2Sync => Sys2Proof.Machine.execByteWaitSync2Sync s
  | .byteWaitSync2Other x => Sys2Proof.Machine.execByteWaitSync2Other x s
  | .byteClassAny x => Sys2Proof.Machine.execByteClassAny x s
  | .byteIdAny x => Sys2Proof.Machine.execByteIdAny x s
  | .byteLenLoAny x => Sys2Proof.Machine.execByteLenLoAny x s
  | .byteLenHiZero x => Sys2Proof.Machine.execByteLenHiZero x s
  | .byteLenHiOversize x => Sys2Proof.Machine.execByteLenHiOversize x s
  | .byteLenHiPayload x => Sys2Proof.Machine.execByteLenHiPayload x s
  | .bytePayloadMore x => Sys2Proof.Machine.execBytePayloadMore x s
  | .bytePayloadLast x => Sys2Proof.Machine.execBytePayloadLast x s
  | .byteCrcAAny x => Sys2Proof.Machine.execByteCrcAAny x s
  | .byteCrcBAccept x => Sys2Proof.Machine.execByteCrcBAccept x s
  | .byteCrcBFiltered x => Sys2Proof.Machine.execByteCrcBFiltered x s
  | .byteCrcBCrcError x => Sys2Proof.Machine.execByteCrcBCrcError x s
  | .ckAdd acc x => Sys2Proof.Machine.execCkAdd acc x s
  | .ckReset acc => Sys2Proof.Machine.execCkReset acc s
  | .ckValue acc => Sys2Proof.Machine.execCkValue acc s
  | .ckMatches acc ra rb => Sys2Proof.Machine.execCkMatches acc ra rb s
  | .packU8 v => Sys2Proof.Machine.execPackU8 v s
  | .packU16 v => Sys2Proof.Machine.execPackU16 v s
  | .packU32 v => Sys2Proof.Machine.execPackU32 v s
  | .packU64 v => Sys2Proof.Machine.execPackU64 v s
  | .packI8 v => Sys2Proof.Machine.execPackI8 v s
  | .packI16 v => Sys2Proof.Machine.execPackI16 v s
  | .packI32 v => Sys2Proof.Machine.execPackI32 v s
  | .packI64 v => Sys2Proof.Machine.execPackI64 v s
  | .packCh n str => Sys2Proof.Machine.execPackCh n str s
  | .packPad n => Sys2Proof.Machine.execPackPad n s
  | .unpackU8 buf => Sys2Proof.Machine.execUnpackU8 buf s
  | .unpackU16 buf => Sys2Proof.Machine.execUnpackU16 buf s
  | .unpackU32 buf => Sys2Proof.Machine.execUnpackU32 buf s
  | .unpackU64 buf => Sys2Proof.Machine.execUnpackU64 buf s
  | .unpackI8 buf => Sys2Proof.Machine.execUnpackI8 buf s
  | .unpackI16 buf => Sys2Proof.Machine.execUnpackI16 buf s
  | .unpackI32 buf => Sys2Proof.Machine.execUnpackI32 buf s
  | .unpackI64 buf => Sys2Proof.Machine.execUnpackI64 buf s
  | .unpackCh n buf => Sys2Proof.Machine.execUnpackCh n buf s
  | .unpackPad n buf => Sys2Proof.Machine.execUnpackPad n buf s
  | .fsNew => Sys2Proof.Machine.execFsNew s
  | .fsAdd fs kind name => Sys2Proof.Machine.execFsAdd fs kind name s
  | .fsGet fs name => Sys2Proof.Machine.execFsGet fs name s
  | .fsSet fs name v => Sys2Proof.Machine.execFsSet fs name v s
  | .fsPack fs => Sys2Proof.Machine.execFsPack fs s
  | .fsUnpack fs buf start => Sys2Proof.Machine.execFsUnpack fs buf start s
  | .fsAddGroup fs template count pre => Sys2Proof.Machine.execFsAddGroup fs template count pre s
  | .bfGet v lsb width => Sys2Proof.Machine.execBfGet v lsb width s
  | .bfSet v lsb width x => Sys2Proof.Machine.execBfSet v lsb width x s
  | .cfgKeyMake group item bits => Sys2Proof.Machine.execCfgKeyMake group item bits s
  | .cfgKeyFields key => Sys2Proof.Machine.execCfgKeyFields key s
  | .cfgValPack key v => Sys2Proof.Machine.execCfgValPack key v s
  | .cfgValUnpack key buf => Sys2Proof.Machine.execCfgValUnpack key buf s
  | .cfgItemPack key v => Sys2Proof.Machine.execCfgItemPack key v s
  | .cfgItemUnpack buf => Sys2Proof.Machine.execCfgItemUnpack buf s
  | .identEq a b => Sys2Proof.Machine.execIdentEq a b s
  | .envLength payload => Sys2Proof.Machine.execEnvLength payload s
  | .envToBytes ident payload => Sys2Proof.Machine.execEnvToBytes ident payload s
  | .envPack fs => Sys2Proof.Machine.execEnvPack fs s
  | .envUnpack fs payload => Sys2Proof.Machine.execEnvUnpack fs payload s
  | .step x => Sys2Proof.Machine.execStep x s
  | .process chunk => Sys2Proof.Machine.execProcess chunk s
  | .setFilters idents => Sys2Proof.Machine.execSetFilters idents s
  | .setFilter ident => Sys2Proof.Machine.execSetFilter ident s
  | .restart => Sys2Proof.Machine.execRestart s
  | .packet => Sys2Proof.Machine.execPacket s
  | .emptyQueue => Sys2Proof.Machine.execEmptyQueue s
  | .reset => Sys2Proof.Machine.execReset s

end Sys2Proof.Machine
end

