-- ==== Sys2Proof/Machine/Fetch.lean ====
section
/-! DEFINITION. What there is to do next, and how an instruction comes to stand there. -/

namespace Sys2Proof.Machine

open Sys2Proof

/-- The next command of the stream, or `otherwise` where the stream is empty. -/
def fetchCommand (s : State) (otherwise : Fetched) : Fetched :=
  match s.cmds with
  | [] => otherwise
  | b :: bs =>
    match decode (b :: bs) with
    | .ok (i, rest) => .run i { s with cmds := rest }
    | .error e => .bad e

/-- The next operation of the total order (20_memory.md R71; log 2): a byte the producer has supplied, decoded against
the parser (30_encoding.md R95), else the next command. While `fault` is set no byte step is enabled and the commands go
on (60_exceptions.md R304, D34). A producer that supplies no bytes is no fault (R318; log 5). -/
def fetch (s : State) : Fetched :=
  match s.rx with
  | [] => fetchCommand s .idle
  | x :: xs =>
    match s.parser.fault with
    | none => .run ((selectRow s.params s.parser x).instr x) { s with rx := xs }
    | some _ => fetchCommand s .stuck

/-- The parser state in which a byte alone selects the row (30_encoding.md R95, R96). -/
def rowHome : ByteRow → ParserSt
  | .waitSync2Sync => .waitSync2
  | _ => .waitSync1

/-- Place the instruction of a table word where `fetch` finds it (log 4): an input byte in `rx` with the parser in the
state that selects its row and no fault set, a command at the front of `cmds`. -/
def placeWord (s : State) (nbits w : Nat) : State :=
  match fixedByteRow (BitVec.ofNat 8 (w % 2 ^ nbits)) with
  | some row =>
    { s with
      parser := { s.parser with st := rowHome row, fault := none }
      rx := BitVec.ofNat 8 (w % 2 ^ nbits) :: s.rx }
  | none =>
    match decodeTableWord nbits w with
    | some i => { s with rx := [], cmds := encode i ++ s.cmds }
    | none => { s with rx := [], cmds := tableWordBytes nbits w ++ s.cmds }

end Sys2Proof.Machine
end

