-- ==== Sys2Proof/Machine/Step.lean ====
section
/-! DEFINITION. One step of the machine: the next operation, performed. -/

namespace Sys2Proof.Machine

open Sys2Proof

/-- Perform the next operation of the total order (00_scope.md R8, 20_memory.md R71). -/
def step (s : State) : Host.Outcome State Fault Refusal :=
  match fetch s with
  | .run i s' => exec i s'
  | .idle => .next s
  | .stuck => .fault .producerStuck
  | .bad e => .refused (.undecodable e)

/-- The state with the instruction of a table word as the next one (log 4). -/
def State.withFetchWord (s : State) (nbits w : Nat) : State := placeWord s nbits w

end Sys2Proof.Machine
end

