-- ==== Sys2Proof/Safety.lean ====
section
/-! DEFINITION. The terms claims use: a sequence of operations, the invariant of the block, and families of
instructions named together. -/

namespace Sys2Proof.Machine

open Sys2Proof

/-! ## Sequences of operations -/

/-- Operations performed in order, to the first that stops. -/
def execAll : List Instr → State → Host.Outcome State Fault Refusal
  | [], s => .next s
  | i :: is, s =>
    match exec i s with
    | .next s' => execAll is s'
    | .fault r => .fault r
    | .refused r => .refused r

/-! ## Families -/

/-- The commands of 30_encoding.md R91, as opposed to the input-byte rows of R95. -/
def isCommand (i : Instr) : Bool := i.cmdIndex.isSome

/-- The PACK command of an integer kind (41_field_codec.md R146-R153). -/
def packInstr : IntKind → Int → Instr
  | .u8 => .packU8 | .u16 => .packU16 | .u32 => .packU32 | .u64 => .packU64
  | .i8 => .packI8 | .i16 => .packI16 | .i32 => .packI32 | .i64 => .packI64

/-- The UNPACK command of an integer kind (41_field_codec.md R156-R163). -/
def unpackInstr : IntKind → List Byte → Instr
  | .u8 => .unpackU8 | .u16 => .unpackU16 | .u32 => .unpackU32 | .u64 => .unpackU64
  | .i8 => .unpackI8 | .i16 => .unpackI16 | .i32 => .unpackI32 | .i64 => .unpackI64

/-- The command whose rule `PACK(d)` selects by the descriptor's kind (41_field_codec.md R144). -/
def packCommand : Body → Instr
  | .int k v => packInstr k v
  | .ch n t => .packCh n t
  | .pad n _ => .packPad n

/-- The command whose rule `UNPACK(d, buf)` selects by the descriptor's kind (41_field_codec.md R144). -/
def unpackCommand : Kind → List Byte → Instr
  | .int k => unpackInstr k
  | .ch n => .unpackCh n
  | .pad n => .unpackPad n

/-! ## The spec's own formulas, for claims that do not rest on the model's helpers -/

/-- `LE_k(u) = [u[7:0], u[15:8], ..., u[8k-1:8k-8]]` (41_field_codec.md R141). -/
def littleEndian (k u : Nat) : List Byte := (List.range k).map (fun i => BitVec.ofNat 8 (u / 2 ^ (8 * i)))

/-- `FromLE_k(s)`, the sum of `s[i] << (8 i)` for i below k (41_field_codec.md R141). -/
def littleEndianValue (k : Nat) (bs : List Byte) : Nat :=
  ((List.range k).map (fun i => (bs.getD i 0).toNat <<< (8 * i))).sum

/-- Where field `j` of a list begins in its bytes: after the sizes of the fields before it (30_encoding.md R89,
41_field_codec.md R140, R173). -/
def fieldOffset (l : List Field) (j : Nat) : Nat := ((l.take j).map (fun f => f.body.kind.size)).sum

/-- The value of k bytes read in two's complement (41_field_codec.md R160-R163). -/
def twosComplement (k u : Nat) : Int := if u ≥ 2 ^ (8 * k - 1) then (u : Int) - (2 : Int) ^ (8 * k) else (u : Int)

/-- The checksum pair of a byte sequence in closed form (40_checksum.md R124): `a` is the sum of the bytes, `b` the sum of
`(n - i) * x_i`, both mod 256. -/
def closedChecksum (bs : List Byte) : Nat × Nat :=
  ((bs.map BitVec.toNat).sum % 256,
    ((List.range bs.length).map (fun i => (bs.length - i) * (bs.getD i 0).toNat)).sum % 256)

/-- The frame of 30_encoding.md R80, laid out from its table, with the checksum in closed form over offsets 2 to 5+L. -/
def wireFrame (ident : Ident) (payload : List Byte) : List Byte :=
  let covered := [ident.cls, ident.id] ++ littleEndian 2 payload.length ++ payload
  [0xB5, 0x62] ++ covered ++
    [BitVec.ofNat 8 (closedChecksum covered).1, BitVec.ofNat 8 (closedChecksum covered).2]

/-- `len_lo | (x << 8)` as a number (20_memory.md R60). -/
def wireLength (lenLo x : Byte) : Nat := lenLo.toNat + 256 * x.toNat

/-- A queue of `n` entries takes one more (20_memory.md R64). -/
def hasRoom (c : Params) (n : Nat) : Prop := ∀ k, c.queueCapacity = some k → n < k.entries

/-- The condition of each row of the transition table, as 30_encoding.md R95 states it. -/
def tableCondition (c : Params) (p : Parser) (x : Byte) : ByteRow → Prop
  | .waitSync1Sync => p.st = .waitSync1 ∧ x = 0xB5
  | .waitSync1Other => p.st = .waitSync1 ∧ x ≠ 0xB5
  | .waitSync2Sync => p.st = .waitSync2 ∧ x = 0x62
  | .waitSync2Other => p.st = .waitSync2 ∧ x ≠ 0x62
  | .classAny => p.st = .class_
  | .idAny => p.st = .id
  | .lenLoAny => p.st = .lenLo
  | .lenHiZero => p.st = .lenHi ∧ wireLength p.lenLo x = 0
  | .lenHiOversize => p.st = .lenHi ∧ wireLength p.lenLo x > c.maxMsgLen.val
  | .lenHiPayload => p.st = .lenHi ∧ 0 < wireLength p.lenLo x ∧ wireLength p.lenLo x ≤ c.maxMsgLen.val
  | .payloadMore => p.st = .payload ∧ p.cnt + 1 < p.len.toNat
  | .payloadLast => p.st = .payload ∧ p.cnt + 1 = p.len.toNat
  | .crcAAny => p.st = .crcA
  | .crcBAccept => p.st = .crcB ∧ (p.rxa, x) = (p.pck.a, p.pck.b) ∧ (⟨p.cls, p.id⟩ : Ident) ∈ p.filt
  | .crcBFiltered => p.st = .crcB ∧ (p.rxa, x) = (p.pck.a, p.pck.b) ∧ (⟨p.cls, p.id⟩ : Ident) ∉ p.filt
  | .crcBCrcError => p.st = .crcB ∧ (p.rxa, x) ≠ (p.pck.a, p.pck.b)

/-- The next `st` of each row of the transition table (30_encoding.md R95). -/
def tableNext : ByteRow → ParserSt
  | .waitSync1Sync => .waitSync2
  | .waitSync2Sync => .class_
  | .classAny => .id
  | .idAny => .lenLo
  | .lenLoAny => .lenHi
  | .lenHiZero => .crcA
  | .lenHiPayload => .payload
  | .payloadMore => .payload
  | .payloadLast => .crcA
  | .crcAAny => .crcB
  | .waitSync1Other | .waitSync2Other | .lenHiOversize | .crcBAccept | .crcBFiltered | .crcBCrcError => .waitSync1

/-- The commands that belong to the checksum, the codec, the configuration items and the envelope (30_encoding.md R91,
column unit): none reads or writes the parser (10_state.md R39). -/
def isCodecCommand : Instr → Bool
  | .step _ | .process _ | .setFilters _ | .setFilter _ | .restart | .packet | .emptyQueue | .reset => false
  | i => isCommand i

/-- A value is in the pack range of its kind: an integer in its range, ASCII characters no more than N. PAD packs
whatever it holds (30_encoding.md R86, 41_field_codec.md R154, R155). -/
def packable : Body → Prop
  | .int k v => k.lo ≤ v ∧ v ≤ k.hi
  | .ch n t => (∀ c ∈ t, c.toNat ≤ 0x7F) ∧ t.length ≤ n
  | .pad _ _ => True

/-- A value that packing and unpacking gives back (41_field_codec.md R166, R176): every integer, a character sequence
that does not end in 0x00. -/
def returnsFromPack : Body → Prop
  | .int _ _ => True
  | .ch _ t => t.getLast? ≠ some (Char.ofNat 0)
  | .pad _ _ => False

/-! ## The invariant -/

/-- The bytes of the frame in progress that `pck` has been fed, where it is compared later (40_checksum.md R126,
30_encoding.md R82). -/
def Parser.fed (p : Parser) : List Byte :=
  match p.st with
  | .waitSync1 | .waitSync2 | .class_ => []
  | .id => [p.cls]
  | .lenLo => [p.cls, p.id]
  | .lenHi => [p.cls, p.id, p.lenLo]
  | .payload | .crcA | .crcB => [p.cls, p.id] ++ leBytes 2 p.len.toNat ++ p.pbuf

/-- Whether a frame is in progress past its second sync byte. -/
def Parser.inFrame (p : Parser) : Prop := p.st ≠ .waitSync1 ∧ p.st ≠ .waitSync2

/-- An entry's payload is at most MAX_MSG_LEN long (10_state.md R31). -/
def entryFits (c : Params) : Entry → Prop
  | .packet _ payload => payload.length ≤ c.maxMsgLen.val
  | .crcError => True

/-- The entry a model fault records. -/
def ModelFault.entry : ModelFault → Entry
  | .queueOverflow e => e

/-- Identities in rising order without repeats, the form a set is held in (log 21). -/
def identsRise (l : List Ident) : Prop := l.Pairwise (fun i j => identKey i < identKey j)

/-- Numbers in rising order without repeats, the form objects are held in (log 7, log 8). -/
def numbersRise {α : Type} (l : List (Nat × α)) : Prop := l.Pairwise (fun e f => e.1 < f.1)

/-- What holds of the parser between operations (10_state.md R25, R26, R30, R31, 40_checksum.md R126). -/
structure Parser.Inv (c : Params) (p : Parser) : Prop where
  /-- `pck` holds the checksum of the frame in progress (R126). -/
  checksum : p.inFrame → p.pck = Acc.zero.addAll p.fed
  /-- No payload byte is captured before PAYLOAD (R25, R26). -/
  header : p.st = .class_ ∨ p.st = .id ∨ p.st = .lenLo ∨ p.st = .lenHi → p.cnt = 0 ∧ p.pbuf = []
  /-- In PAYLOAD, `cnt` < `len` ≤ MAX_MSG_LEN, and `pbuf` holds `cnt` bytes (R25, R26). -/
  inPayload : p.st = .payload → p.cnt < p.len.toNat ∧ p.len.toNat ≤ c.maxMsgLen.val ∧ p.pbuf.length = p.cnt
  /-- In CRC_A and CRC_B the payload is whole (R26). -/
  payloadWhole : p.st = .crcA ∨ p.st = .crcB →
    p.cnt = p.len.toNat ∧ p.pbuf.length = p.cnt ∧ p.len.toNat ≤ c.maxMsgLen.val
  /-- `pbuf` is at most MAX_MSG_LEN long and `cnt` ranges over 0..65535 (R25, R26). -/
  bounded : p.pbuf.length ≤ c.maxMsgLen.val ∧ p.cnt ≤ 65535
  /-- The queue never exceeds QUEUE_CAPACITY (R31, 20_memory.md R64). -/
  queueBounded : ∀ k, c.queueCapacity = some k → p.q.length ≤ k.entries
  /-- Every payload held is at most MAX_MSG_LEN long (R31). -/
  entriesFit : (∀ e ∈ p.q, entryFits c e) ∧ ∀ f, p.fault = some f → entryFits c f.entry
  /-- The filter is a set (R30). -/
  filterIsSet : identsRise p.filt

/-- What holds of a field set between operations (10_state.md R35, R36): names are unique, orders are those of the FS_ADD
calls, and `next` is the order the next one gets. -/
structure FieldSet.Inv (fs : FieldSet) : Prop where
  namesUnique : (fs.fields.map Field.name).Nodup
  ordersCount : fs.fields.map Field.order = List.range fs.fields.length
  nextCounts : fs.next = fs.fields.length

/-- The invariant of the block. -/
structure State.Inv (s : State) : Prop where
  parser : Parser.Inv s.params s.parser
  /-- Accumulators are listed once, none at (0,0) (log 7). -/
  accs : numbersRise s.accs ∧ ∀ e ∈ s.accs, e.2 ≠ Acc.zero
  /-- Field sets are listed once (log 8). -/
  sets : numbersRise s.sets
  fieldSets : ∀ e ∈ s.sets, FieldSet.Inv e.2

end Sys2Proof.Machine
end

