-- ==== Sys2Proof/WellFormed.lean ====
section
/-! DEFINITION. Which instructions are well formed: the operand conditions the spec puts on an operation as such. -/

namespace Sys2Proof

/-- An operand the spec does not admit for the operation: an "any other byte" row holding the byte of the row before it
(30_encoding.md R95, R96), a zero-length row whose high length byte is not 0 (R95: `len_lo | (x << 8) = 0`), or a
bit range of width 0 (41_field_codec.md R180, R181: `width ≥ 1`). Every other operand of its type is admitted. -/
def Instr.wellFormed : Instr → Bool
  | .byteWaitSync1Other x => x != 0xB5
  | .byteWaitSync2Other x => x != 0x62
  | .byteLenHiZero x => x == 0
  | .bfGet _ _ width => decide (1 ≤ width)
  | .bfSet _ _ width _ => decide (1 ≤ width)
  | .byteWaitSync1Sync => true
  | .byteWaitSync2Sync => true
  | .byteClassAny _ => true
  | .byteIdAny _ => true
  | .byteLenLoAny _ => true
  | .byteLenHiOversize _ => true
  | .byteLenHiPayload _ => true
  | .bytePayloadMore _ => true
  | .bytePayloadLast _ => true
  | .byteCrcAAny _ => true
  | .byteCrcBAccept _ => true
  | .byteCrcBFiltered _ => true
  | .byteCrcBCrcError _ => true
  | .ckAdd _ _ => true
  | .ckReset _ => true
  | .ckValue _ => true
  | .ckMatches _ _ _ => true
  | .packU8 _ => true
  | .packU16 _ => true
  | .packU32 _ => true
  | .packU64 _ => true
  | .packI8 _ => true
  | .packI16 _ => true
  | .packI32 _ => true
  | .packI64 _ => true
  | .packCh _ _ => true
  | .packPad _ => true
  | .unpackU8 _ => true
  | .unpackU16 _ => true
  | .unpackU32 _ => true
  | .unpackU64 _ => true
  | .unpackI8 _ => true
  | .unpackI16 _ => true
  | .unpackI32 _ => true
  | .unpackI64 _ => true
  | .unpackCh _ _ => true
  | .unpackPad _ _ => true
  | .fsNew => true
  | .fsAdd _ _ _ => true
  | .fsGet _ _ => true
  | .fsSet _ _ _ => true
  | .fsPack _ => true
  | .fsUnpack _ _ _ => true
  | .fsAddGroup _ _ _ _ => true
  | .cfgKeyMake _ _ _ => true
  | .cfgKeyFields _ => true
  | .cfgValPack _ _ => true
  | .cfgValUnpack _ _ => true
  | .cfgItemPack _ _ => true
  | .cfgItemUnpack _ => true
  | .identEq _ _ => true
  | .envLength _ => true
  | .envToBytes _ _ => true
  | .envPack _ => true
  | .envUnpack _ _ => true
  | .step _ => true
  | .process _ => true
  | .setFilters _ => true
  | .setFilter _ => true
  | .restart => true
  | .packet => true
  | .emptyQueue => true
  | .reset => true

end Sys2Proof
end

