-- ==== Sys2Proof/Certificates/Slice0/Obligations.lean ====
section
/-! DEFINITION. The statements for the provers. Each names the rules of the spec it formalises in its docstring and in
OBLIGATIONS.json. Where a statement reads what a command returned it reads the field `res` (the model's own, log 6), and
accumulators and field sets by number (log 7, log 8). A record update `{ s with ... }` says the frame: every field it does
not name is unchanged. -/

open Sys2Proof Sys2Proof.Machine

/-! ## The machine -/

/-- A step performs the operation that comes next (00_scope.md R8, 20_memory.md R71; the order of `rx` before `cmds`, the
idle step and the stuck step are the model's, log 2, log 5, log 12): a waiting byte by the row it selects, else the
decoded command, else nothing. -/
def Obligations.StepRunsTheDecodedInstruction : Prop :=
  ∀ s : State,
    (∀ x xs, s.rx = x :: xs → s.parser.fault = none →
      step s = exec ((selectRow s.params s.parser x).instr x) { s with rx := xs }) ∧
    (∀ i rest, (s.rx = [] ∨ s.parser.fault ≠ none) → decode s.cmds = .ok (i, rest) →
      step s = exec i { s with cmds := rest }) ∧
    (s.rx = [] → s.cmds = [] → step s = .next s) ∧
    (s.rx ≠ [] → s.parser.fault ≠ none → s.cmds = [] → step s = .fault .producerStuck)

/-- Every well-formed command reads back from its encoding, whatever follows it, and every input byte from the row it
selects. The operand forms are the model's (log 3). -/
def Obligations.DecodeReadsBackEncode : Prop :=
  (∀ (i : Instr) (rest : List Byte), isCommand i = true → i.wellFormed = true →
    decode (encode i ++ rest) = .ok (i, rest)) ∧
  (∀ (c : Params) (p : Parser) (x : Byte), encode ((selectRow c p x).instr x) = [x])

/-- Some commands' bytes, written out: the first is the cmd_index of 30_encoding.md R91 and 95_test_vectors.md L3, the
operands follow in the model's forms (log 3). -/
def Obligations.WrittenOutCommandsDecode : Prop :=
  decode [0x00, 0x05, 0x2A] = .ok (.ckAdd 5 0x2A, []) ∧
  decode [0x21, 0x42, 0x02, 0x20] = .ok (.cfgKeyMake 0x21 1 16, []) ∧
  decode [0x25, 0x01, 0x00, 0x21, 0x30, 0xF4, 0x03] = .ok (.cfgItemPack 0x30210001 250, []) ∧
  decode [0x2D, 0x03, 0xB5, 0x62, 0x06, 0x31] = .ok (.process [0xB5, 0x62, 0x06], [0x31]) ∧
  decode [0x2F, 0x13, 0x40] = .ok (.setFilter ⟨0x13, 0x40⟩, []) ∧
  decode [0x34] = .error (.unknownCommand 52)

/-- Every command completes in every state (20_memory.md R73, 60_exceptions.md R307, R311: an error is returned to the
caller), and every input-byte row completes where its condition holds and no fault is set. That STEP and PROCESS complete
while `fault` is set, their bytes held back, is the model's (log 12: R249 gives no step there), and so is that BF_GET and
BF_SET of width 0, which no encoding gives, complete (log 24). -/
def Obligations.EveryOperationCompletes : Prop :=
  (∀ (i : Instr) (s : State), isCommand i = true → ∃ t, exec i s = .next t) ∧
  (∀ (row : ByteRow) (x : Byte) (s : State), s.parser.fault = none → tableCondition s.params s.parser x row →
    ∃ t, exec (row.instr x) s = .next t)

/-- The invariant of the block is kept by every step (10_state.md R25, R26, R30, R31, R35, R36, 20_memory.md R64,
40_checksum.md R126). -/
def Obligations.EveryStepKeepsTheInvariant : Prop :=
  ∀ s t : State, State.Inv s → step s = .next t → State.Inv t

/-- The invariant holds right after reset. -/
def Obligations.ResetHasTheInvariant : Prop := State.Inv State.reset

/-- No operation writes the parameters (10_state.md R38), and the free values never start again (log 9, log 11). -/
def Obligations.NoStepWritesTheParameters : Prop :=
  ∀ s t : State, step s = .next t → t.params = s.params ∧ s.draws ≤ t.draws

/-- Checksum, codec, configuration and envelope commands neither write the parser nor read it (10_state.md R37, R39): they
leave it as it is, and do the same whatever it holds. -/
def Obligations.CodecCommandsLeaveTheParserAlone : Prop :=
  ∀ (i : Instr) (s t : State) (p : Parser), isCodecCommand i = true → exec i s = .next t →
    t.parser = s.parser ∧ t.rx = s.rx ∧ t.cmds = s.cmds ∧ exec i { s with parser := p } = .next { t with parser := p }

/-- Parser commands and input bytes leave the codec's objects alone (10_state.md R39), but for RESET. -/
def Obligations.ParserOperationsLeaveTheCodecAlone : Prop :=
  ∀ (i : Instr) (s t : State), isCodecCommand i = false → i ≠ .reset → exec i s = .next t →
    t.accs = s.accs ∧ t.sets = s.sets ∧ t.draws = s.draws ∧ t.cmds = s.cmds

/-! ## The checksum accumulator -/

/-- CK_ADD (40_checksum.md R120): `a` then `b`, which adds the new `a`; every other accumulator and field unchanged. -/
def Obligations.CkAddUpdatesBothCounters : Prop :=
  ∀ (n : Nat) (x : Byte) (s : State), ∃ t, exec (.ckAdd n x) s = .next t ∧
    (t.acc n).a.toNat = ((s.acc n).a.toNat + x.toNat) % 256 ∧
    (t.acc n).b.toNat = ((s.acc n).b.toNat + (t.acc n).a.toNat) % 256 ∧
    (∀ m, m ≠ n → t.acc m = s.acc m) ∧
    t = { s with accs := t.accs, res := .done }

/-- CK_RESET, CK_VALUE and CK_MATCHES (40_checksum.md R121, R122, R123). -/
def Obligations.CkResetValueAndMatches : Prop :=
  ∀ (n : Nat) (ra rb : Byte) (s : State),
    (∃ t, exec (.ckReset n) s = .next t ∧ t.acc n = ⟨0, 0⟩ ∧ (∀ m, m ≠ n → t.acc m = s.acc m) ∧
      t = { s with accs := t.accs, res := .done }) ∧
    exec (.ckValue n) s = .next { s with res := .pair (s.acc n).a (s.acc n).b } ∧
    exec (.ckMatches n ra rb) s = .next { s with res := .bool (decide ((s.acc n).a = ra ∧ (s.acc n).b = rb)) }

/-- The closed form of an accumulator reset and fed bytes (40_checksum.md R124, derived there), as CK_VALUE returns it. -/
def Obligations.ChecksumClosedForm : Prop :=
  ∀ (n : Nat) (bs : List Byte) (s : State), ∃ t, execAll (.ckReset n :: bs.map (.ckAdd n)) s = .next t ∧
    exec (.ckValue n) t = .next { t with
      res :=
        .pair (BitVec.ofNat 8 (closedChecksum bs).1) (BitVec.ofNat 8 (closedChecksum bs).2) }

/-- Changing one byte makes CK_MATCHES against the original pair false (40_checksum.md R125, derived there). -/
def Obligations.SingleByteCorruptionIsDetected : Prop :=
  ∀ (n : Nat) (bs : List Byte) (j : Nat) (y : Byte) (s : State) (hj : j < bs.length), y ≠ bs[j] →
    ∃ t u, execAll (.ckReset n :: bs.map (.ckAdd n)) s = .next t ∧
      execAll (.ckReset n :: (bs.set j y).map (.ckAdd n)) s = .next u ∧
      exec (.ckMatches n (t.acc n).a (t.acc n).b) u = .next { u with res := .bool false }

/-! ## Fields -/

/-- PACK_U8, PACK_U16, PACK_U32, PACK_U64 (41_field_codec.md R146-R149).
That the error records the kind and no name is log 6. -/
def Obligations.UnsignedPackChecksRangeAndWritesLittleEndian : Prop :=
  ∀ (k : IntKind) (v : Int) (s : State), k.signed = false →
    exec (packInstr k v) s = .next { s with
      res :=
        if 0 ≤ v ∧ v ≤ 2 ^ (8 * k.bytes) - 1 then .bytes (littleEndian k.bytes v.toNat)
      else .raised (.decoding .outOfRange (.field (.int k) none)) }

/-- PACK_I8, PACK_I16, PACK_I32, PACK_I64 (41_field_codec.md R150-R153), in two's complement (D10).
That the error records the kind and no name is log 6. -/
def Obligations.SignedPackChecksRangeAndWritesTwosComplement : Prop :=
  ∀ (k : IntKind) (v : Int) (s : State), k.signed = true →
    exec (packInstr k v) s = .next { s with
      res :=
        if -2 ^ (8 * k.bytes - 1) ≤ v ∧ v ≤ 2 ^ (8 * k.bytes - 1) - 1
      then .bytes (littleEndian k.bytes (v % 2 ^ (8 * k.bytes)).toNat)
      else .raised (.decoding .outOfRange (.field (.int k) none)) }

/-- UNPACK_U8, UNPACK_U16, UNPACK_U32, UNPACK_U64 (41_field_codec.md R156-R159).
That the error records the kind and no name is log 6. -/
def Obligations.UnsignedUnpackReadsLittleEndian : Prop :=
  ∀ (k : IntKind) (buf : List Byte) (s : State), k.signed = false →
    exec (unpackInstr k buf) s = .next { s with
      res :=
        if buf.length < k.bytes then .raised (.decoding .shortBuffer (.field (.int k) none))
      else .unpacked (.int (littleEndianValue k.bytes buf)) k.bytes }

/-- UNPACK_I8, UNPACK_I16, UNPACK_I32, UNPACK_I64 (41_field_codec.md R160-R163), in two's complement (D10).
That the error records the kind and no name is log 6. -/
def Obligations.SignedUnpackReadsTwosComplement : Prop :=
  ∀ (k : IntKind) (buf : List Byte) (s : State), k.signed = true →
    exec (unpackInstr k buf) s = .next { s with
      res :=
        if buf.length < k.bytes then .raised (.decoding .shortBuffer (.field (.int k) none))
      else .unpacked (.int (twosComplement k.bytes (littleEndianValue k.bytes buf))) k.bytes }

/-- PACK_CH(N) (41_field_codec.md R154; D11, D28): the ASCII codes, then zeros up to N bytes. That an error
records the kind and no name is log 6. -/
def Obligations.StringPackPadsWithZeros : Prop :=
  ∀ (n : Nat) (t : Text) (s : State),
    ((∃ c ∈ t, 0x7F < c.toNat) → exec (.packCh n t) s =
      .next { s with res := .raised (.decoding .invalidEncoding (.field (.ch n) none)) }) ∧
    ((∀ c ∈ t, c.toNat ≤ 0x7F) → n < t.length → exec (.packCh n t) s =
      .next { s with res := .raised (.decoding .stringTooLong (.field (.ch n) none)) }) ∧
    ((∀ c ∈ t, c.toNat ≤ 0x7F) → t.length ≤ n → ∃ bs, exec (.packCh n t) s = .next { s with res := .bytes bs } ∧
      bs.length = n ∧ bs.map BitVec.toNat = t.map Char.toNat ++ List.replicate (n - t.length) 0)

/-- UNPACK_CH(N) (41_field_codec.md R164; D11, D12, D28): the characters without the zeros at the end, N bytes consumed.
That an error records the kind and no name is log 6. -/
def Obligations.StringUnpackStripsTrailingZeros : Prop :=
  ∀ (n : Nat) (buf : List Byte) (s : State),
    (buf.length < n → exec (.unpackCh n buf) s =
      .next { s with res := .raised (.decoding .shortBuffer (.field (.ch n) none)) }) ∧
    (n ≤ buf.length → (∃ b ∈ buf.take n, 0x7F < b.toNat) → exec (.unpackCh n buf) s =
      .next { s with res := .raised (.decoding .invalidEncoding (.field (.ch n) none)) }) ∧
    (n ≤ buf.length → (∀ b ∈ buf.take n, b.toNat ≤ 0x7F) → ∃ t, exec (.unpackCh n buf) s =
        .next { s with res := .unpacked (.text t) n } ∧
      t.length ≤ n ∧ (buf.take n).map BitVec.toNat = t.map Char.toNat ++ List.replicate (n - t.length) 0 ∧
      t.getLast? ≠ some (Char.ofNat 0))

/-- PACK_PAD(N) and UNPACK_PAD(N) (41_field_codec.md R155, R165): zeros out, 0 in whatever the bytes. That the error
records the kind and no name is log 6. -/
def Obligations.PaddingPacksZerosAndUnpacksZero : Prop :=
  ∀ (n : Nat) (buf : List Byte) (s : State),
    exec (.packPad n) s = .next { s with res := .bytes (List.replicate n 0) } ∧
    exec (.unpackPad n buf) s = .next { s with
      res :=
        if buf.length < n then .raised (.decoding .shortBuffer (.field (.pad n) none)) else .unpacked (.int 0) n }

/-- The round trip of a field (41_field_codec.md R166, derived there): an integer in its pack range comes back, the rest
of the buffer not read; of the character sequences exactly the ASCII ones of length at most N that do not end in 0x00. -/
def Obligations.PackThenUnpackGivesTheValue : Prop :=
  (∀ (k : IntKind) (v : Int) (rest : List Byte) (s : State), k.lo ≤ v → v ≤ k.hi →
    ∃ bs, exec (packInstr k v) s = .next { s with res := .bytes bs } ∧ bs.length = k.bytes ∧
      exec (unpackInstr k (bs ++ rest)) s = .next { s with res := .unpacked (.int v) k.bytes }) ∧
  (∀ (n : Nat) (t : Text) (rest : List Byte) (s : State),
    ((∀ c ∈ t, c.toNat ≤ 0x7F) ∧ t.length ≤ n ∧ t.getLast? ≠ some (Char.ofNat 0)) ↔
      ∃ bs, exec (.packCh n t) s = .next { s with res := .bytes bs } ∧
        exec (.unpackCh n (bs ++ rest)) s = .next { s with res := .unpacked (.text t) n })

/-! ## Field sets -/

/-- FS_NEW (41_field_codec.md R169): an empty field set under a number that named none before (log 8). -/
def Obligations.FsNewMakesAnEmptyFieldSet : Prop :=
  ∀ s : State, ∃ n t, exec .fsNew s = .next t ∧ t.res = .fieldSet n ∧ (∀ e ∈ s.sets, e.1 ≠ n) ∧
    t.fieldSet n = ⟨[], 0⟩ ∧ (∀ m, m ≠ n → t.fieldSet m = s.fieldSet m) ∧
    t = { s with sets := t.sets, res := t.res }

/-- FS_ADD (41_field_codec.md R170; D13, D14). -/
def Obligations.FsAddAppendsAFieldOrRejectsTheName : Prop :=
  ∀ (n : Nat) (kind : Kind) (name : Text) (s : State),
    ((∃ f ∈ (s.fieldSet n).fields, f.name = name) → exec (.fsAdd n kind name) s =
      .next { s with res := .raised (.fieldSet .duplicateName) }) ∧
    ((∀ f ∈ (s.fieldSet n).fields, f.name ≠ name) → ∃ t b, exec (.fsAdd n kind name) s = .next t ∧
      b.kind = kind ∧ (b.value = .int 0 ∨ b.value = .text []) ∧
      t.fieldSet n = ⟨(s.fieldSet n).fields ++ [⟨name, (s.fieldSet n).next, b⟩], (s.fieldSet n).next + 1⟩ ∧
      (∀ m, m ≠ n → t.fieldSet m = s.fieldSet m) ∧ t = { s with sets := t.sets, res := .done })

/-- FS_GET (41_field_codec.md R171; D15): the value of the field of that name, UnknownName where there is none. -/
def Obligations.FsGetReturnsTheNamedValue : Prop :=
  ∀ (n : Nat) (name : Text) (s : State),
    ((∀ f ∈ (s.fieldSet n).fields, f.name ≠ name) → exec (.fsGet n name) s =
      .next { s with res := .raised (.fieldSet .unknownName) }) ∧
    (∀ f ∈ (s.fieldSet n).fields, f.name = name → FieldSet.Inv (s.fieldSet n) → exec (.fsGet n name) s =
      .next { s with res := .value f.body.value })

/-- FS_SET (41_field_codec.md R172; D15, D16, D31): UnknownName, ReadOnlyField, TypeMismatch, else the value is stored
with no range check; every other field keeps its value. -/
def Obligations.FsSetStoresTheValueOrRaises : Prop :=
  ∀ (n : Nat) (name : Text) (v : Value) (s : State),
    ((∀ f ∈ (s.fieldSet n).fields, f.name ≠ name) → exec (.fsSet n name v) s =
      .next { s with res := .raised (.fieldSet .unknownName) }) ∧
    (∀ f ∈ (s.fieldSet n).fields, f.name = name → FieldSet.Inv (s.fieldSet n) →
      match f.body, v with
      | .pad _ _, _ => exec (.fsSet n name v) s = .next { s with res := .raised (.fieldSet .readOnlyField) }
      | .ch _ _, .int _ => exec (.fsSet n name v) s = .next { s with res := .raised (.fieldSet .typeMismatch) }
      | .int _ _, .text _ => exec (.fsSet n name v) s = .next { s with res := .raised (.fieldSet .typeMismatch) }
      | .ch _ _, .text _ | .int _ _, .int _ => ∃ t, exec (.fsSet n name v) s = .next t ∧
          (∃ b, b.kind = f.body.kind ∧ b.value = v ∧
            t.fieldSet n = ⟨(s.fieldSet n).fields.map (fun g => if g = f then { f with body := b } else g),
              (s.fieldSet n).next⟩) ∧
          (∀ m, m ≠ n → t.fieldSet m = s.fieldSet m) ∧ t = { s with sets := t.sets, res := .done })

/-- FS_PACK and ENV_PACK (41_field_codec.md R144, R173, R177, 43_envelope.md R223): the bytes each field's PACK command
returns, end to end in order, or the error of the first field whose PACK command raises, with the field's name (how an
error is recorded: log 6); nothing but the result is written. -/
def Obligations.FieldSetPackJoinsTheFieldsInOrder : Prop :=
  ∀ (i : Instr) (n : Nat) (s : State), i = .fsPack n ∨ i = .envPack n →
    (∀ parts : List (List Byte), (s.fieldSet n).fields.map (fun f => exec (packCommand f.body) s) =
        parts.map (fun bs => .next { s with res := .bytes bs }) →
      exec i s = .next { s with res := .bytes parts.flatten } ∧
      parts.flatten.length = fieldOffset (s.fieldSet n).fields (s.fieldSet n).fields.length) ∧
    (∀ before f after cause, (s.fieldSet n).fields = before ++ f :: after →
      (∀ g ∈ before, ∃ bs, exec (packCommand g.body) s = .next { s with res := .bytes bs }) →
      exec (packCommand f.body) s = .next { s with res := .raised (.decoding cause (.field f.body.kind none)) } →
      exec i s = .next { s with res := .raised (.decoding cause (.field f.body.kind (some f.name))) })

/-- FS_UNPACK and ENV_UNPACK that succeed (41_field_codec.md R144, R174, 43_envelope.md R224): the fields from `start` on
take the values their kinds' UNPACK commands return of consecutive parts of the buffer, and the bytes left over are
returned. -/
def Obligations.FieldSetUnpackSlicesTheBuffer : Prop :=
  ∀ (i : Instr) (n start : Nat) (buf : List Byte) (l : List Field) (values : List Value) (s : State),
    i = .fsUnpack n buf start ∨ (i = .envUnpack n buf ∧ start = 0) →
    l = (s.fieldSet n).fields.drop start → values.length = l.length →
    (∀ j (hj : j < l.length) (hv : j < values.length),
      exec (unpackCommand l[j].body.kind (buf.drop (fieldOffset l j))) s =
        .next { s with res := .unpacked values[j] l[j].body.kind.size }) →
    ∃ t done, exec i s = .next t ∧ t.res = .rest (buf.drop (fieldOffset l l.length)) ∧
      fieldOffset l l.length ≤ buf.length ∧
      t.fieldSet n = ⟨(s.fieldSet n).fields.take start ++ done, (s.fieldSet n).next⟩ ∧
      done.map Field.name = l.map Field.name ∧ done.map Field.order = l.map Field.order ∧
      done.map (fun f => f.body.kind) = l.map (fun f => f.body.kind) ∧
      done.map (fun f => f.body.value) = values ∧
      (∀ m, m ≠ n → t.fieldSet m = s.fieldSet m) ∧ t = { s with sets := t.sets, res := t.res }

/-- FS_UNPACK and ENV_UNPACK that raise (41_field_codec.md R144, R174, R177; D14, D28): the error of the first field whose
kind's UNPACK command raises on its part of the buffer, with the field's name (how it is recorded: log 6); the schema and
the fields before `start` are unchanged, and nothing is said of the values from `start` on (log 10). -/
def Obligations.FailedFieldSetUnpackKeepsTheSchema : Prop :=
  ∀ (i : Instr) (n start : Nat) (buf : List Byte) (s : State) (before after : List Field) (f : Field)
    (cause : DecodingCause),
    i = .fsUnpack n buf start ∨ (i = .envUnpack n buf ∧ start = 0) →
    (s.fieldSet n).fields.drop start = before ++ f :: after →
    (∀ j (hj : j < before.length), ∃ v, exec (unpackCommand before[j].body.kind (buf.drop (fieldOffset before j))) s =
      .next { s with res := .unpacked v before[j].body.kind.size }) →
    exec (unpackCommand f.body.kind (buf.drop (fieldOffset before before.length))) s =
      .next { s with res := .raised (.decoding cause (.field f.body.kind none)) } →
    ∃ t, exec i s = .next t ∧ t.res = .raised (.decoding cause (.field f.body.kind (some f.name))) ∧
      (t.fieldSet n).fields.take start = (s.fieldSet n).fields.take start ∧
      (t.fieldSet n).fields.map Field.name = (s.fieldSet n).fields.map Field.name ∧
      (t.fieldSet n).fields.map Field.order = (s.fieldSet n).fields.map Field.order ∧
      (t.fieldSet n).fields.map (fun g => g.body.kind) = (s.fieldSet n).fields.map (fun g => g.body.kind) ∧
      (t.fieldSet n).next = (s.fieldSet n).next ∧
      (∀ m, m ≠ n → t.fieldSet m = s.fieldSet m) ∧ t = { s with sets := t.sets, res := t.res, draws := t.draws }

/-- FS_ADD_GROUP (41_field_codec.md R175, 30_encoding.md R98; the naming is D35): it is its FS_ADDs in order, to the
first that raises (log 17); with a count of 0 or below, none (below 0: log 28). -/
def Obligations.FsAddGroupIsItsFsAdds : Prop :=
  ∀ (n : Nat) (count : Int) (template : List (Kind × Text)) (pre : Text) (s : State),
    let adds := (List.range count.toNat).flatMap (fun i =>
      template.map (fun kb => (kb.1, pre ++ kb.2 ++ "_".toList ++ (toString i).toList)))
    (((s.fieldSet n).fields.map Field.name ++ adds.map Prod.snd).Nodup →
      ∃ t u, exec (.fsAddGroup n template count pre) s = .next t ∧ t.res = .done ∧
        execAll (adds.map (fun a => .fsAdd n a.1 a.2)) s = .next u ∧ (∀ m, t.fieldSet m = u.fieldSet m) ∧
        t = { s with sets := t.sets, res := t.res }) ∧
    (∀ before a after, adds = before ++ a :: after →
      ((s.fieldSet n).fields.map Field.name ++ before.map Prod.snd).Nodup →
      a.2 ∈ (s.fieldSet n).fields.map Field.name ++ before.map Prod.snd →
      ∃ t u, exec (.fsAddGroup n template count pre) s = .next t ∧ t.res = .raised (.fieldSet .duplicateName) ∧
        execAll (before.map (fun a => .fsAdd n a.1 a.2)) s = .next u ∧ (∀ m, t.fieldSet m = u.fieldSet m) ∧
        t = { s with sets := t.sets, res := t.res }) ∧
    (count ≤ 0 → ∃ t, exec (.fsAddGroup n template count pre) s = .next t ∧ (∀ m, t.fieldSet m = s.fieldSet m) ∧
      t = { s with sets := t.sets, res := .done })

/-- The round trip of a field set (41_field_codec.md R176, derived there): another field set of the same schema, unpacked
from FS_PACK's bytes, gets every value that packing keeps, and nothing is left over. -/
def Obligations.FieldSetPackThenUnpackGivesTheValues : Prop :=
  ∀ (n m : Nat) (s : State), n ≠ m → (∀ f ∈ (s.fieldSet n).fields, packable f.body) →
    (s.fieldSet m).fields.map (fun f => f.body.kind) = (s.fieldSet n).fields.map (fun f => f.body.kind) →
    ∃ bs t, exec (.fsPack n) s = .next { s with res := .bytes bs } ∧ exec (.fsUnpack m bs 0) s = .next t ∧
      t.res = .rest [] ∧ t.fieldSet n = s.fieldSet n ∧
      (t.fieldSet m).fields.length = (s.fieldSet n).fields.length ∧
      ∀ j (h : j < (s.fieldSet n).fields.length) (h' : j < (t.fieldSet m).fields.length),
        returnsFromPack (s.fieldSet n).fields[j].body → (t.fieldSet m).fields[j].body = (s.fieldSet n).fields[j].body

/-! ## Bit flags -/

/-- BF_GET (41_field_codec.md R180, the spec's own definition, D17): bit i of the result is bit lsb + i of v below the
width, and 0 from the width on. -/
def Obligations.BfGetReadsTheBitRange : Prop :=
  ∀ (v lsb width : Nat) (s : State), 1 ≤ width → ∃ r : Nat, exec (.bfGet v lsb width) s = .next { s with res := .int r } ∧
    ∀ i, r.testBit i = (decide (i < width) && v.testBit (lsb + i))

/-- BF_SET (41_field_codec.md R181, the spec's own definition, D17): OutOfRange where x does not fit, else the bits of the
range are those of x and every other bit is v's. How the error records x is log 6. -/
def Obligations.BfSetReplacesTheBitRange : Prop :=
  ∀ (v lsb width : Nat) (x : Int) (s : State), 1 ≤ width →
    (¬(0 ≤ x ∧ x < 2 ^ width) → exec (.bfSet v lsb width x) s =
      .next { s with res := .raised (.decoding .outOfRange (.operand .x x)) }) ∧
    (0 ≤ x → x < 2 ^ width → ∃ r : Nat, exec (.bfSet v lsb width x) s = .next { s with res := .int r } ∧
      ∀ i, r.testBit i = if lsb ≤ i ∧ i < lsb + width then x.toNat.testBit (i - lsb) else v.testBit i)

/-! ## Configuration items -/

/-- CFGKEY_MAKE and CFGKEY_FIELDS (42_config_item.md R200, R201, R202, 30_encoding.md R84; D19, D20, D28): the checks in
order, the key with its reserved bits 0, and the fields of a key by their bit places, BadSizeCode for 0, 6 and 7. How an error is
recorded is log 6. -/
def Obligations.CfgKeysAreMadeAndSplit : Prop :=
  ∀ (group item bits : Int) (key : Key) (s : State),
    let size := key.toNat / 2 ^ 28 % 8
    exec (.cfgKeyMake group item bits) s = .next { s with
      res :=
        if ¬(0 ≤ group ∧ group ≤ 255) then .raised (.decoding .outOfRange (.operand .group group))
        else if ¬(0 ≤ item ∧ item ≤ 4095) then .raised (.decoding .outOfRange (.operand .item item))
        else if bits = 1 then .key (BitVec.ofNat 32 (1 * 2 ^ 28 + group.toNat * 2 ^ 16 + item.toNat))
        else if bits = 8 then .key (BitVec.ofNat 32 (2 * 2 ^ 28 + group.toNat * 2 ^ 16 + item.toNat))
        else if bits = 16 then .key (BitVec.ofNat 32 (3 * 2 ^ 28 + group.toNat * 2 ^ 16 + item.toNat))
        else if bits = 32 then .key (BitVec.ofNat 32 (4 * 2 ^ 28 + group.toNat * 2 ^ 16 + item.toNat))
        else if bits = 64 then .key (BitVec.ofNat 32 (5 * 2 ^ 28 + group.toNat * 2 ^ 16 + item.toNat))
        else .raised (.decoding .outOfRange (.operand .bits bits)) } ∧
    exec (.cfgKeyFields key) s = .next { s with
      res :=
        if size = 0 ∨ size = 6 ∨ size = 7 then .raised (.decoding .badSizeCode (.key key))
        else .keyFields (key.toNat / 2 ^ 16 % 256) (key.toNat % 4096) size
          (if size = 1 then 1 else 4 * 2 ^ (size - 1)) }

/-- CFGVAL_PACK and CFGITEM_PACK (42_config_item.md R203, R204, R206; D18, D19): BadSizeCode first, then 0 or 1 in one
byte for a 1-bit key, then the value as PACK of the kind the key gives; an item has the key's four bytes before it.
How an error is recorded is log 6, and for a 1-bit value log 29. -/
def Obligations.CfgPackWritesTheValueTheKeyGives : Prop :=
  ∀ (key : Key) (v : Int) (s : State),
    let size := key.toNat / 2 ^ 28 % 8
    let value : Result :=
      if size = 0 ∨ size = 6 ∨ size = 7 then .raised (.decoding .badSizeCode (.key key))
      else if size = 1 then
        if v = 0 then .bytes [0] else if v = 1 then .bytes [1] else .raised (.decoding .outOfRange (.operand .v v))
      else
        let kind := if s.params.signed key then ([.i8, .i16, .i32, .i64] : List IntKind).getD (size - 2) .i8
          else ([.u8, .u16, .u32, .u64] : List IntKind).getD (size - 2) .u8
        if kind.lo ≤ v ∧ v ≤ kind.hi then .bytes (littleEndian kind.bytes (v % 2 ^ (8 * kind.bytes)).toNat)
        else .raised (.decoding .outOfRange (.field (.int kind) none))
    exec (.cfgValPack key v) s = .next { s with res := value } ∧
    exec (.cfgItemPack key v) s = .next { s with
      res :=
        match value with
      | .bytes bs => .bytes (littleEndian 4 key.toNat ++ bs)
      | r => r }

/-- CFGVAL_UNPACK (42_config_item.md R203, R205; D18, D19, D36): BadSizeCode, ShortBuffer, else the value; for a 1-bit byte
other than 0 and 1 some integer, which this statement does not name. How an error is recorded is log 6, and for a 1-bit
value log 29. -/
def Obligations.CfgValUnpackReadsTheValueTheKeyGives : Prop :=
  ∀ (key : Key) (buf : List Byte) (s : State),
    let size := key.toNat / 2 ^ 28 % 8
    let kind := if s.params.signed key then ([.i8, .i16, .i32, .i64] : List IntKind).getD (size - 2) .i8
      else ([.u8, .u16, .u32, .u64] : List IntKind).getD (size - 2) .u8
    (size = 0 ∨ size = 6 ∨ size = 7 → exec (.cfgValUnpack key buf) s =
      .next { s with res := .raised (.decoding .badSizeCode (.key key)) }) ∧
    (size = 1 → buf = [] → exec (.cfgValUnpack key buf) s =
      .next { s with res := .raised (.decoding .shortBuffer (.field (.int .u8) none)) }) ∧
    (∀ b bs, size = 1 → buf = b :: bs → b.toNat ≤ 1 → exec (.cfgValUnpack key buf) s =
      .next { s with res := .unpacked (.int b.toNat) 1 }) ∧
    (∀ b bs, size = 1 → buf = b :: bs → 1 < b.toNat → ∃ v : Int, exec (.cfgValUnpack key buf) s =
      .next { s with res := .unpacked (.int v) 1, draws := s.draws + 1 }) ∧
    (2 ≤ size → size ≤ 5 → buf.length < kind.bytes → exec (.cfgValUnpack key buf) s =
      .next { s with res := .raised (.decoding .shortBuffer (.field (.int kind) none)) }) ∧
    (2 ≤ size → size ≤ 5 → kind.bytes ≤ buf.length → exec (.cfgValUnpack key buf) s =
      .next { s with
        res := .unpacked (.int (if s.params.signed key
          then twosComplement kind.bytes (littleEndianValue kind.bytes buf)
          else littleEndianValue kind.bytes buf)) kind.bytes })

/-- CFGITEM_UNPACK (42_config_item.md R207): ShortBuffer below four bytes, else the little-endian key and what
CFGVAL_UNPACK of that key makes of the bytes after it, with four more bytes consumed. That ShortBuffer records a U32
field is log 6. -/
def Obligations.CfgItemUnpackReadsKeyThenValue : Prop :=
  ∀ (buf : List Byte) (s : State),
    (buf.length < 4 → exec (.cfgItemUnpack buf) s =
      .next { s with res := .raised (.decoding .shortBuffer (.field (.int .u32) none)) }) ∧
    (4 ≤ buf.length →
      let key : Key := BitVec.ofNat 32 (littleEndianValue 4 buf)
      ∃ t, exec (.cfgValUnpack key (buf.drop 4)) s = .next t ∧
        exec (.cfgItemUnpack buf) s = .next { t with
          res :=
            match t.res with
          | .unpacked (.int v) c => .item key v (4 + c)
          | r => r })

/-- The round trip of a configuration item (42_config_item.md R206, R207, for what the rules give together): what
CFGITEM_PACK writes CFGITEM_UNPACK reads back, whatever follows it. -/
def Obligations.CfgItemPackThenUnpackGivesTheItem : Prop :=
  ∀ (key : Key) (v : Int) (bs rest : List Byte) (s : State),
    exec (.cfgItemPack key v) s = .next { s with res := .bytes bs } →
    exec (.cfgItemUnpack (bs ++ rest)) s = .next { s with res := .item key v bs.length }

/-! ## Identity and envelope -/

/-- IDENT_EQ (43_envelope.md R220). -/
def Obligations.IdentEqComparesBothParts : Prop :=
  ∀ (i j : Ident) (s : State),
    exec (.identEq i j) s = .next { s with res := .bool (decide (i.cls = j.cls ∧ i.id = j.id)) }

/-- ENV_LENGTH and ENV_TO_BYTES (43_envelope.md R221, R222, 30_encoding.md R80; D22): PayloadTooLong above 65535 bytes,
else the length, and the frame of R80 with the checksum in the closed form of 40_checksum.md R124. How the error records the length is log 6. -/
def Obligations.EnvelopeIsTheWireFrame : Prop :=
  ∀ (ident : Ident) (payload : List Byte) (s : State),
    (65535 < payload.length → ∀ i, i = .envLength payload ∨ i = .envToBytes ident payload → exec i s =
      .next { s with res := .raised (.decoding .payloadTooLong (.payloadLength payload.length)) }) ∧
    (payload.length ≤ 65535 →
      exec (.envLength payload) s = .next { s with res := .length (BitVec.ofNat 16 payload.length) } ∧
      exec (.envToBytes ident payload) s = .next { s with res := .bytes (wireFrame ident payload) } ∧
      (wireFrame ident payload).length = 8 + payload.length)

/-! ## The parser's input bytes -/

/-- Every (state, byte) pair matches exactly one row of the table, the decode selects it, and the byte step goes to the
row's next state (30_encoding.md R95, with the invariant of 10_state.md R25 that R95's PAYLOAD rows rest on). -/
def Obligations.EveryByteMatchesExactlyOneRow : Prop :=
  ∀ (c : Params) (p : Parser) (x : Byte), (p.st = .payload → p.cnt < p.len.toNat) →
    (∃! row, tableCondition c p x row) ∧ tableCondition c p x (selectRow c p x) ∧
    (byteStep c p x).st = tableNext (selectRow c p x)

/-- The rows of WAIT_SYNC1 (44_parser.md R240): 0xB5 goes on, any other byte changes nothing. -/
def Obligations.SyncSearchWaitsForB5 : Prop :=
  ∀ (x : Byte) (s : State), s.parser.st = .waitSync1 → s.parser.fault = none →
    exec .byteWaitSync1Sync s = .next { s with parser := { s.parser with st := .waitSync2 } } ∧
    (x ≠ 0xB5 → exec (.byteWaitSync1Other x) s = .next s)

/-- The rows of WAIT_SYNC2 (44_parser.md R241; where the frame's registers are cleared is D2). -/
def Obligations.SecondSyncByteStartsAFrame : Prop :=
  ∀ (x : Byte) (s : State), s.parser.st = .waitSync2 → s.parser.fault = none →
    exec .byteWaitSync2Sync s =
      .next { s with parser := { s.parser with pck := ⟨0, 0⟩, pbuf := [], cnt := 0, st := .class_ } } ∧
    (x ≠ 0x62 → exec (.byteWaitSync2Other x) s = .next { s with parser := { s.parser with st := .waitSync1 } })

/-- The rows of CLASS, ID and LEN_LO (44_parser.md R242, R243, R244): the byte is captured and fed to `pck`. -/
def Obligations.HeaderBytesAreCapturedAndSummed : Prop :=
  ∀ (x : Byte) (s : State), s.parser.fault = none →
    let pck : Acc := ⟨BitVec.ofNat 8 ((s.parser.pck.a.toNat + x.toNat) % 256),
      BitVec.ofNat 8 ((s.parser.pck.b.toNat + (s.parser.pck.a.toNat + x.toNat)) % 256)⟩
    (s.parser.st = .class_ → exec (.byteClassAny x) s =
      .next { s with parser := { s.parser with cls := x, pck := pck, st := .id } }) ∧
    (s.parser.st = .id → exec (.byteIdAny x) s =
      .next { s with parser := { s.parser with id := x, pck := pck, st := .lenLo } }) ∧
    (s.parser.st = .lenLo → exec (.byteLenLoAny x) s =
      .next { s with parser := { s.parser with lenLo := x, pck := pck, st := .lenHi } })

/-- The rows of LEN_HI (44_parser.md R245; that the bound itself is accepted is D3): zero, abandoned, or a payload. -/
def Obligations.LengthGuardAbandonsOversizedFrames : Prop :=
  ∀ (x : Byte) (s : State), s.parser.fault = none → s.parser.st = .lenHi →
    let pck : Acc := ⟨BitVec.ofNat 8 ((s.parser.pck.a.toNat + x.toNat) % 256),
      BitVec.ofNat 8 ((s.parser.pck.b.toNat + (s.parser.pck.a.toNat + x.toNat)) % 256)⟩
    let len : BitVec 16 := BitVec.ofNat 16 (wireLength s.parser.lenLo x)
    (wireLength s.parser.lenLo x = 0 → exec (.byteLenHiZero x) s =
      .next { s with parser := { s.parser with pck := pck, len := len, st := .crcA } }) ∧
    (s.params.maxMsgLen.val < wireLength s.parser.lenLo x → exec (.byteLenHiOversize x) s =
      .next { s with parser := { s.parser with
        pck := pck, len := len, diag := s.parser.diag ++ [.abandoned len], st := .waitSync1 } }) ∧
    (0 < wireLength s.parser.lenLo x → wireLength s.parser.lenLo x ≤ s.params.maxMsgLen.val →
      exec (.byteLenHiPayload x) s =
        .next { s with parser := { s.parser with pck := pck, len := len, cnt := 0, st := .payload } })

/-- The rows of PAYLOAD and CRC_A (44_parser.md R246, R247): a payload byte is appended, counted and fed to `pck`; the
first checksum byte is kept and not fed. -/
def Obligations.PayloadIsCapturedUpToLen : Prop :=
  ∀ (x : Byte) (s : State), s.parser.fault = none →
    let pck : Acc := ⟨BitVec.ofNat 8 ((s.parser.pck.a.toNat + x.toNat) % 256),
      BitVec.ofNat 8 ((s.parser.pck.b.toNat + (s.parser.pck.a.toNat + x.toNat)) % 256)⟩
    (s.parser.st = .payload → s.parser.cnt + 1 < s.parser.len.toNat → exec (.bytePayloadMore x) s =
      .next { s with parser := { s.parser with
        pbuf := s.parser.pbuf ++ [x], pck := pck, cnt := s.parser.cnt + 1, st := .payload } }) ∧
    (s.parser.st = .payload → s.parser.cnt + 1 = s.parser.len.toNat → exec (.bytePayloadLast x) s =
      .next { s with parser := { s.parser with
        pbuf := s.parser.pbuf ++ [x], pck := pck, cnt := s.parser.cnt + 1, st := .crcA } }) ∧
    (s.parser.st = .crcA → exec (.byteCrcAAny x) s =
      .next { s with parser := { s.parser with rxa := x, st := .crcB } })

/-- The rows of CRC_B (44_parser.md R248, 20_memory.md R64, 60_exceptions.md R303, R304, R306; the overflow is D4). With
room in the queue: the packet, the filter discard, the checksum-error entry. On a full queue: QueueOverflow with the entry
that did not fit, which is not added; the step completes. -/
def Obligations.LastByteVerifiesFiltersAndEnqueues : Prop :=
  ∀ (x : Byte) (s : State), s.parser.fault = none → s.parser.st = .crcB →
    let ident : Ident := ⟨s.parser.cls, s.parser.id⟩
    let agree : Prop := s.parser.rxa = s.parser.pck.a ∧ x = s.parser.pck.b
    (agree → ident ∈ s.parser.filt → hasRoom s.params s.parser.q.length → exec (.byteCrcBAccept x) s =
      .next { s with parser := { s.parser with
        q := s.parser.q ++ [.packet ident s.parser.pbuf], st := .waitSync1 } }) ∧
    (agree → ident ∉ s.parser.filt → exec (.byteCrcBFiltered x) s =
      .next { s with parser := { s.parser with
        diag := s.parser.diag ++ [.filtered ident], st := .waitSync1 } }) ∧
    (¬agree → hasRoom s.params s.parser.q.length → exec (.byteCrcBCrcError x) s =
      .next { s with parser := { s.parser with q := s.parser.q ++ [.crcError], st := .waitSync1 } }) ∧
    (∀ k, s.params.queueCapacity = some k → s.parser.q.length = k.entries →
      (agree → ident ∈ s.parser.filt → exec (.byteCrcBAccept x) s =
        .next { s with parser := { s.parser with
          fault := some (.queueOverflow (.packet ident s.parser.pbuf)), st := .waitSync1 } }) ∧
      (¬agree → exec (.byteCrcBCrcError x) s =
        .next { s with parser := { s.parser with fault := some (.queueOverflow .crcError), st := .waitSync1 } }))

/-- `fault` is sticky, and while it is set no byte step is enabled (10_state.md R32, 44_parser.md R249, 60_exceptions.md
R304, D4, D34; that the byte waits in `rx` is log 12): the rows stop, STEP and PROCESS change nothing but the waiting
bytes, every other command but RESET completes as it would without the fault, and only RESET clears it. -/
def Obligations.FaultStopsByteStepsUntilReset : Prop :=
  ∀ (s : State), s.parser.fault ≠ none →
    (∀ (row : ByteRow) (x : Byte), exec (row.instr x) s = .fault .producerStuck) ∧
    (∀ x : Byte, exec (.step x) s = .next { s with rx := s.rx ++ [x] }) ∧
    (∀ bs : List Byte, bs ≠ [] → exec (.process bs) s = .next { s with rx := s.rx ++ bs }) ∧
    (∀ (i : Instr) (t : State), i ≠ .reset → exec i s = .next t → t.parser.fault = s.parser.fault) ∧
    (∀ i : Instr, isCommand i = true → (∀ x, i ≠ .step x) → (∀ bs, i ≠ .process bs) → i ≠ .reset →
      ∃ t, exec i s = .next t ∧
        exec i { s with parser := { s.parser with fault := none } } =
          .next { t with parser := { t.parser with fault := none } }) ∧
    (∃ t, exec .reset s = .next t ∧ t.parser.fault = none)

/-! ## The parser's commands -/

/-- STEP performs the row its byte selects and returns (44_parser.md R249). -/
def Obligations.StepCommandPerformsTheSelectedRow : Prop :=
  ∀ (x : Byte) (s : State), s.parser.fault = none → s.rx = [] →
    ∃ t, exec ((selectRow s.params s.parser x).instr x) s = .next t ∧ exec (.step x) s = .next { t with res := .done }

/-- PROCESS is the STEPs of its bytes in order (44_parser.md R255, 30_encoding.md R98), in every state; only `res` may
differ, where the last STEPs are held back (log 12). -/
def Obligations.ProcessIsStepsInOrder : Prop :=
  ∀ (chunk : List Byte) (s : State), ∃ t u, exec (.process chunk) s = .next t ∧
    execAll (chunk.map .step) s = .next u ∧ t = { u with res := t.res } ∧
    (t.rx = [] → chunk ≠ [] → t = u)

/-- SET_FILTERS (44_parser.md R250; D23): the filter becomes the set of the listed identities; order and repeats do not
matter. -/
def Obligations.SetFiltersReplacesTheFilter : Prop :=
  ∀ (l : List Ident) (s : State), ∃ t, exec (.setFilters l) s = .next t ∧
    (∀ i, i ∈ t.parser.filt ↔ i ∈ l) ∧
    t = { s with parser := { s.parser with filt := t.parser.filt }, res := .done } ∧
    ∀ l' : List Ident, (∀ i, i ∈ l' ↔ i ∈ l) → exec (.setFilters l') s = .next t

/-- SET_FILTER (44_parser.md R251): the filter becomes the one identity, as SET_FILTERS of it. -/
def Obligations.SetFilterIsSetFiltersOfOne : Prop :=
  ∀ (i : Ident) (s : State),
    exec (.setFilter i) s = .next { s with parser := { s.parser with filt := [i] }, res := .done } ∧
    exec (.setFilter i) s = exec (.setFilters [i]) s

/-- RESTART, EMPTY_QUEUE and SET_FILTERS [] (44_parser.md R252, R254, 70_reset_and_hazards.md R342): each writes its one
element, and together they give the reset state of `st`, `q` and `filt` and leave `fault` and the rest. -/
def Obligations.RestartEmptyQueueAndEmptyFilter : Prop :=
  ∀ s : State,
    exec .restart s = .next { s with parser := { s.parser with st := .waitSync1 }, res := .done } ∧
    exec .emptyQueue s = .next { s with parser := { s.parser with q := [] }, res := .done } ∧
    execAll [.restart, .emptyQueue, .setFilters []] s =
      .next { s with parser := { s.parser with st := .waitSync1, q := [], filt := [] }, res := .done }

/-- PACKET (44_parser.md R253; D5, D32): the oldest entry, removed. -/
def Obligations.PacketReturnsTheOldestEntry : Prop :=
  ∀ s : State,
    (s.parser.q = [] → exec .packet s = .next { s with res := .noPacket }) ∧
    (∀ ident payload rest, s.parser.q = .packet ident payload :: rest → exec .packet s =
      .next { s with parser := { s.parser with q := rest }, res := .packet ident payload }) ∧
    (∀ rest, s.parser.q = .crcError :: rest → exec .packet s =
      .next { s with parser := { s.parser with q := rest }, res := .crcError })

/-- No entry is duplicated, reordered or dropped except by EMPTY_QUEUE and RESET (20_memory.md R64, 44_parser.md R248,
R253): a CRC_B row adds its own entry at the end or, on a full queue, records it in `fault`; STEP adds at most one entry
and PROCESS at most one a byte, each CrcError or a packet the filter holds; PACKET takes exactly the oldest; no other
operation touches the queue. That STEP and PROCESS are the rows of their bytes is StepCommandPerformsTheSelectedRow and
ProcessIsStepsInOrder. -/
def Obligations.QueueIsFirstInFirstOut : Prop :=
  ∀ (i : Instr) (s t : State), exec i s = .next t →
    let adds (e : Entry) : Prop := t.parser.q = s.parser.q ++ [e] ∨
      (t.parser.q = s.parser.q ∧ t.parser.fault = some (.queueOverflow e))
    let fed (bytes : Nat) : Prop := ∃ added, t.parser.q = s.parser.q ++ added ∧ added.length ≤ bytes ∧
      ∀ e ∈ added, e = .crcError ∨ ∃ ident payload, e = .packet ident payload ∧ ident ∈ s.parser.filt
    match i with
    | .byteCrcBAccept _ => adds (.packet ⟨s.parser.cls, s.parser.id⟩ s.parser.pbuf)
    | .byteCrcBCrcError _ => adds .crcError
    | .step _ => fed 1
    | .process chunk => fed chunk.length
    | .packet => t.parser.q = s.parser.q.tail
    | .emptyQueue | .reset => t.parser.q = []
    | _ => t.parser.q = s.parser.q

/-- RESET (70_reset_and_hazards.md R340, R341; D1, D4, D6, D7; what it does to the model's own fields and to codec objects
is log 11): every parser element at its reset value, every accumulator (0,0), every field set empty. -/
def Obligations.ResetGivesTheResetState : Prop :=
  ∀ s : State, ∃ t, exec .reset s = .next t ∧
    t.parser = {
      st := .waitSync1, cls := 0, id := 0, lenLo := 0, len := 0, cnt := 0, pbuf := [], rxa := 0
      pck := ⟨0, 0⟩, filt := [], q := [], fault := none, diag := [] } ∧
    (∀ n, t.acc n = ⟨0, 0⟩) ∧ (∀ n, t.fieldSet n = ⟨[], 0⟩) ∧
    t.params = s.params ∧ t.cmds = s.cmds ∧ t.draws = s.draws ∧ t.rx = [] ∧ t.res = .done

/-! ## Whole frames -/

/-- The serializer and the parser agree (43_envelope.md R225, derived there): a parser in WAIT_SYNC1 fed what ENV_TO_BYTES
returned queues exactly the packet when the filter holds the identity, and nothing otherwise, and is back in WAIT_SYNC1. -/
def Obligations.SerializedFrameIsReceived : Prop :=
  ∀ (ident : Ident) (payload : List Byte) (s : State), s.parser.st = .waitSync1 → s.parser.fault = none → s.rx = [] →
    payload.length ≤ s.params.maxMsgLen.val → hasRoom s.params s.parser.q.length →
    ∃ bs t, exec (.envToBytes ident payload) s = .next { s with res := .bytes bs } ∧ exec (.process bs) s = .next t ∧
      t.parser.st = .waitSync1 ∧ t.parser.fault = none ∧ t.parser.filt = s.parser.filt ∧ t.rx = [] ∧
      (ident ∈ s.parser.filt →
        t.parser.q = s.parser.q ++ [.packet ident payload] ∧ t.parser.diag = s.parser.diag) ∧
      (ident ∉ s.parser.filt →
        t.parser.q = s.parser.q ∧ t.parser.diag = s.parser.diag ++ [.filtered ident])

/-- An oversized frame is abandoned at its sixth byte (43_envelope.md R225, 44_parser.md R258, 60_exceptions.md R305,
derived there): nothing is queued, no error is recorded, the parser is back in WAIT_SYNC1. -/
def Obligations.OversizedFrameIsAbandonedAtItsSixthByte : Prop :=
  ∀ (ident : Ident) (payload : List Byte) (s : State), s.parser.st = .waitSync1 → s.parser.fault = none → s.rx = [] →
    s.params.maxMsgLen.val < payload.length → payload.length ≤ 65535 →
    ∃ bs t, exec (.envToBytes ident payload) s = .next { s with res := .bytes bs } ∧
      exec (.process (bs.take 6)) s = .next t ∧
      t.parser.st = .waitSync1 ∧ t.parser.fault = none ∧ t.parser.q = s.parser.q ∧ t.rx = [] ∧
      t.parser.diag = s.parser.diag ++ [.abandoned (BitVec.ofNat 16 payload.length)]

/-- Changing one byte of class, id, payload or checksum of a frame gives CrcError and no Packet, and the parser is back in
WAIT_SYNC1 at the frame's last byte (44_parser.md R257, derived there; the length and sync bytes are left out there). -/
def Obligations.CorruptedFrameGivesCrcError : Prop :=
  ∀ (ident : Ident) (payload : List Byte) (j : Nat) (y : Byte) (s : State),
    s.parser.st = .waitSync1 → s.parser.fault = none → s.rx = [] →
    payload.length ≤ s.params.maxMsgLen.val → hasRoom s.params s.parser.q.length →
    (j = 2 ∨ j = 3 ∨ (6 ≤ j ∧ j < 8 + payload.length)) → (wireFrame ident payload)[j]? ≠ some y →
    ∃ t, exec (.process ((wireFrame ident payload).set j y)) s = .next t ∧
      t.parser.st = .waitSync1 ∧ t.parser.fault = none ∧ t.rx = [] ∧ t.parser.q = s.parser.q ++ [.crcError]

/-- Resynchronisation (44_parser.md R256, derived there): from any state but WAIT_SYNC1 the parser is back in WAIT_SYNC1
within 7 + MAX_MSG_LEN bytes. The premise is the invariant EveryStepKeepsTheInvariant states. -/
def Obligations.ParserResynchronises : Prop :=
  ∀ (bs : List Byte) (s : State), State.Inv s → s.parser.st ≠ .waitSync1 → s.parser.fault = none → s.rx = [] →
    bs.length = 7 + s.params.maxMsgLen.val →
    ∃ n t, 1 ≤ n ∧ n ≤ 7 + s.params.maxMsgLen.val ∧ exec (.process (bs.take n)) s = .next t ∧
      t.parser.st = .waitSync1 ∧ t.rx = []

/-! ## Error codes -/

/-- The numeric codes of the causes (60_exceptions.md R301, R302; the spec's own numbering, D39), one for each cause. -/
def Obligations.ErrorCausesHaveTheirCodes : Prop :=
  ([.shortBuffer, .invalidEncoding, .outOfRange, .stringTooLong, .badSizeCode, .payloadTooLong] :
    List DecodingCause).map DecodingCause.code = [1, 2, 3, 4, 5, 6] ∧
  ([.duplicateName, .unknownName, .readOnlyField, .typeMismatch] : List FieldSetCause).map FieldSetCause.code =
    [1, 2, 3, 4] ∧
  (∀ c d : DecodingCause, c.code = d.code → c = d) ∧ ∀ c d : FieldSetCause, c.code = d.code → c = d
end

