-- ==== Sys2Proof/Laws/State.lean ====
section
/-! SUPPORT. Field by field, what each update of the state leaves, so that no proof unfolds a record update. -/

namespace Sys2Proof.Machine

open Sys2Proof

@[simp] theorem State.finish_params (s : State) (r : Result) : (s.finish r).params = s.params := rfl
@[simp] theorem State.finish_parser (s : State) (r : Result) : (s.finish r).parser = s.parser := rfl
@[simp] theorem State.finish_accs (s : State) (r : Result) : (s.finish r).accs = s.accs := rfl
@[simp] theorem State.finish_sets (s : State) (r : Result) : (s.finish r).sets = s.sets := rfl
@[simp] theorem State.finish_res (s : State) (r : Result) : (s.finish r).res = r := rfl
@[simp] theorem State.finish_draws (s : State) (r : Result) : (s.finish r).draws = s.draws := rfl
@[simp] theorem State.finish_rx (s : State) (r : Result) : (s.finish r).rx = s.rx := rfl
@[simp] theorem State.finish_cmds (s : State) (r : Result) : (s.finish r).cmds = s.cmds := rfl
@[simp] theorem State.finish_acc (s : State) (r : Result) (m : Nat) : (s.finish r).acc m = s.acc m := rfl
@[simp] theorem State.finish_fieldSet (s : State) (r : Result) (m : Nat) : (s.finish r).fieldSet m = s.fieldSet m := rfl

@[simp] theorem State.raise_params (s : State) (e : Error) : (s.raise e).params = s.params := rfl
@[simp] theorem State.raise_parser (s : State) (e : Error) : (s.raise e).parser = s.parser := rfl
@[simp] theorem State.raise_accs (s : State) (e : Error) : (s.raise e).accs = s.accs := rfl
@[simp] theorem State.raise_sets (s : State) (e : Error) : (s.raise e).sets = s.sets := rfl
@[simp] theorem State.raise_res (s : State) (e : Error) : (s.raise e).res = .raised e := rfl
@[simp] theorem State.raise_draws (s : State) (e : Error) : (s.raise e).draws = s.draws := rfl
@[simp] theorem State.raise_rx (s : State) (e : Error) : (s.raise e).rx = s.rx := rfl
@[simp] theorem State.raise_cmds (s : State) (e : Error) : (s.raise e).cmds = s.cmds := rfl
@[simp] theorem State.raise_acc (s : State) (e : Error) (m : Nat) : (s.raise e).acc m = s.acc m := rfl
@[simp] theorem State.raise_fieldSet (s : State) (e : Error) (m : Nat) : (s.raise e).fieldSet m = s.fieldSet m := rfl

@[simp] theorem State.withParser_params (s : State) (p : Parser) : (s.withParser p).params = s.params := rfl
@[simp] theorem State.withParser_parser (s : State) (p : Parser) : (s.withParser p).parser = p := rfl
@[simp] theorem State.withParser_accs (s : State) (p : Parser) : (s.withParser p).accs = s.accs := rfl
@[simp] theorem State.withParser_sets (s : State) (p : Parser) : (s.withParser p).sets = s.sets := rfl
@[simp] theorem State.withParser_res (s : State) (p : Parser) : (s.withParser p).res = s.res := rfl
@[simp] theorem State.withParser_draws (s : State) (p : Parser) : (s.withParser p).draws = s.draws := rfl
@[simp] theorem State.withParser_rx (s : State) (p : Parser) : (s.withParser p).rx = s.rx := rfl
@[simp] theorem State.withParser_cmds (s : State) (p : Parser) : (s.withParser p).cmds = s.cmds := rfl
@[simp] theorem State.withParser_acc (s : State) (p : Parser) (m : Nat) : (s.withParser p).acc m = s.acc m := rfl
@[simp] theorem State.withParser_fieldSet (s : State) (p : Parser) (m : Nat) : (s.withParser p).fieldSet m = s.fieldSet m := rfl

@[simp] theorem State.drew_params (s : State) (n : Nat) : (s.drew n).params = s.params := rfl
@[simp] theorem State.drew_parser (s : State) (n : Nat) : (s.drew n).parser = s.parser := rfl
@[simp] theorem State.drew_accs (s : State) (n : Nat) : (s.drew n).accs = s.accs := rfl
@[simp] theorem State.drew_sets (s : State) (n : Nat) : (s.drew n).sets = s.sets := rfl
@[simp] theorem State.drew_res (s : State) (n : Nat) : (s.drew n).res = s.res := rfl
@[simp] theorem State.drew_draws (s : State) (n : Nat) : (s.drew n).draws = s.draws + n := rfl
@[simp] theorem State.drew_rx (s : State) (n : Nat) : (s.drew n).rx = s.rx := rfl
@[simp] theorem State.drew_cmds (s : State) (n : Nat) : (s.drew n).cmds = s.cmds := rfl
@[simp] theorem State.drew_acc (s : State) (n : Nat) (m : Nat) : (s.drew n).acc m = s.acc m := rfl
@[simp] theorem State.drew_fieldSet (s : State) (n : Nat) (m : Nat) : (s.drew n).fieldSet m = s.fieldSet m := rfl

@[simp] theorem State.setAcc_params (s : State) (n : Nat) (v : Acc) : (s.setAcc n v).params = s.params := rfl
@[simp] theorem State.setAcc_parser (s : State) (n : Nat) (v : Acc) : (s.setAcc n v).parser = s.parser := rfl
@[simp] theorem State.setAcc_accs (s : State) (n : Nat) (v : Acc) : (s.setAcc n v).accs = if v = Acc.zero then bankDrop n s.accs else bankPut n v s.accs := rfl
@[simp] theorem State.setAcc_sets (s : State) (n : Nat) (v : Acc) : (s.setAcc n v).sets = s.sets := rfl
@[simp] theorem State.setAcc_res (s : State) (n : Nat) (v : Acc) : (s.setAcc n v).res = s.res := rfl
@[simp] theorem State.setAcc_draws (s : State) (n : Nat) (v : Acc) : (s.setAcc n v).draws = s.draws := rfl
@[simp] theorem State.setAcc_rx (s : State) (n : Nat) (v : Acc) : (s.setAcc n v).rx = s.rx := rfl
@[simp] theorem State.setAcc_cmds (s : State) (n : Nat) (v : Acc) : (s.setAcc n v).cmds = s.cmds := rfl
@[simp] theorem State.setAcc_fieldSet (s : State) (n : Nat) (v : Acc) (m : Nat) : (s.setAcc n v).fieldSet m = s.fieldSet m := rfl

@[simp] theorem State.setFieldSet_params (s : State) (n : Nat) (fs : FieldSet) : (s.setFieldSet n fs).params = s.params := rfl
@[simp] theorem State.setFieldSet_parser (s : State) (n : Nat) (fs : FieldSet) : (s.setFieldSet n fs).parser = s.parser := rfl
@[simp] theorem State.setFieldSet_accs (s : State) (n : Nat) (fs : FieldSet) : (s.setFieldSet n fs).accs = s.accs := rfl
@[simp] theorem State.setFieldSet_sets (s : State) (n : Nat) (fs : FieldSet) : (s.setFieldSet n fs).sets = bankPut n fs s.sets := rfl
@[simp] theorem State.setFieldSet_res (s : State) (n : Nat) (fs : FieldSet) : (s.setFieldSet n fs).res = s.res := rfl
@[simp] theorem State.setFieldSet_draws (s : State) (n : Nat) (fs : FieldSet) : (s.setFieldSet n fs).draws = s.draws := rfl
@[simp] theorem State.setFieldSet_rx (s : State) (n : Nat) (fs : FieldSet) : (s.setFieldSet n fs).rx = s.rx := rfl
@[simp] theorem State.setFieldSet_cmds (s : State) (n : Nat) (fs : FieldSet) : (s.setFieldSet n fs).cmds = s.cmds := rfl
@[simp] theorem State.setFieldSet_acc (s : State) (n : Nat) (fs : FieldSet) (m : Nat) : (s.setFieldSet n fs).acc m = s.acc m := rfl

@[simp] theorem Parser.dequeue_st (p : Parser) : (p.dequeue).st = p.st := rfl
@[simp] theorem Parser.dequeue_cls (p : Parser) : (p.dequeue).cls = p.cls := rfl
@[simp] theorem Parser.dequeue_id (p : Parser) : (p.dequeue).id = p.id := rfl
@[simp] theorem Parser.dequeue_lenLo (p : Parser) : (p.dequeue).lenLo = p.lenLo := rfl
@[simp] theorem Parser.dequeue_len (p : Parser) : (p.dequeue).len = p.len := rfl
@[simp] theorem Parser.dequeue_cnt (p : Parser) : (p.dequeue).cnt = p.cnt := rfl
@[simp] theorem Parser.dequeue_pbuf (p : Parser) : (p.dequeue).pbuf = p.pbuf := rfl
@[simp] theorem Parser.dequeue_rxa (p : Parser) : (p.dequeue).rxa = p.rxa := rfl
@[simp] theorem Parser.dequeue_pck (p : Parser) : (p.dequeue).pck = p.pck := rfl
@[simp] theorem Parser.dequeue_filt (p : Parser) : (p.dequeue).filt = p.filt := rfl
@[simp] theorem Parser.dequeue_q (p : Parser) : (p.dequeue).q = p.q.tail := rfl
@[simp] theorem Parser.dequeue_fault (p : Parser) : (p.dequeue).fault = p.fault := rfl
@[simp] theorem Parser.dequeue_diag (p : Parser) : (p.dequeue).diag = p.diag := rfl

@[simp] theorem Parser.clear_st (p : Parser) : (p.clear).st = p.st := rfl
@[simp] theorem Parser.clear_cls (p : Parser) : (p.clear).cls = p.cls := rfl
@[simp] theorem Parser.clear_id (p : Parser) : (p.clear).id = p.id := rfl
@[simp] theorem Parser.clear_lenLo (p : Parser) : (p.clear).lenLo = p.lenLo := rfl
@[simp] theorem Parser.clear_len (p : Parser) : (p.clear).len = p.len := rfl
@[simp] theorem Parser.clear_cnt (p : Parser) : (p.clear).cnt = p.cnt := rfl
@[simp] theorem Parser.clear_pbuf (p : Parser) : (p.clear).pbuf = p.pbuf := rfl
@[simp] theorem Parser.clear_rxa (p : Parser) : (p.clear).rxa = p.rxa := rfl
@[simp] theorem Parser.clear_pck (p : Parser) : (p.clear).pck = p.pck := rfl
@[simp] theorem Parser.clear_filt (p : Parser) : (p.clear).filt = p.filt := rfl
@[simp] theorem Parser.clear_q (p : Parser) : (p.clear).q = [] := rfl
@[simp] theorem Parser.clear_fault (p : Parser) : (p.clear).fault = p.fault := rfl
@[simp] theorem Parser.clear_diag (p : Parser) : (p.clear).diag = p.diag := rfl

@[simp] theorem Parser.note_st (p : Parser) (e : DiagEvent) : (p.note e).st = p.st := rfl
@[simp] theorem Parser.note_cls (p : Parser) (e : DiagEvent) : (p.note e).cls = p.cls := rfl
@[simp] theorem Parser.note_id (p : Parser) (e : DiagEvent) : (p.note e).id = p.id := rfl
@[simp] theorem Parser.note_lenLo (p : Parser) (e : DiagEvent) : (p.note e).lenLo = p.lenLo := rfl
@[simp] theorem Parser.note_len (p : Parser) (e : DiagEvent) : (p.note e).len = p.len := rfl
@[simp] theorem Parser.note_cnt (p : Parser) (e : DiagEvent) : (p.note e).cnt = p.cnt := rfl
@[simp] theorem Parser.note_pbuf (p : Parser) (e : DiagEvent) : (p.note e).pbuf = p.pbuf := rfl
@[simp] theorem Parser.note_rxa (p : Parser) (e : DiagEvent) : (p.note e).rxa = p.rxa := rfl
@[simp] theorem Parser.note_pck (p : Parser) (e : DiagEvent) : (p.note e).pck = p.pck := rfl
@[simp] theorem Parser.note_filt (p : Parser) (e : DiagEvent) : (p.note e).filt = p.filt := rfl
@[simp] theorem Parser.note_q (p : Parser) (e : DiagEvent) : (p.note e).q = p.q := rfl
@[simp] theorem Parser.note_fault (p : Parser) (e : DiagEvent) : (p.note e).fault = p.fault := rfl
@[simp] theorem Parser.note_diag (p : Parser) (e : DiagEvent) : (p.note e).diag = p.diag ++ [e] := rfl

@[simp] theorem Parser.enqueue_st (c : Params) (p : Parser) (e : Entry) : (p.enqueue c e).st = p.st := by
  unfold Parser.enqueue; split <;> rfl
@[simp] theorem Parser.enqueue_cls (c : Params) (p : Parser) (e : Entry) : (p.enqueue c e).cls = p.cls := by
  unfold Parser.enqueue; split <;> rfl
@[simp] theorem Parser.enqueue_id (c : Params) (p : Parser) (e : Entry) : (p.enqueue c e).id = p.id := by
  unfold Parser.enqueue; split <;> rfl
@[simp] theorem Parser.enqueue_lenLo (c : Params) (p : Parser) (e : Entry) : (p.enqueue c e).lenLo = p.lenLo := by
  unfold Parser.enqueue; split <;> rfl
@[simp] theorem Parser.enqueue_len (c : Params) (p : Parser) (e : Entry) : (p.enqueue c e).len = p.len := by
  unfold Parser.enqueue; split <;> rfl
@[simp] theorem Parser.enqueue_cnt (c : Params) (p : Parser) (e : Entry) : (p.enqueue c e).cnt = p.cnt := by
  unfold Parser.enqueue; split <;> rfl
@[simp] theorem Parser.enqueue_pbuf (c : Params) (p : Parser) (e : Entry) : (p.enqueue c e).pbuf = p.pbuf := by
  unfold Parser.enqueue; split <;> rfl
@[simp] theorem Parser.enqueue_rxa (c : Params) (p : Parser) (e : Entry) : (p.enqueue c e).rxa = p.rxa := by
  unfold Parser.enqueue; split <;> rfl
@[simp] theorem Parser.enqueue_pck (c : Params) (p : Parser) (e : Entry) : (p.enqueue c e).pck = p.pck := by
  unfold Parser.enqueue; split <;> rfl
@[simp] theorem Parser.enqueue_filt (c : Params) (p : Parser) (e : Entry) : (p.enqueue c e).filt = p.filt := by
  unfold Parser.enqueue; split <;> rfl
@[simp] theorem Parser.enqueue_diag (c : Params) (p : Parser) (e : Entry) : (p.enqueue c e).diag = p.diag := by
  unfold Parser.enqueue; split <;> rfl

theorem Parser.enqueue_of_full {c : Params} {p : Parser} {e : Entry} (h : queueFull c p.q.length = true) :
    p.enqueue c e = { p with fault := some (.queueOverflow e) } := by
  simp [Parser.enqueue, h]

theorem Parser.enqueue_of_room {c : Params} {p : Parser} {e : Entry} (h : queueFull c p.q.length = false) :
    p.enqueue c e = { p with q := p.q ++ [e] } := by
  simp [Parser.enqueue, h]

@[simp] theorem State.finish_finish (s : State) (r r' : Result) : (s.finish r).finish r' = s.finish r' := rfl

@[simp] theorem State.withParser_withParser (s : State) (p p' : Parser) :
    (s.withParser p).withParser p' = s.withParser p' := rfl

@[simp] theorem State.withParser_self (s : State) : s.withParser s.parser = s := rfl

end Sys2Proof.Machine
end

