-- ==== Sys2Proof/Laws/Bank.lean ====
section
/-! SUPPORT. Objects by number: reading after writing, and that writing keeps the listed form. -/

namespace Sys2Proof.Machine

open Sys2Proof

variable {α : Type}

@[simp] theorem bankGet_bankPut_self (d : α) (n : Nat) (v : α) (l : List (Nat × α)) :
    bankGet d n (bankPut n v l) = v := by
  induction l with
  | nil => simp [bankPut, bankGet]
  | cons e l ih =>
    unfold bankPut
    split_ifs with h1 h2
    · simp [bankGet]
    · simp [bankGet]
    · simp [bankGet, Ne.symm h2, ih]

theorem bankGet_bankPut_of_ne (d : α) {n m : Nat} (h : m ≠ n) (v : α) (l : List (Nat × α)) :
    bankGet d m (bankPut n v l) = bankGet d m l := by
  induction l with
  | nil => simp [bankPut, bankGet, Ne.symm h]
  | cons e l ih =>
    unfold bankPut
    split_ifs with h1 h2
    · simp [bankGet, Ne.symm h]
    · subst h2; simp [bankGet, Ne.symm h]
    · simp [bankGet, ih]

theorem bankGet_bankDrop (d : α) (n m : Nat) (l : List (Nat × α)) :
    bankGet d m (bankDrop n l) = if m = n then d else bankGet d m l := by
  induction l with
  | nil => simp [bankDrop, bankGet]
  | cons e l ih =>
    unfold bankDrop at ih ⊢
    by_cases he : e.1 = n
    · by_cases hm : m = n
      · simpa [he, hm] using by simpa [hm] using ih
      · rw [List.filter_cons_of_neg (by simp [he]), ih]
        simp [bankGet, hm, he, Ne.symm hm]
    · rw [List.filter_cons_of_pos (by simp [he])]
      by_cases hm : m = n
      · subst hm; simp [bankGet, he, ih]
      · simp [bankGet, hm, ih]

theorem bankGet_eq_of_ne_fresh (d : α) (l : List (Nat × α)) : bankGet d (bankFresh l) l = d := by
  suffices h : ∀ n, bankFresh l ≤ n → bankGet d n l = d from h _ le_rfl
  induction l with
  | nil => intro n _; rfl
  | cons e l ih =>
    intro n hn
    simp only [bankFresh] at hn
    have : e.1 ≠ n := by omega
    simp [bankGet, this, ih n (by omega)]

theorem fst_lt_bankFresh {l : List (Nat × α)} {e : Nat × α} (h : e ∈ l) : e.1 < bankFresh l := by
  induction l with
  | nil => simp at h
  | cons f l ih =>
    simp only [bankFresh]
    rcases List.mem_cons.1 h with rfl | h
    · omega
    · have := ih h; omega

theorem mem_bankPut {n : Nat} {v : α} {l : List (Nat × α)} {e : Nat × α} (h : e ∈ bankPut n v l) :
    e = (n, v) ∨ e ∈ l := by
  induction l with
  | nil => simpa [bankPut] using h
  | cons f l ih =>
    unfold bankPut at h
    split_ifs at h
    · simpa using h
    · rcases List.mem_cons.1 h with h | h
      · exact .inl h
      · exact .inr (List.mem_cons_of_mem _ h)
    · rcases List.mem_cons.1 h with h | h
      · exact .inr (h ▸ List.mem_cons_self)
      · exact (ih h).imp id (List.mem_cons_of_mem _)

theorem numbersRise_bankPut (n : Nat) (v : α) {l : List (Nat × α)} (h : numbersRise l) :
    numbersRise (bankPut n v l) := by
  unfold numbersRise at *
  induction l with
  | nil => simp [bankPut]
  | cons e l ih =>
    rw [List.pairwise_cons] at h
    unfold bankPut
    split_ifs with h1 h2
    · refine List.pairwise_cons.2 ⟨fun f hf => ?_, List.pairwise_cons.2 h⟩
      rcases List.mem_cons.1 hf with rfl | hf
      · exact h1
      · exact h1.trans (h.1 f hf)
    · subst h2; exact List.pairwise_cons.2 h
    · refine List.pairwise_cons.2 ⟨fun f hf => ?_, ih h.2⟩
      rcases mem_bankPut hf with rfl | hf
      · show e.1 < n; omega
      · exact h.1 f hf

theorem numbersRise_bankDrop (n : Nat) {l : List (Nat × α)} (h : numbersRise l) : numbersRise (bankDrop n l) :=
  List.Pairwise.filter _ h

/-- Reading an accumulator after writing one. -/
theorem State.acc_setAcc (s : State) (n m : Nat) (v : Acc) :
    (s.setAcc n v).acc m = if m = n then v else s.acc m := by
  by_cases hv : v = Acc.zero
  · simp [State.acc, hv, bankGet_bankDrop]
  · by_cases hm : m = n
    · simp [State.acc, hv, hm]
    · simp [State.acc, hv, hm, bankGet_bankPut_of_ne]

/-- Reading a field set after writing one. -/
theorem State.fieldSet_setFieldSet (s : State) (n m : Nat) (fs : FieldSet) :
    (s.setFieldSet n fs).fieldSet m = if m = n then fs else s.fieldSet m := by
  by_cases hm : m = n
  · simp [State.fieldSet, hm]
  · simp [State.fieldSet, hm, bankGet_bankPut_of_ne]

/-- An invariant of the listed objects holds of every object that reads, where it holds of the unlisted one. -/
theorem bankGet_forall {P : α → Prop} {d : α} {l : List (Nat × α)} (hd : P d) (h : ∀ e ∈ l, P e.2) (n : Nat) :
    P (bankGet d n l) := by
  induction l with
  | nil => exact hd
  | cons e l ih =>
    unfold bankGet
    split_ifs
    · exact h e List.mem_cons_self
    · exact ih (fun f hf => h f (List.mem_cons_of_mem _ hf))

end Sys2Proof.Machine
end

