-- ==== Sys2Proof/Laws/Ops.lean ====
section
/-! SUPPORT. What the shared operations can do, said once. -/

namespace Sys2Proof.Machine

open Sys2Proof

@[simp] theorem answer_ok (s : State) (r : Result) : answer s (.ok r) = .next (s.finish r) := rfl

@[simp] theorem answer_error (s : State) (e : Error) : answer s (.error e) = .next (s.raise e) := rfl

/-- Ending a command writes the result and nothing else. -/
theorem answer_cases {s t : State} {r : Except Error Result} (h : answer s r = .next t) :
    ∃ r', t = s.finish r' := by
  cases r with
  | ok r => exact ⟨r, by simpa using h.symm⟩
  | error e => exact ⟨.raised e, by simpa [State.finish, State.raise] using h.symm⟩

/-- A row that answers a next state was enabled and selected, and performed its action. -/
theorem byteTurn_cases {row : ByteRow} {x : Byte} {act : Params → Parser → Byte → Parser} {s t : State}
    (h : byteTurn row x act s = .next t) :
    s.parser.fault = none ∧ rowSelected s.params s.parser x row = true ∧
      t = s.withParser (act s.params s.parser x) := by
  unfold byteTurn at h
  split at h
  · cases h
  · split at h
    · next hf hs => exact ⟨hf, hs, by simpa using h.symm⟩
    · cases h

theorem byteTurn_of_selected {row : ByteRow} {x : Byte} {act : Params → Parser → Byte → Parser} {s : State}
    (hf : s.parser.fault = none) (hs : rowSelected s.params s.parser x row = true) :
    byteTurn row x act s = .next (s.withParser (act s.params s.parser x)) := by
  simp [byteTurn, hf, hs]

theorem byteTurn_of_fault {row : ByteRow} {x : Byte} {act : Params → Parser → Byte → Parser} {s : State}
    {f : ModelFault} (hf : s.parser.fault = some f) : byteTurn row x act s = .fault .producerStuck := by
  simp [byteTurn, hf]

/-- FS_UNPACK into a field set writes that field set, the draws and the result, and nothing else. -/
theorem unpackInto_cases {n start : Nat} {buf : List Byte} {s t : State} (h : unpackInto n buf start s = .next t) :
    ∃ fs k r, t = ((s.setFieldSet n fs).drew k).finish r := by
  unfold unpackInto at h
  split at h
  · exact ⟨_, 0, .rest _, by simpa [State.drew, State.finish] using h.symm⟩
  · exact ⟨_, _, .raised _, by simpa [State.finish, State.raise] using h.symm⟩

/-- FS_PACK of a field set writes the result and nothing else. -/
theorem packOut_cases {n : Nat} {s t : State} (h : packOut n s = .next t) : ∃ r, t = s.finish r := by
  unfold packOut at h
  split at h <;> exact answer_cases h

end Sys2Proof.Machine
end

