-- ==== Sys2Proof/Laws/ByteOrder.lean ====
section
/-! SUPPORT. Byte order and two's complement: the little-endian helpers undo each other. -/

namespace Sys2Proof

@[simp] theorem length_leBytes (k u : Nat) : (leBytes k u).length = k := by
  induction k generalizing u with
  | zero => rfl
  | succ k ih => simp [leBytes, ih]

theorem fromLE_leBytes (k u : Nat) : fromLE (leBytes k u) = u % 256 ^ k := by
  induction k generalizing u with
  | zero => simp [leBytes, fromLE, Nat.mod_one]
  | succ k ih =>
    simp only [leBytes, fromLE, BitVec.toNat_ofNat, ih]
    rw [pow_succ' 256 k, Nat.mod_mul]

theorem fromLE_lt (bs : List Byte) : fromLE bs < 256 ^ bs.length := by
  induction bs with
  | nil => simp [fromLE]
  | cons b bs ih =>
    have hb : b.toNat < 256 := b.isLt
    simp only [fromLE, List.length_cons, pow_succ']
    omega

theorem leBytes_fromLE (bs : List Byte) : leBytes bs.length (fromLE bs) = bs := by
  induction bs with
  | nil => rfl
  | cons b bs ih =>
    have hb : b.toNat < 256 := b.isLt
    simp only [List.length_cons, leBytes, fromLE]
    have h1 : (b.toNat + 256 * fromLE bs) / 256 = fromLE bs := by omega
    rw [h1, ih]
    congr 1
    apply BitVec.eq_of_toNat_eq
    simp only [BitVec.toNat_ofNat]
    omega

/-- Byte i of `LE_k(u)` is bits 8i+7:8i of u (41_field_codec.md R141). -/
theorem getElem_leBytes (k u i : Nat) (h : i < (leBytes k u).length) :
    ((leBytes k u)[i]).toNat = u / 256 ^ i % 256 := by
  induction k generalizing u i with
  | zero => simp [leBytes] at h
  | succ k ih =>
    cases i with
    | zero => simp [leBytes]
    | succ i =>
      simp only [leBytes, List.getElem_cons_succ]
      rw [ih, pow_succ', Nat.div_div_eq_div_mul]

namespace Machine

theorem intFits_iff (k : IntKind) (v : Int) : intFits k v = true ↔ k.lo ≤ v ∧ v ≤ k.hi := by
  simp [intFits]

/-- Reading the pattern of a value in range gives the value back (41_field_codec.md R166). -/
theorem read_pattern {k : IntKind} {v : Int} (h : intFits k v = true) :
    k.read (v % ((2 ^ (8 * k.bytes) : Nat) : Int)).toNat = v := by
  rw [intFits_iff] at h
  cases k <;> simp [IntKind.lo, IntKind.hi, IntKind.read, IntKind.signed, IntKind.bytes, signedOf] at h ⊢
  all_goals omega

/-- The spec's `LE_k(u)` (41_field_codec.md R141) is the model's. -/
theorem littleEndian_eq (k u : Nat) : littleEndian k u = leBytes k u := by
  apply List.ext_getElem
  · simp [littleEndian]
  · intro i h1 h2
    apply BitVec.eq_of_toNat_eq
    rw [getElem_leBytes]
    simp [littleEndian, pow_mul]

/-- The spec's `FromLE_k(s)` (41_field_codec.md R141) is the model's, over the first k bytes. -/
theorem fromLE_take (k : Nat) (buf : List Byte) (h : k ≤ buf.length) :
    fromLE (buf.take k) = littleEndianValue k buf := by
  induction k generalizing buf with
  | zero => simp [fromLE, littleEndianValue]
  | succ k ih =>
    cases buf with
    | nil => simp at h
    | cons b bs =>
      simp only [List.take_succ_cons, fromLE]
      rw [ih bs (by simpa using h)]
      simp only [littleEndianValue, List.range_succ_eq_map, List.map_cons, List.sum_cons, List.map_map, Nat.mul_zero,
        List.getD_cons_zero, Nat.shiftLeft_zero]
      congr 1
      rw [← List.sum_map_mul_left]
      congr 1
      apply List.map_congr_left
      intro i _
      simp [Nat.shiftLeft_eq, Nat.mul_add, pow_add]
      ring

/-- The pattern of a value, as a number, fits the width. -/
theorem pattern_lt (k : IntKind) (v : Int) : (v % ((2 ^ (8 * k.bytes) : Nat) : Int)).toNat < 256 ^ k.bytes := by
  have h : (256 : Nat) ^ k.bytes = 2 ^ (8 * k.bytes) := by rw [pow_mul]; rfl
  rw [h]
  have h1 := Int.emod_lt_of_pos v (show (0 : Int) < ((2 ^ (8 * k.bytes) : Nat) : Int) by positivity)
  have h2 := Int.emod_nonneg v (show ((2 ^ (8 * k.bytes) : Nat) : Int) ≠ 0 by positivity)
  omega

end Machine

end Sys2Proof
end

