-- ==== Sys2Proof/Laws/Checksum.lean ====
section
/-! SUPPORT. The checksum step over byte sequences (40_checksum.md R120). -/

namespace Sys2Proof.Machine

open Sys2Proof

/-- The step over numbers. -/
theorem Acc.add_eq (acc : Acc) (x : Byte) : acc.add x = ⟨BitVec.ofNat 8 ((acc.a.toNat + x.toNat) % 256),
    BitVec.ofNat 8 ((acc.b.toNat + (acc.a.toNat + x.toNat)) % 256)⟩ := by
  unfold Acc.add
  congr 1 <;> apply BitVec.eq_of_toNat_eq <;> simp

theorem Acc.addAll_append (acc : Acc) (as bs : List Byte) : acc.addAll (as ++ bs) = (acc.addAll as).addAll bs := by
  simp [Acc.addAll]

/-- Both counters after a byte sequence, from any start. -/
theorem Acc.addAll_closed (bs : List Byte) (acc : Acc) :
    (acc.addAll bs).a.toNat = (acc.a.toNat + (bs.map BitVec.toNat).sum) % 256 ∧
    (acc.addAll bs).b.toNat = (acc.b.toNat + bs.length * acc.a.toNat +
      ((List.range bs.length).map (fun i => (bs.length - i) * (bs.getD i 0).toNat)).sum) % 256 := by
  induction bs generalizing acc with
  | nil => simp [Acc.addAll, Nat.mod_eq_of_lt acc.a.isLt, Nat.mod_eq_of_lt acc.b.isLt]
  | cons x bs ih =>
    have h := ih (acc.add x)
    simp only [Acc.addAll, List.foldl_cons] at h ⊢
    refine ⟨?_, ?_⟩
    · rw [h.1]; simp [Acc.add]; omega
    · rw [h.2]
      simp only [List.length_cons, List.range_succ_eq_map, List.map_cons, List.sum_cons, List.map_map, Nat.sub_zero,
        List.getD_cons_zero]
      have e : ((fun i => (bs.length + 1 - i) * ((x :: bs).getD i 0).toNat) ∘ Nat.succ) =
          (fun i => (bs.length - i) * (bs.getD i 0).toNat) := by
        funext i; simp
      rw [e]
      simp only [Acc.add, BitVec.toNat_add, Nat.reducePow]
      generalize ((List.range bs.length).map (fun i => (bs.length - i) * (bs.getD i 0).toNat)).sum = S
      have h1 : ∀ n q : Nat, n * (q % 256) % 256 = n * q % 256 := fun n q => by simp [Nat.mul_mod]
      have h2 := h1 bs.length (acc.a.toNat + x.toNat)
      have h3 : bs.length * (acc.a.toNat + x.toNat) = bs.length * acc.a.toNat + bs.length * x.toNat := by ring
      have h4 : (bs.length + 1) * acc.a.toNat = bs.length * acc.a.toNat + acc.a.toNat := by ring
      have h5 : (bs.length + 1) * x.toNat = bs.length * x.toNat + x.toNat := by ring
      omega

theorem sum_toNat_set (l : List Byte) (j : Nat) (y : Byte) (hj : j < l.length) :
    ((l.set j y).map BitVec.toNat).sum + l[j].toNat = (l.map BitVec.toNat).sum + y.toNat := by
  induction l generalizing j with
  | nil => simp at hj
  | cons a l ih =>
    cases j with
    | zero => simp; omega
    | succ j =>
      have h := ih j (by simpa using hj)
      simp only [List.set_cons_succ, List.map_cons, List.sum_cons, List.getElem_cons_succ]
      omega

/-- Changing one byte changes `a` (40_checksum.md R125). -/
theorem Acc.addAll_set_ne (l : List Byte) (j : Nat) (y : Byte) (hj : j < l.length) (h : y ≠ l[j]) (acc : Acc) :
    (acc.addAll (l.set j y)).a ≠ (acc.addAll l).a := by
  intro e
  have h1 := (Acc.addAll_closed (l.set j y) acc).1
  have h2 := (Acc.addAll_closed l acc).1
  rw [e, h2] at h1
  have h3 := sum_toNat_set l j y hj
  have h4 := y.isLt
  have h5 := l[j].isLt
  exact h (BitVec.eq_of_toNat_eq (by omega))

end Sys2Proof.Machine
end

