-- ==== Sys2Proof/Laws/Codec.lean ====
section
/-! SUPPORT. Packing and unpacking fields and field sets: what each can answer. -/

namespace Sys2Proof.Machine

open Sys2Proof

/-! ## One field -/

theorem packInt_eq (k : IntKind) (v : Int) : packInt k v =
    if k.lo ≤ v ∧ v ≤ k.hi then .ok (littleEndian k.bytes (v % 2 ^ (8 * k.bytes)).toNat) else .error .outOfRange := by
  unfold packInt
  rw [littleEndian_eq]
  simp only [intFits_iff]
  push_cast
  rfl

theorem unpackInt_eq (k : IntKind) (buf : List Byte) : unpackInt k buf =
    if buf.length < k.bytes then .error .shortBuffer
    else .ok (if k.signed then twosComplement k.bytes (littleEndianValue k.bytes buf)
      else littleEndianValue k.bytes buf) := by
  unfold unpackInt
  by_cases h : buf.length < k.bytes
  · simp [h]
  · cases hs : k.signed <;>
      simp [IntKind.read, signedOf, twosComplement, hs, h, fromLE_take _ _ (not_lt.1 h)]

/-- What stripping the zeros at the end leaves (41_field_codec.md R164). -/
theorem stripZeros_spec (bs : List Byte) :
    ∃ k, bs = stripZeros bs ++ List.replicate k 0 ∧ (stripZeros bs).getLast? ≠ some 0 := by
  refine ⟨(bs.reverse.takeWhile (· == 0)).length, ?_, ?_⟩
  · have h1 := List.takeWhile_append_dropWhile (p := (· == (0 : Byte))) (l := bs.reverse)
    have h2 : bs.reverse.takeWhile (· == 0) = List.replicate (bs.reverse.takeWhile (· == 0)).length 0 := by
      rw [List.eq_replicate_iff]
      exact ⟨rfl, fun b hb => by simpa using List.mem_takeWhile_imp hb⟩
    have h3 := congrArg List.reverse h1
    rw [List.reverse_append, List.reverse_reverse, h2, List.reverse_replicate] at h3
    exact h3.symm
  · unfold stripZeros
    rw [List.getLast?_reverse]
    intro h
    have h2 := List.head?_dropWhile_not (· == (0 : Byte)) bs.reverse
    rw [h] at h2
    simp at h2

/-- A field packs into exactly its size (41_field_codec.md R140). -/
theorem length_packBody {b : Body} {bs : List Byte} (h : packBody b = .ok bs) : bs.length = b.kind.size := by
  cases b with
  | int k v =>
    simp only [packBody, packInt] at h
    split at h <;> simp at h
    subst h; simp [Body.kind, Kind.size]
  | ch n t =>
    simp only [packBody, packChars] at h
    split_ifs at h with h1 h2
    simp at h; subst h; simp [Body.kind, Kind.size]; omega
  | pad n v => simp [packBody, packZeros] at h; subst h; simp [Body.kind, Kind.size]

theorem kind_unpackBody {b b' : Body} {buf : List Byte} (h : unpackBody b buf = .ok b') : b'.kind = b.kind := by
  cases b <;> simp only [unpackBody] at h <;> split at h <;> simp at h <;> subst h <;> rfl

/-- The decoded descriptor is what its kind reads from the buffer, whatever value it held. -/
theorem unpackBody_idem {b b' : Body} {buf : List Byte} (h : unpackBody b buf = .ok b') :
    unpackBody b' buf = .ok b' := by
  cases b <;> simp only [unpackBody] at h <;> split at h <;> simp at h <;> subst h <;> simp [unpackBody, *]

theorem size_le_of_unpackBody {b b' : Body} {buf : List Byte} (h : unpackBody b buf = .ok b') :
    b.kind.size ≤ buf.length := by
  cases b <;> simp only [unpackBody, unpackInt, unpackChars, unpackZeros] at h <;> split at h <;> simp at h <;>
    rename_i h2 <;> split_ifs at h2 <;> simp_all [Body.kind, Kind.size]

/-! ## Fields in order -/

theorem packFields_ok (l : List Field) (parts : List (List Byte))
    (h : l.map (fun f => packBody f.body) = parts.map .ok) :
    packFields l = .ok parts.flatten ∧ parts.flatten.length = (l.map (fun f => f.body.kind.size)).sum := by
  induction l generalizing parts with
  | nil => cases parts <;> simp_all [packFields]
  | cons f l ih =>
    cases parts with
    | nil => simp at h
    | cons p parts =>
      simp only [List.map_cons, List.cons.injEq] at h
      have h2 := ih parts h.2
      simp [packFields, h.1, h2.1, length_packBody h.1]
      rw [← h2.2]; simp [List.length_flatten]

theorem packFields_error (before : List Field) (f : Field) (after : List Field) {cause : DecodingCause}
    (hb : ∀ g ∈ before, ∃ bs, packBody g.body = .ok bs) (hf : packBody f.body = .error cause) :
    packFields (before ++ f :: after) = .error (fieldError f.body.kind (some f.name) cause) := by
  induction before with
  | nil => simp [packFields, hf]
  | cons g l ih =>
    obtain ⟨bs, h⟩ := hb g (by simp)
    simp [packFields, h, ih (fun g hg => hb g (by simp [hg]))]

/-- What an unpack of fields that succeeds gives (41_field_codec.md R174). -/
theorem unpackFields_ok {l done : List Field} {buf rest : List Byte} (h : unpackFields l buf = .ok (done, rest)) :
    done.map Field.name = l.map Field.name ∧
    done.map Field.order = l.map Field.order ∧
    done.map (fun f => f.body.kind) = l.map (fun f => f.body.kind) ∧
    (∀ j (hj : j < done.length), unpackBody done[j].body
        (buf.drop (((done.take j).map (fun f => f.body.kind.size)).sum)) = .ok done[j].body) ∧
    rest = buf.drop ((done.map (fun f => f.body.kind.size)).sum) ∧
    (done.map (fun f => f.body.kind.size)).sum ≤ buf.length := by
  induction l generalizing buf done rest with
  | nil => simp [unpackFields] at h; obtain ⟨rfl, rfl⟩ := h; simp
  | cons f l ih =>
    simp only [unpackFields] at h
    split at h
    · simp at h
    · rename_i b hb
      split at h
      · simp at h
      · rename_i d r hr
        simp at h
        obtain ⟨rfl, rfl⟩ := h
        obtain ⟨i1, i2, i3, i4, i5, i6⟩ := ih hr
        have hk := kind_unpackBody hb
        refine ⟨by simp [i1], by simp [i2], by simp [i3, hk], ?_, ?_, ?_⟩
        · intro j hj
          cases j with
          | zero => simpa using unpackBody_idem hb
          | succ j => simpa [hk, List.drop_drop] using i4 j (by simpa using hj)
        · rw [i5]; simp [hk, List.drop_drop]
        · have h2 := size_le_of_unpackBody hb
          simp [hk] at i6 ⊢; omega

theorem unpackFields_error (before : List Field) (f : Field) (after : List Field) {buf rest : List Byte}
    {done : List Field} {cause : DecodingCause} (h : unpackFields before buf = .ok (done, rest))
    (hf : unpackBody f.body rest = .error cause) :
    unpackFields (before ++ f :: after) buf = .error (fieldError f.body.kind (some f.name) cause) := by
  induction before generalizing buf done rest with
  | nil => simp [unpackFields] at h; obtain ⟨rfl, rfl⟩ := h; simp [unpackFields, hf]
  | cons g l ih =>
    simp only [unpackFields] at h
    split at h
    · simp at h
    · rename_i b hb
      split at h
      · simp at h
      · rename_i d r hr
        simp at h
        obtain ⟨rfl, rfl⟩ := h
        simp [unpackFields, hb, ih hr hf]

/-- Free values leave the schema as it was (41_field_codec.md R177). -/
theorem freeFields_schema (l : List Field) (n : Nat) :
    (freeFields n l).map Field.name = l.map Field.name ∧ (freeFields n l).map Field.order = l.map Field.order ∧
      (freeFields n l).map (fun f => f.body.kind) = l.map (fun f => f.body.kind) := by
  induction l generalizing n with
  | nil => simp [freeFields]
  | cons f l ih =>
    obtain ⟨a, b, c⟩ := ih (n + 1)
    refine ⟨by simp [freeFields, a], by simp [freeFields, b], ?_⟩
    simp [freeFields, c]
    cases f.body <;> rfl

/-! ## A field and its commands (41_field_codec.md R144) -/

/-- `PACK(d)` is the PACK command of the descriptor's kind. -/
theorem exec_packCommand (b : Body) (s : State) : exec (packCommand b) s = answerPack b.kind (packBody b) s := by
  cases b with
  | int k v => cases k <;> rfl
  | ch n t => rfl
  | pad n v => rfl

/-- `UNPACK(d, buf)` is the UNPACK command of the descriptor's kind. -/
theorem exec_unpackCommand (b : Body) (buf : List Byte) (s : State) :
    exec (unpackCommand b.kind buf) s = answerUnpack b.kind ((unpackBody b buf).map Body.value) s := by
  have hi : ∀ (k : IntKind) (v : Int), (unpackBody (.int k v) buf).map Body.value = intValue (unpackInt k buf) := by
    intro k v
    simp only [unpackBody]
    cases unpackInt k buf <;> rfl
  cases b with
  | int k v => rw [hi]; cases k <;> rfl
  | ch n t =>
    have h : (unpackBody (.ch n t) buf).map Body.value = textValue (unpackChars n buf) := by
      simp only [unpackBody]
      cases unpackChars n buf <;> rfl
    rw [h]; rfl
  | pad n v =>
    have h : (unpackBody (.pad n v) buf).map Body.value = intValue (unpackZeros n buf) := by
      simp only [unpackBody]
      cases unpackZeros n buf <;> rfl
    rw [h]; rfl

theorem packBody_ok_iff (b : Body) (bs : List Byte) (s : State) :
    packBody b = .ok bs ↔ exec (packCommand b) s = .next { s with res := .bytes bs } := by
  rw [exec_packCommand]
  cases packBody b <;> simp [answerPack, answer, State.finish, State.raise]

theorem packBody_error_iff (b : Body) (cause : DecodingCause) (s : State) : packBody b = .error cause ↔
    exec (packCommand b) s = .next { s with res := .raised (.decoding cause (.field b.kind none)) } := by
  rw [exec_packCommand]
  cases packBody b <;> simp [answerPack, answer, State.finish, State.raise, fieldError]

theorem unpackBody_ok_iff (b : Body) (buf : List Byte) (v : Value) (s : State) :
    (∃ b', unpackBody b buf = .ok b' ∧ b'.value = v) ↔
      exec (unpackCommand b.kind buf) s = .next { s with res := .unpacked v b.kind.size } := by
  rw [exec_unpackCommand]
  cases unpackBody b buf <;> simp [answerUnpack, answer, State.finish, State.raise, Except.map]

theorem unpackBody_error_iff (b : Body) (buf : List Byte) (cause : DecodingCause) (s : State) :
    unpackBody b buf = .error cause ↔ exec (unpackCommand b.kind buf) s =
      .next { s with res := .raised (.decoding cause (.field b.kind none)) } := by
  rw [exec_unpackCommand]
  cases unpackBody b buf <;> simp [answerUnpack, answer, State.finish, State.raise, Except.map, fieldError]

/-- Fields unpack where each one does on its part of the buffer (41_field_codec.md R174). -/
theorem unpackFields_of_slices (l : List Field) (buf : List Byte)
    (h : ∀ j (hj : j < l.length), ∃ b, unpackBody l[j].body (buf.drop (fieldOffset l j)) = .ok b) :
    ∃ done, unpackFields l buf = .ok (done, buf.drop (fieldOffset l l.length)) ∧ done.length = l.length ∧
      ∀ j (hj : j < l.length) (hd : j < done.length),
        unpackBody l[j].body (buf.drop (fieldOffset l j)) = .ok done[j].body := by
  induction l generalizing buf with
  | nil => exact ⟨[], by simp [unpackFields, fieldOffset], rfl, fun j hj => absurd hj (by simp)⟩
  | cons f l ih =>
    have hoff : ∀ j, fieldOffset (f :: l) (j + 1) = f.body.kind.size + fieldOffset l j := by
      intro j; simp [fieldOffset]
    obtain ⟨b, hb⟩ := h 0 (by simp)
    obtain ⟨done, h1, h2, h3⟩ := ih (buf.drop f.body.kind.size) (fun j hj => by
      have := h (j + 1) (by simpa using hj)
      simpa [hoff, List.drop_drop] using this)
    have hb' : unpackBody f.body buf = .ok b := by simpa [fieldOffset] using hb
    refine ⟨{ f with body := b } :: done, ?_, by simp [h2], ?_⟩
    · simp [unpackFields, hb', h1, hoff, List.drop_drop]
    · intro j hj hd
      cases j with
      | zero => simpa [fieldOffset] using hb'
      | succ j => simpa [hoff, List.drop_drop] using h3 j (by simpa using hj) (by simpa using hd)

/-! ## Field sets -/

theorem FieldSet.find_eq_none {fs : FieldSet} {name : Text} (h : ∀ f ∈ fs.fields, f.name ≠ name) :
    fs.find name = none := by
  simpa [FieldSet.find] using h

theorem FieldSet.find_eq_some {fs : FieldSet} {f : Field} (hi : FieldSet.Inv fs) (hf : f ∈ fs.fields) :
    fs.find f.name = some f := by
  cases h : fs.find f.name with
  | none => simp [FieldSet.find] at h; exact absurd rfl (h f hf)
  | some g =>
    have h1 := List.mem_of_find?_eq_some h
    have h2 : g.name = f.name := by simpa using List.find?_some h
    rw [List.inj_on_of_nodup_map hi.namesUnique h1 hf h2]

theorem FieldSet.Inv.empty : FieldSet.Inv FieldSet.empty := by constructor <;> simp [FieldSet.empty]

/-- The invariant speaks of the schema only. -/
theorem FieldSet.Inv.of_schema {fs fs' : FieldSet} (h : FieldSet.Inv fs)
    (hn : fs'.fields.map Field.name = fs.fields.map Field.name)
    (ho : fs'.fields.map Field.order = fs.fields.map Field.order) (hx : fs'.next = fs.next) : FieldSet.Inv fs' := by
  have hl : fs'.fields.length = fs.fields.length := by simpa using congrArg List.length hn
  exact ⟨hn ▸ h.namesUnique, by rw [ho, hl]; exact h.ordersCount, by rw [hx, hl]; exact h.nextCounts⟩

theorem FieldSet.Inv.add {fs fs' : FieldSet} {kind : Kind} {name : Text} (h : FieldSet.Inv fs)
    (he : fs.add kind name = .ok fs') : FieldSet.Inv fs' := by
  simp only [FieldSet.add] at he
  split at he
  · simp at he
  · rename_i hn
    simp at he; subst he
    obtain ⟨a, b, c⟩ := h
    refine ⟨?_, by simp [b, c, List.range_succ], by simp [c]⟩
    simp [List.nodup_append, a] at hn ⊢; simpa using hn

theorem FieldSet.Inv.addEach (l : List (Kind × Text)) {fs : FieldSet} (h : FieldSet.Inv fs) :
    FieldSet.Inv (FieldSet.addEach l fs).1 := by
  induction l generalizing fs with
  | nil => exact h
  | cons a l ih =>
    simp only [FieldSet.addEach]
    split
    · rename_i he; exact ih (h.add he)
    · exact h

theorem FieldSet.Inv.set {fs fs' : FieldSet} {name : Text} {v : Value} (h : FieldSet.Inv fs)
    (he : fs.set name v = .ok fs') : FieldSet.Inv fs' := by
  simp only [FieldSet.set] at he
  split at he
  · simp at he
  · split at he
    · simp at he; subst he
      refine h.of_schema ?_ ?_ rfl <;>
        (simp only [replaceBody, List.map_map]; apply List.map_congr_left; intro f _; simp only [Function.comp]
         split <;> rfl)
    · simp at he

/-- FS_ADDs that succeed leave the names added, in order. -/
theorem FieldSet.addEach_names (l : List (Kind × Text)) (fs : FieldSet) (h : (FieldSet.addEach l fs).2 = none) :
    (FieldSet.addEach l fs).1.fields.map Field.name = fs.fields.map Field.name ++ l.map Prod.snd := by
  induction l generalizing fs with
  | nil => simp [FieldSet.addEach]
  | cons a l ih =>
    simp only [FieldSet.addEach] at h ⊢
    split at h
    · rename_i fs' he
      simp only [FieldSet.add] at he
      split at he
      · simp at he
      · simp at he
        rw [ih _ h, ← he]; simp
    · simp at h

/-- FS_ADDs after FS_ADDs that succeed. -/
theorem FieldSet.addEach_append (l m : List (Kind × Text)) (fs : FieldSet) (h : (FieldSet.addEach l fs).2 = none) :
    FieldSet.addEach (l ++ m) fs = FieldSet.addEach m (FieldSet.addEach l fs).1 := by
  induction l generalizing fs with
  | nil => rfl
  | cons a l ih =>
    simp only [List.cons_append, FieldSet.addEach] at h ⊢
    split at h
    · exact ih _ h
    · simp at h

end Sys2Proof.Machine
end

