-- ==== Sys2Proof/Laws/Decode.lean ====
section
/-! SUPPORT. The operand forms: reading what was written gives it back. -/

namespace Sys2Proof

theorem getNat_putNatGroups (more n : Nat) (rest : List Byte) (h : n < 2 ^ (7 * (more + 1))) :
    getNat (putNatGroups more n ++ rest) = .ok (n, rest) := by
  induction more generalizing n with
  | zero =>
    simp at h
    have h2 : n % 128 % 256 = n := by omega
    simp [putNatGroups, getNat, h, h2]
  | succ more ih =>
    unfold putNatGroups
    split_ifs with h1
    · have h2 : n % 256 = n := by omega
      simp [getNat, h1, h2]
    · have h2 : n / 128 < 2 ^ (7 * (more + 1)) := by
        rw [Nat.div_lt_iff_lt_mul (by norm_num)]
        rw [show 7 * (more + 1 + 1) = 7 * (more + 1) + 7 by ring, pow_add] at h
        simpa using h
      have h3 : (n % 128 + 128) % 256 = n % 128 + 128 := by omega
      rw [List.cons_append, getNat]
      simp [h3, ih _ h2]
      omega

theorem getNat_putNat (n : Nat) (rest : List Byte) : getNat (putNat n ++ rest) = .ok (n, rest) :=
  getNat_putNatGroups _ _ _ ((Nat.lt_log2_self (n := n)).trans_le (Nat.pow_le_pow_right (by norm_num) (by omega)))

theorem unfoldInt_foldInt (v : Int) : unfoldInt (foldInt v) = v := by
  cases v <;> simp [foldInt, unfoldInt]; omega

theorem getInt_putInt (v : Int) (rest : List Byte) : getInt (putInt v ++ rest) = .ok (v, rest) := by
  simp [getInt, putInt, getNat_putNat, unfoldInt_foldInt]

theorem getByte_cons (b : Byte) (rest : List Byte) : getByte (b :: rest) = .ok (b, rest) := rfl

variable {α : Type} {item : List Byte → Except DecodeError (α × List Byte)} {put : α → List Byte}

theorem getMany_flatMap (h : ∀ (a : α) (rest : List Byte), item (put a ++ rest) = .ok (a, rest)) (as : List α)
    (rest : List Byte) : getMany item as.length (as.flatMap put ++ rest) = .ok (as, rest) := by
  induction as with
  | nil => rfl
  | cons a as ih => simp [getMany, h, ih]

theorem getList_putList (h : ∀ (a : α) (rest : List Byte), item (put a ++ rest) = .ok (a, rest)) (as : List α)
    (rest : List Byte) : getList item (putList put as ++ rest) = .ok (as, rest) := by
  unfold getList putList
  rw [List.append_assoc, getNat_putNat]
  exact getMany_flatMap h as rest

theorem getBytes_putBytes (bs rest : List Byte) : getBytes (putBytes bs ++ rest) = .ok (bs, rest) :=
  getList_putList (fun _ _ => rfl) bs rest

theorem getChar_putChar (c : Char) (rest : List Byte) : getChar (putChar c ++ rest) = .ok (c, rest) := by
  have h : c.toNat.isValidChar := c.valid
  simp [getChar, putChar, getNat_putNat, h]

theorem getText_putText (t : Text) (rest : List Byte) : getText (putText t ++ rest) = .ok (t, rest) :=
  getList_putList getChar_putChar t rest

theorem unfoldKind_foldKind (k : Kind) : unfoldKind (foldKind k) = k := by
  rcases k with k | n | n
  · cases k <;> rfl
  · simp [foldKind, unfoldKind]
  · show unfoldKind ((2 * n + 1) + 8) = _
    have h1 : (2 * n + 1) % 2 ≠ 0 := by omega
    have h2 : (2 * n + 1) / 2 = n := by omega
    simp only [unfoldKind, if_neg h1, h2]

theorem getKind_putKind (k : Kind) (rest : List Byte) : getKind (putKind k ++ rest) = .ok (k, rest) := by
  simp only [getKind, putKind, getNat_putNat, unfoldKind_foldKind]

theorem getValue_putValue (v : Value) (rest : List Byte) : getValue (putValue v ++ rest) = .ok (v, rest) := by
  cases v with
  | int v => simp [getValue, putValue, getNat_putNat, unfoldInt_foldInt]
  | text t =>
    have h1 : (2 * t.length + 1) % 2 ≠ 0 := by omega
    have h2 : (2 * t.length + 1) / 2 = t.length := by omega
    simp only [getValue, putValue, List.append_assoc, getNat_putNat, if_neg h1, h2, getMany_flatMap getChar_putChar]

theorem getIdent_putIdent (i : Ident) (rest : List Byte) : getIdent (putIdent i ++ rest) = .ok (i, rest) := rfl

theorem getTemplateField_putTemplateField (f : Kind × Text) (rest : List Byte) :
    getTemplateField (putTemplateField f ++ rest) = .ok (f, rest) := by
  simp [getTemplateField, putTemplateField, getKind_putKind, getText_putText]

end Sys2Proof
end

