-- ==== Sys2Proof/Laws/Parser.lean ====
section
/-! SUPPORT. The parser: the decode of an input byte selects one row, the byte step performs it, and feeding. -/

namespace Sys2Proof.Machine

open Sys2Proof

/-- "every (state, byte) pair matches exactly one row" (30_encoding.md R95), with the PAYLOAD condition of log 14. -/
theorem rowSelected_iff (c : Params) (p : Parser) (x : Byte) (row : ByteRow) :
    rowSelected c p x row = true ↔ row = selectRow c p x := by
  unfold selectRow
  cases hst : p.st <;> simp only [] <;> cases row <;> simp [rowSelected, hst] <;> (try split_ifs) <;> simp_all

/-- The selected row's instruction, where a byte step is enabled, performs the byte step (44_parser.md R249). -/
theorem exec_instr_selectRow {s : State} (x : Byte) (hf : s.parser.fault = none) :
    exec ((selectRow s.params s.parser x).instr x) s = .next (s.withParser (byteStep s.params s.parser x)) := by
  have hsel : rowSelected s.params s.parser x (selectRow s.params s.parser x) = true := (rowSelected_iff ..).2 rfl
  have key : ∀ row, rowSelected s.params s.parser x row = true →
      exec (row.instr x) s = .next (s.withParser (rowAction row s.params s.parser x)) := by
    intro row h
    cases row
    case waitSync1Sync =>
      have hx : x = 0xB5 := by simp [rowSelected] at h; exact h.2
      subst hx; exact byteTurn_of_selected hf h
    case waitSync2Sync =>
      have hx : x = 0x62 := by simp [rowSelected] at h; exact h.2
      subst hx; exact byteTurn_of_selected hf h
    all_goals exact byteTurn_of_selected hf h
  exact key _ hsel

/-! ## Feeding -/

theorem feed_nil (s : State) : feed [] s = s := rfl

/-- A byte is consumed where the parser is free. -/
theorem feed_cons_of_free {s : State} (x : Byte) (xs : List Byte) (hf : s.parser.fault = none) (hr : s.rx = []) :
    feed (x :: xs) s = feed xs (s.withParser (byteStep s.params s.parser x)) := by
  simp [feed, hf, hr]

/-- Bytes wait where the parser is stuck or earlier bytes wait. -/
theorem feed_of_blocked {s : State} (xs : List Byte) (h : s.parser.fault ≠ none ∨ s.rx ≠ []) :
    feed xs s = { s with rx := s.rx ++ xs } := by
  cases xs with
  | nil => simp [feed]
  | cons x xs =>
    have : (s.parser.fault.isSome || !s.rx.isEmpty) = true := by
      rcases h with h | h
      · simp [Option.isSome_iff_ne_none.2 h]
      · simp [h]
    simp [feed, this]

/-- A chunk boundary is invisible to feeding (44_parser.md R255). -/
theorem feed_append (xs ys : List Byte) (s : State) : feed (xs ++ ys) s = feed ys (feed xs s) := by
  induction xs generalizing s with
  | nil => rfl
  | cons x xs ih =>
    by_cases h : s.parser.fault = none ∧ s.rx = []
    · rw [List.cons_append, feed_cons_of_free x _ h.1 h.2, feed_cons_of_free x _ h.1 h.2, ih]
    · have hb : s.parser.fault ≠ none ∨ s.rx ≠ [] := by tauto
      rw [feed_of_blocked _ hb, feed_of_blocked _ hb, feed_of_blocked _ (.inr (by simp))]
      simp

/-- Feeding changes the parser and the waiting bytes, and nothing else. -/
theorem feed_frame (xs : List Byte) (s : State) :
    feed xs s = { s with parser := (feed xs s).parser, rx := (feed xs s).rx } := by
  induction xs generalizing s with
  | nil => rfl
  | cons x xs ih =>
    by_cases h : s.parser.fault = none ∧ s.rx = []
    · rw [feed_cons_of_free x _ h.1 h.2]
      have := ih (s.withParser (byteStep s.params s.parser x))
      rw [this]; rfl
    · rw [feed_of_blocked _ (by tauto)]

/-- A property of the parser that every byte step keeps is kept by feeding. -/
theorem feed_parser_induction {c : Params} {P : Parser → Prop} (hstep : ∀ p x, P p → P (byteStep c p x))
    (xs : List Byte) {s : State} (hc : s.params = c) (h : P s.parser) : P (feed xs s).parser := by
  induction xs generalizing s with
  | nil => exact h
  | cons x xs ih =>
    by_cases hb : s.parser.fault = none ∧ s.rx = []
    · rw [feed_cons_of_free x _ hb.1 hb.2]
      exact ih (by simpa using hc) (by simpa [hc] using hstep _ _ h)
    · rw [feed_of_blocked _ (by tauto)]; exact h

/-! ## The rows of the table, as 30_encoding.md R95 states them -/

theorem toNat_declaredLen (lenLo x : Byte) : (declaredLen lenLo x).toNat = lenLo.toNat + 256 * x.toNat := by
  have h : declaredLen lenLo x = x ++ lenLo := by
    unfold declaredLen
    ext i hi
    rw [BitVec.getElem_append]
    by_cases h : i < 8
    · simp [h]
    · simp only [BitVec.getElem_or, BitVec.getElem_setWidth, BitVec.getElem_shiftLeft, h, dite_false, decide_false]
      simp [BitVec.getLsbD_of_ge lenLo i (by omega), BitVec.getLsbD_eq_getElem (show i - 8 < 8 by omega)]
  rw [h, BitVec.toNat_append]
  have h2 := lenLo.isLt
  rw [Nat.shiftLeft_eq, ← Nat.mul_comm (2 ^ 8), ← Nat.two_pow_add_eq_or_of_lt h2]
  omega

theorem declaredLen_eq (lenLo x : Byte) : declaredLen lenLo x = BitVec.ofNat 16 (wireLength lenLo x) := by
  have h1 := toNat_declaredLen lenLo x
  have h2 := (declaredLen lenLo x).isLt
  apply BitVec.eq_of_toNat_eq
  rw [BitVec.toNat_ofNat, wireLength, ← h1, Nat.mod_eq_of_lt h2]

theorem leBytes_declaredLen (lenLo x : Byte) : leBytes 2 (declaredLen lenLo x).toNat = [lenLo, x] := by
  rw [toNat_declaredLen]
  simpa [fromLE] using leBytes_fromLE [lenLo, x]

/-- The condition R95 states is the one the decode tests, where `cnt` is below `len` in PAYLOAD. -/
theorem tableCondition_iff {c : Params} {p : Parser} {x : Byte} (hp : p.st = .payload → p.cnt < p.len.toNat)
    (row : ByteRow) : tableCondition c p x row ↔ row = selectRow c p x := by
  rw [← rowSelected_iff]
  have hz : declaredLen p.lenLo x = 0#16 ↔ wireLength p.lenLo x = 0 := by
    rw [← BitVec.toNat_inj, toNat_declaredLen]; simp [wireLength]
  have hd := toNat_declaredLen p.lenLo x
  cases row <;> simp [tableCondition, rowSelected, Acc.agrees, hz, hd, wireLength] <;> (try tauto)
  · constructor
    · rintro ⟨a, b, c⟩; exact ⟨⟨a, by omega⟩, c⟩
    · rintro ⟨⟨a, b⟩, c⟩; exact ⟨a, by omega, c⟩
  · intro h; have := hp h; omega

/-- A row whose condition holds performs its action. -/
theorem exec_row {s : State} (row : ByteRow) (x : Byte) (hf : s.parser.fault = none)
    (h : tableCondition s.params s.parser x row) :
    exec (row.instr x) s = .next (s.withParser (rowAction row s.params s.parser x)) := by
  have hs : rowSelected s.params s.parser x row = true := by
    by_cases hp : s.parser.st = .payload → s.parser.cnt < s.parser.len.toNat
    · rw [rowSelected_iff]; exact (tableCondition_iff hp row).1 h
    · exfalso
      push Not at hp
      cases row <;> simp [tableCondition, hp] at h
      all_goals omega
  rw [rowSelected_iff] at hs
  subst hs
  exact exec_instr_selectRow x hf

/-- A row that answers a next state performed a byte step. -/
theorem exec_row_cases {row : ByteRow} {x : Byte} {s t : State} (h : exec (row.instr x) s = .next t) :
    ∃ y, s.parser.fault = none ∧ row = selectRow s.params s.parser y ∧
      t = s.withParser (byteStep s.params s.parser y) := by
  cases row
  case waitSync1Sync =>
    obtain ⟨a, b, c⟩ := byteTurn_cases h
    rw [rowSelected_iff] at b
    exact ⟨0xB5, a, b, by rw [c, byteStep, ← b]; rfl⟩
  case waitSync2Sync =>
    obtain ⟨a, b, c⟩ := byteTurn_cases h
    rw [rowSelected_iff] at b
    exact ⟨0x62, a, b, by rw [c, byteStep, ← b]; rfl⟩
  all_goals
    obtain ⟨a, b, c⟩ := byteTurn_cases h
    rw [rowSelected_iff] at b
    exact ⟨x, a, b, by rw [c, byteStep, ← b]; rfl⟩

/-- The byte step is the action of the row whose condition holds. -/
theorem byteStep_of_selected {c : Params} {p : Parser} {x : Byte} {row : ByteRow} (h : rowSelected c p x row = true) :
    byteStep c p x = rowAction row c p x := by
  unfold byteStep; rw [← (rowSelected_iff c p x row).1 h]

/-- Only the last byte of a frame can set `fault`. -/
theorem byteStep_fault {c : Params} {p : Parser} {x : Byte} (h : p.st ≠ .crcB) : (byteStep c p x).fault = p.fault := by
  have hs := (rowSelected_iff c p x _).2 rfl
  unfold byteStep
  generalize selectRow c p x = row at *
  cases row <;> first | rfl | (simp [rowSelected] at hs; simp_all)

theorem queueFull_of_hasRoom {c : Params} {n : Nat} (h : hasRoom c n) : queueFull c n = false := by
  unfold queueFull
  split
  · rfl
  · rename_i k hk; have := h k hk; simp; omega

/-- STEP and PROCESS feed, and may write the result. -/
theorem feedAndReturn_eq (bs : List Byte) (s : State) : ∃ r, feedAndReturn bs s = (feed bs s).finish r := by
  unfold feedAndReturn
  split
  · exact ⟨_, rfl⟩
  · exact ⟨(feed bs s).res, rfl⟩

/-! ## The filter set (44_parser.md R250; log 21) -/

theorem identKey_inj {i j : Ident} (h : identKey i = identKey j) : i = j := by
  have a := i.cls.isLt; have b := i.id.isLt; have c := j.cls.isLt; have d := j.id.isLt
  simp only [identKey] at h
  cases i; cases j
  simp only [Ident.mk.injEq]
  exact ⟨BitVec.eq_of_toNat_eq (by simp at *; omega), BitVec.eq_of_toNat_eq (by simp at *; omega)⟩

theorem mem_insertIdent (i j : Ident) (l : List Ident) : j ∈ insertIdent i l ↔ j = i ∨ j ∈ l := by
  induction l with
  | nil => simp [insertIdent]
  | cons k l ih =>
    unfold insertIdent
    split_ifs with h1 h2
    · simp
    · subst h2; simp
    · simp [ih]; tauto

theorem identsRise_insertIdent (i : Ident) {l : List Ident} (h : identsRise l) : identsRise (insertIdent i l) := by
  unfold identsRise at *
  induction l with
  | nil => simp [insertIdent]
  | cons k l ih =>
    rw [List.pairwise_cons] at h
    unfold insertIdent
    split_ifs with h1 h2
    · refine List.pairwise_cons.2 ⟨fun j hj => ?_, List.pairwise_cons.2 h⟩
      rcases List.mem_cons.1 hj with rfl | hj
      · exact h1
      · exact h1.trans (h.1 j hj)
    · exact List.pairwise_cons.2 h
    · refine List.pairwise_cons.2 ⟨fun j hj => ?_, ih h.2⟩
      rcases (mem_insertIdent ..).1 hj with rfl | hj
      · have : identKey j ≠ identKey k := fun e => h2 (identKey_inj e)
        omega
      · exact h.1 j hj

/-- The filter list is in its canonical form. -/
theorem identsRise_identSet (l : List Ident) : identsRise (identSet l) := by
  induction l with
  | nil => simp [identSet, identsRise]
  | cons i l ih => exact identsRise_insertIdent i ih

theorem mem_identSet (l : List Ident) (j : Ident) : j ∈ identSet l ↔ j ∈ l := by
  induction l with
  | nil => simp [identSet]
  | cons i l ih => rw [show identSet (i :: l) = insertIdent i (identSet l) from rfl, mem_insertIdent, ih]; simp

/-- Equal sets are equal data. -/
theorem identsRise_ext {l m : List Ident} (hl : identsRise l) (hm : identsRise m) (h : ∀ i, i ∈ l ↔ i ∈ m) : l = m := by
  unfold identsRise at *
  have nd : ∀ {l : List Ident}, l.Pairwise (fun i j => identKey i < identKey j) → l.Nodup :=
    fun hp => hp.imp (fun h e => by subst e; exact lt_irrefl _ h)
  exact List.Perm.eq_of_pairwise (fun a b _ _ h1 h2 => by omega) hl hm
    ((List.perm_ext_iff_of_nodup (nd hl) (nd hm)).2 h)

end Sys2Proof.Machine
end

