-- ==== Sys2Proof/Laws/PerInstr.lean ====
section
/-! SUPPORT. Per instruction: the first byte of its encoding is its opcode (30_encoding.md R91, R95, R96). -/

namespace Sys2Proof.Laws.OpcodeByte

open Sys2Proof

/-- A command's encoding starts with its command index, which is at most 51; an input-byte row's is one byte. -/
def Statement (i : Instr) : Prop :=
  match i.cmdIndex with
  | some cmd => cmd ≤ 51 ∧ (encode i).head? = some (BitVec.ofNat 8 cmd)
  | none => (encode i).length = 1

theorem byteWaitSync1Sync : Statement .byteWaitSync1Sync := rfl

theorem byteWaitSync1Other (x : Byte) : Statement (.byteWaitSync1Other x) := rfl

theorem byteWaitSync2Sync : Statement .byteWaitSync2Sync := rfl

theorem byteWaitSync2Other (x : Byte) : Statement (.byteWaitSync2Other x) := rfl

theorem byteClassAny (x : Byte) : Statement (.byteClassAny x) := rfl

theorem byteIdAny (x : Byte) : Statement (.byteIdAny x) := rfl

theorem byteLenLoAny (x : Byte) : Statement (.byteLenLoAny x) := rfl

theorem byteLenHiZero (x : Byte) : Statement (.byteLenHiZero x) := rfl

theorem byteLenHiOversize (x : Byte) : Statement (.byteLenHiOversize x) := rfl

theorem byteLenHiPayload (x : Byte) : Statement (.byteLenHiPayload x) := rfl

theorem bytePayloadMore (x : Byte) : Statement (.bytePayloadMore x) := rfl

theorem bytePayloadLast (x : Byte) : Statement (.bytePayloadLast x) := rfl

theorem byteCrcAAny (x : Byte) : Statement (.byteCrcAAny x) := rfl

theorem byteCrcBAccept (x : Byte) : Statement (.byteCrcBAccept x) := rfl

theorem byteCrcBFiltered (x : Byte) : Statement (.byteCrcBFiltered x) := rfl

theorem byteCrcBCrcError (x : Byte) : Statement (.byteCrcBCrcError x) := rfl

theorem ckAdd (acc : Nat) (x : Byte) : Statement (.ckAdd acc x) := ⟨by decide, rfl⟩

theorem ckReset (acc : Nat) : Statement (.ckReset acc) := ⟨by decide, rfl⟩

theorem ckValue (acc : Nat) : Statement (.ckValue acc) := ⟨by decide, rfl⟩

theorem ckMatches (acc : Nat) (ra rb : Byte) : Statement (.ckMatches acc ra rb) := ⟨by decide, rfl⟩

theorem packU8 (v : Int) : Statement (.packU8 v) := ⟨by decide, rfl⟩

theorem packU16 (v : Int) : Statement (.packU16 v) := ⟨by decide, rfl⟩

theorem packU32 (v : Int) : Statement (.packU32 v) := ⟨by decide, rfl⟩

theorem packU64 (v : Int) : Statement (.packU64 v) := ⟨by decide, rfl⟩

theorem packI8 (v : Int) : Statement (.packI8 v) := ⟨by decide, rfl⟩

theorem packI16 (v : Int) : Statement (.packI16 v) := ⟨by decide, rfl⟩

theorem packI32 (v : Int) : Statement (.packI32 v) := ⟨by decide, rfl⟩

theorem packI64 (v : Int) : Statement (.packI64 v) := ⟨by decide, rfl⟩

theorem packCh (n : Nat) (str : Text) : Statement (.packCh n str) := ⟨by decide, rfl⟩

theorem packPad (n : Nat) : Statement (.packPad n) := ⟨by decide, rfl⟩

theorem unpackU8 (buf : List Byte) : Statement (.unpackU8 buf) := ⟨by decide, rfl⟩

theorem unpackU16 (buf : List Byte) : Statement (.unpackU16 buf) := ⟨by decide, rfl⟩

theorem unpackU32 (buf : List Byte) : Statement (.unpackU32 buf) := ⟨by decide, rfl⟩

theorem unpackU64 (buf : List Byte) : Statement (.unpackU64 buf) := ⟨by decide, rfl⟩

theorem unpackI8 (buf : List Byte) : Statement (.unpackI8 buf) := ⟨by decide, rfl⟩

theorem unpackI16 (buf : List Byte) : Statement (.unpackI16 buf) := ⟨by decide, rfl⟩

theorem unpackI32 (buf : List Byte) : Statement (.unpackI32 buf) := ⟨by decide, rfl⟩

theorem unpackI64 (buf : List Byte) : Statement (.unpackI64 buf) := ⟨by decide, rfl⟩

theorem unpackCh (n : Nat) (buf : List Byte) : Statement (.unpackCh n buf) := ⟨by decide, rfl⟩

theorem unpackPad (n : Nat) (buf : List Byte) : Statement (.unpackPad n buf) := ⟨by decide, rfl⟩

theorem fsNew : Statement .fsNew := ⟨by decide, rfl⟩

theorem fsAdd (fs : Nat) (kind : Kind) (name : Text) : Statement (.fsAdd fs kind name) := ⟨by decide, rfl⟩

theorem fsGet (fs : Nat) (name : Text) : Statement (.fsGet fs name) := ⟨by decide, rfl⟩

theorem fsSet (fs : Nat) (name : Text) (v : Value) : Statement (.fsSet fs name v) := ⟨by decide, rfl⟩

theorem fsPack (fs : Nat) : Statement (.fsPack fs) := ⟨by decide, rfl⟩

theorem fsUnpack (fs : Nat) (buf : List Byte) (start : Nat) : Statement (.fsUnpack fs buf start) := ⟨by decide, rfl⟩

theorem fsAddGroup (fs : Nat) (template : List (Kind × Text)) (count : Int) (pre : Text) :
    Statement (.fsAddGroup fs template count pre) := ⟨by decide, rfl⟩

theorem bfGet (v lsb width : Nat) : Statement (.bfGet v lsb width) := ⟨by decide, rfl⟩

theorem bfSet (v lsb width : Nat) (x : Int) : Statement (.bfSet v lsb width x) := ⟨by decide, rfl⟩

theorem cfgKeyMake (group item bits : Int) : Statement (.cfgKeyMake group item bits) := ⟨by decide, rfl⟩

theorem cfgKeyFields (key : Key) : Statement (.cfgKeyFields key) := ⟨by decide, rfl⟩

theorem cfgValPack (key : Key) (v : Int) : Statement (.cfgValPack key v) := ⟨by decide, rfl⟩

theorem cfgValUnpack (key : Key) (buf : List Byte) : Statement (.cfgValUnpack key buf) := ⟨by decide, rfl⟩

theorem cfgItemPack (key : Key) (v : Int) : Statement (.cfgItemPack key v) := ⟨by decide, rfl⟩

theorem cfgItemUnpack (buf : List Byte) : Statement (.cfgItemUnpack buf) := ⟨by decide, rfl⟩

theorem identEq (i j : Ident) : Statement (.identEq i j) := ⟨by decide, rfl⟩

theorem envLength (payload : List Byte) : Statement (.envLength payload) := ⟨by decide, rfl⟩

theorem envToBytes (ident : Ident) (payload : List Byte) : Statement (.envToBytes ident payload) := ⟨by decide, rfl⟩

theorem envPack (fs : Nat) : Statement (.envPack fs) := ⟨by decide, rfl⟩

theorem envUnpack (fs : Nat) (payload : List Byte) : Statement (.envUnpack fs payload) := ⟨by decide, rfl⟩

theorem step (x : Byte) : Statement (.step x) := ⟨by decide, rfl⟩

theorem process (chunk : List Byte) : Statement (.process chunk) := ⟨by decide, rfl⟩

theorem setFilters (idents : List Ident) : Statement (.setFilters idents) := ⟨by decide, rfl⟩

theorem setFilter (ident : Ident) : Statement (.setFilter ident) := ⟨by decide, rfl⟩

theorem restart : Statement .restart := ⟨by decide, rfl⟩

theorem packet : Statement .packet := ⟨by decide, rfl⟩

theorem emptyQueue : Statement .emptyQueue := ⟨by decide, rfl⟩

theorem reset : Statement .reset := ⟨by decide, rfl⟩

end Sys2Proof.Laws.OpcodeByte
end

