-- ==== Sys2Proof/Laws/Step.lean ====
section
/-! SUPPORT. What a step can do: it performs one operation, and each kind of operation leaves the other's state alone. -/

namespace Sys2Proof.Machine

open Sys2Proof

/-- A step that answers a next state was idle, or performed an operation in the state less the bytes it took. -/
theorem step_cases {s t : State} (h : step s = .next t) :
    t = s ∨ ∃ i s', exec i s' = .next t ∧ s' = { s with rx := s'.rx, cmds := s'.cmds } := by
  unfold step fetch fetchCommand at h
  split at h
  · rename_i i s' hh
    refine .inr ⟨i, s', h, ?_⟩
    split at hh
    · split at hh
      · simp at hh
      · split at hh
        · simp at hh; obtain ⟨_, rfl⟩ := hh; rfl
        · simp at hh
    · split at hh
      · simp at hh; obtain ⟨_, rfl⟩ := hh; rfl
      · split at hh
        · simp at hh
        · split at hh
          · simp at hh; obtain ⟨_, rfl⟩ := hh; rfl
          · simp at hh
  · left; simpa using h.symm
  · simp at h
  · simp at h

/-- An instruction that is no command is a row of the table with a byte. -/
theorem exists_row_of_not_isCommand {i : Instr} (h : isCommand i = false) : ∃ row x, i = ByteRow.instr row x := by
  cases i <;> first | (simp [isCommand, Instr.cmdIndex] at h; done) | skip
  · exact ⟨.waitSync1Sync, 0, rfl⟩
  · exact ⟨.waitSync1Other, _, rfl⟩
  · exact ⟨.waitSync2Sync, 0, rfl⟩
  · exact ⟨.waitSync2Other, _, rfl⟩
  · exact ⟨.classAny, _, rfl⟩
  · exact ⟨.idAny, _, rfl⟩
  · exact ⟨.lenLoAny, _, rfl⟩
  · exact ⟨.lenHiZero, _, rfl⟩
  · exact ⟨.lenHiOversize, _, rfl⟩
  · exact ⟨.lenHiPayload, _, rfl⟩
  · exact ⟨.payloadMore, _, rfl⟩
  · exact ⟨.payloadLast, _, rfl⟩
  · exact ⟨.crcAAny, _, rfl⟩
  · exact ⟨.crcBAccept, _, rfl⟩
  · exact ⟨.crcBFiltered, _, rfl⟩
  · exact ⟨.crcBCrcError, _, rfl⟩

/-- What no checksum, codec, configuration or envelope command writes. -/
theorem exec_codec_cases {i : Instr} {s t : State} (hc : isCodecCommand i = true) (h : exec i s = .next t) :
    t.params = s.params ∧ t.parser = s.parser ∧ t.rx = s.rx ∧ t.cmds = s.cmds ∧ s.draws ≤ t.draws := by
  cases i <;> first | (simp [isCodecCommand, isCommand, Instr.cmdIndex] at hc; done) | skip
  all_goals simp only [exec] at h
  all_goals first
    | (cases h; exact ⟨rfl, rfl, rfl, rfl, le_rfl⟩)
    | (obtain ⟨fs, k, r, rfl⟩ := unpackInto_cases h; exact ⟨rfl, rfl, rfl, rfl, by simp⟩)
    | (simp only [execPackU8, execPackU16, execPackU32, execPackU64, execPackI8, execPackI16, execPackI32, execPackI64,
        execPackCh, answerPack, execUnpackU8, execUnpackU16, execUnpackU32, execUnpackU64, execUnpackI8, execUnpackI16,
        execUnpackI32, execUnpackI64, execUnpackCh, execUnpackPad, answerUnpack, execFsAdd, execFsGet, execFsSet,
        execFsPack, execFsAddGroup, execEnvPack, packOut, execBfSet, execCfgKeyMake, execCfgKeyFields, execCfgValPack,
        execCfgValUnpack, execCfgItemPack, execCfgItemUnpack, execEnvLength, execEnvToBytes] at h
       split at h <;> (obtain ⟨r, rfl⟩ := answer_cases h; exact ⟨rfl, rfl, rfl, rfl, by simp⟩))

/-- What no parser operation writes; RESET alone writes the codec objects. -/
theorem exec_parser_cases {i : Instr} {s t : State} (hc : isCodecCommand i = false) (h : exec i s = .next t) :
    (i ≠ .reset → t.accs = s.accs ∧ t.sets = s.sets) ∧ t.draws = s.draws ∧ t.cmds = s.cmds ∧ t.params = s.params := by
  have hfeed : ∀ xs, (∃ r, t = (feed xs s).finish r) →
      (i ≠ .reset → t.accs = s.accs ∧ t.sets = s.sets) ∧ t.draws = s.draws ∧ t.cmds = s.cmds ∧ t.params = s.params := by
    rintro xs ⟨r, rfl⟩
    rw [feed_frame xs s]
    exact ⟨fun _ => ⟨rfl, rfl⟩, rfl, rfl, rfl⟩
  by_cases hi : isCommand i
  · cases i <;> first | (simp [isCodecCommand, isCommand, Instr.cmdIndex] at hc hi; done) | skip
    all_goals simp only [exec, execStep, execProcess, execPacket] at h
    case step x => cases h; exact hfeed [x] (feedAndReturn_eq [x] s)
    case process xs => cases h; exact hfeed xs (feedAndReturn_eq xs s)
    case packet => split at h <;> cases h <;> exact ⟨fun _ => ⟨rfl, rfl⟩, rfl, rfl, rfl⟩
    case reset => cases h; exact ⟨fun h => absurd rfl h, rfl, rfl, rfl⟩
    all_goals cases h; exact ⟨fun _ => ⟨rfl, rfl⟩, rfl, rfl, rfl⟩
  · obtain ⟨row, x, rfl⟩ := exists_row_of_not_isCommand (by simpa using hi)
    obtain ⟨y, _, _, rfl⟩ := exec_row_cases h
    exact ⟨fun _ => ⟨rfl, rfl⟩, rfl, rfl, rfl⟩

end Sys2Proof.Machine
end

