-- ==== Sys2Proof/Tests/Slice0.lean ====
section
/-! SUPPORT. Tests. The expected values are the worked examples and derived vectors of 95_test_vectors.md (the vector is
named before each), or hand calculation from the rule named. Operand forms of commands are the model's (log 3). -/

namespace Sys2Proof.Tests

open Sys2Proof Sys2Proof.Machine

/-! ## Small states -/

/-- `MAX_MSG_LEN` = 64, `QUEUE_CAPACITY` unbounded, as 95_test_vectors.md sets them. -/
def c64 : Params := { maxMsgLen := 64, queueCapacity := none, signedKeys := [] }

/-- `MAX_MSG_LEN` = 2, `QUEUE_CAPACITY` = 1. -/
def c2 : Params := { maxMsgLen := 2, queueCapacity := some ⟨1, by decide⟩, signedKeys := [] }

/-- `SIGNED_KEYS` true for one key. -/
def cSigned (k : Key) : Params := { c64 with signedKeys := [k] }

/-- The reset state. -/
def s0 : State := State.resetWith c64

/-- The reset state with a parser state. -/
def at_ (st : ParserSt) : State := { s0 with parser := { Parser.reset with st := st } }

/-- The reset state with a filter. -/
def filtered (l : List Ident) : State := { s0 with parser := { Parser.reset with filt := identSet l } }

/-- The reset state with accumulator 0 at a pair. -/
def withAcc (a b : Byte) : State := { s0 with accs := [(0, ⟨a, b⟩)] }

/-- The reset state with field set 0. -/
def withSet (l : List Field) : State := { s0 with sets := [(0, ⟨l, l.length⟩)] }

/-- Schema S1 of 95_test_vectors.md with values for a and c. -/
def s1 (a c : Int) : List Field :=
  [⟨['a'], 0, .int .u8 a⟩, ⟨['r'], 1, .pad 1 0⟩, ⟨['c'], 2, .int .u16 c⟩]

/-- A queue overflow has been recorded. -/
def stuck : State := { s0 with parser := { Parser.reset with fault := some (.queueOverflow .crcError) } }

/-- What a command returned. -/
def result (o : Host.Outcome State Fault Refusal) : Option Result :=
  match o with
  | .next t => some t.res
  | .fault _ => none
  | .refused _ => none

/-- A part of the parser after an operation. -/
def after {α : Type} (part : Parser → α) (o : Host.Outcome State Fault Refusal) : Option α :=
  match o with
  | .next t => some (part t.parser)
  | .fault _ => none
  | .refused _ => none

/-- A field set after an operation. -/
def setAfter (n : Nat) (o : Host.Outcome State Fault Refusal) : Option FieldSet :=
  match o with
  | .next t => some (t.fieldSet n)
  | .fault _ => none
  | .refused _ => none

/-- The bodies of fields 0 after an operation, taken at a position. -/
def bodyAfter (j : Nat) (o : Host.Outcome State Fault Refusal) : Option Body :=
  match setAfter 0 o with
  | some fs => (fs.fields[j]?).map Field.body
  | none => none

/-- OutOfRange of an integer field outside a field set. -/
def outOfRange (k : IntKind) : Option Result := some (.raised (.decoding .outOfRange (.field (.int k) none)))

/-- F0 of 95_test_vectors.md. -/
def f0 : List Byte := [0xB5, 0x62, 0x06, 0x00, 0x00, 0x00, 0x06, 0x18]

/-- F1 of 95_test_vectors.md. -/
def f1 : List Byte := [0xB5, 0x62, 0x05, 0x01, 0x02, 0x00, 0x06, 0x01, 0x0F, 0x38]

/-! ## Well-formedness: each check refuses -/

theorem test_wellFormed_waitSync1Other : (Instr.byteWaitSync1Other 0xB5).wellFormed = false := by decide
theorem test_wellFormed_waitSync2Other : (Instr.byteWaitSync2Other 0x62).wellFormed = false := by decide
theorem test_wellFormed_lenHiZero : (Instr.byteLenHiZero 1).wellFormed = false := by decide
theorem test_wellFormed_bfGet : (Instr.bfGet 5 0 0).wellFormed = false := by decide
theorem test_wellFormed_bfSet : (Instr.bfSet 5 0 0 0).wellFormed = false := by decide

/-! ## Decoding: the row a byte selects (30_encoding.md R95), one clause per row -/

theorem test_decode_rows_sync :
    selectRow c64 (at_ .waitSync1).parser 0xB5 = .waitSync1Sync ∧
    selectRow c64 (at_ .waitSync1).parser 0x62 = .waitSync1Other ∧
    selectRow c64 (at_ .waitSync2).parser 0x62 = .waitSync2Sync ∧
    selectRow c64 (at_ .waitSync2).parser 0xB5 = .waitSync2Other := by decide

theorem test_decode_rows_header :
    selectRow c64 (at_ .class_).parser 0xB5 = .classAny ∧
    selectRow c64 (at_ .id).parser 0x62 = .idAny ∧
    selectRow c64 (at_ .lenLo).parser 0xFF = .lenLoAny := by decide

/-- The length 0x0040 = 64 is accepted and 0x0041 abandoned (P-18, D3); 0x0100 is the high byte's (R60). -/
theorem test_decode_rows_length :
    selectRow c64 (at_ .lenHi).parser 0x00 = .lenHiZero ∧
    selectRow c64 { (at_ .lenHi).parser with lenLo := 0x40 } 0x00 = .lenHiPayload ∧
    selectRow c64 { (at_ .lenHi).parser with lenLo := 0x41 } 0x00 = .lenHiOversize ∧
    selectRow c64 (at_ .lenHi).parser 0x01 = .lenHiOversize := by decide

theorem test_decode_rows_payload :
    selectRow c64 { (at_ .payload).parser with len := 2, cnt := 0 } 0x06 = .payloadMore ∧
    selectRow c64 { (at_ .payload).parser with len := 2, cnt := 1 } 0x01 = .payloadLast := by decide

theorem test_decode_rows_checksum :
    selectRow c64 (at_ .crcA).parser 0x06 = .crcAAny ∧
    selectRow c64 { (at_ .crcB).parser with pck := ⟨6, 0x18⟩, rxa := 6, cls := 6, filt := [⟨6, 0⟩] } 0x18 = .crcBAccept ∧
    selectRow c64 { (at_ .crcB).parser with pck := ⟨6, 0x18⟩, rxa := 6, cls := 6 } 0x18 = .crcBFiltered ∧
    selectRow c64 { (at_ .crcB).parser with pck := ⟨6, 0x18⟩, rxa := 6, cls := 6 } 0x19 = .crcBCrcError := by decide

/-! ## Decoding: commands written out, one clause per constructor; the first byte is the cmd_index (R91, R96) -/

theorem test_decode_checksum :
    decode [0x00, 0x05, 0x2A] = .ok (.ckAdd 5 0x2A, []) ∧
    decode [0x01, 0x80, 0x01] = .ok (.ckReset 128, []) ∧
    decode [0x02, 0x07] = .ok (.ckValue 7, []) ∧
    decode [0x03, 0x00, 0x06, 0x18] = .ok (.ckMatches 0 0x06 0x18, []) := ⟨rfl, rfl, rfl, rfl⟩

theorem test_decode_pack :
    decode [0x04, 0x0A] = .ok (.packU8 5, []) ∧
    decode [0x05, 0x01] = .ok (.packU16 (-1), []) ∧
    decode [0x06, 0x03] = .ok (.packU32 (-2), []) ∧
    decode [0x07, 0x80, 0x02] = .ok (.packU64 128, []) ∧
    decode [0x08, 0xFF, 0x01] = .ok (.packI8 (-128), []) ∧
    decode [0x09, 0x00] = .ok (.packI16 0, []) ∧
    decode [0x0A, 0x02] = .ok (.packI32 1, []) ∧
    decode [0x0B, 0x05] = .ok (.packI64 (-3), []) ∧
    decode [0x0C, 0x04, 0x02, 0x41, 0x42] = .ok (.packCh 4 ['A', 'B'], []) ∧
    decode [0x0D, 0x03] = .ok (.packPad 3, []) :=
  by decide +kernel

theorem test_decode_unpack :
    decode [0x0E, 0x01, 0x80] = .ok (.unpackU8 [0x80], []) ∧
    decode [0x0F, 0x02, 0x34, 0x12] = .ok (.unpackU16 [0x34, 0x12], []) ∧
    decode [0x10, 0x00] = .ok (.unpackU32 [], []) ∧
    decode [0x11, 0x01, 0x08, 0x99] = .ok (.unpackU64 [0x08], [0x99]) ∧
    decode [0x12, 0x01, 0x80] = .ok (.unpackI8 [0x80], []) ∧
    decode [0x13, 0x02, 0xFE, 0xFF] = .ok (.unpackI16 [0xFE, 0xFF], []) ∧
    decode [0x14, 0x00] = .ok (.unpackI32 [], []) ∧
    decode [0x15, 0x00] = .ok (.unpackI64 [], []) ∧
    decode [0x16, 0x04, 0x01, 0x41] = .ok (.unpackCh 4 [0x41], []) ∧
    decode [0x17, 0x02, 0x02, 0xAA, 0xBB] = .ok (.unpackPad 2 [0xAA, 0xBB], []) :=
  ⟨rfl, rfl, rfl, rfl, rfl, rfl, rfl, rfl, rfl, rfl⟩

theorem test_decode_fieldSets :
    decode [0x18] = .ok (.fsNew, []) ∧
    decode [0x19, 0x02, 0x04, 0x01, 0x76] = .ok (.fsAdd 2 (.int .i8) ['v'], []) ∧
    decode [0x1A, 0x00, 0x01, 0x6E] = .ok (.fsGet 0 ['n'], []) ∧
    decode [0x1B, 0x00, 0x01, 0x61, 0x04] = .ok (.fsSet 0 ['a'] (.int 1), []) ∧
    decode [0x1C, 0x03] = .ok (.fsPack 3, []) ∧
    decode [0x1D, 0x00, 0x01, 0xAA, 0x02] = .ok (.fsUnpack 0 [0xAA] 2, []) ∧
    decode [0x1E, 0x00, 0x01, 0x00, 0x02, 0x69, 0x64, 0x04, 0x01, 0x67] =
      .ok (.fsAddGroup 0 [(.int .u8, ['i', 'd'])] 2 ['g'], []) :=
  ⟨rfl, rfl, rfl, rfl, rfl, rfl, rfl⟩

theorem test_decode_bitFlags :
    decode [0x1F, 0xB0, 0x01, 0x04, 0x01] = .ok (.bfGet 0xB0 4 2, []) ∧
    decode [0x20, 0x00, 0x03, 0x00, 0x02] = .ok (.bfSet 0 3 1 1, []) := ⟨rfl, rfl⟩

theorem test_decode_configItems :
    decode [0x21, 0x42, 0x02, 0x20] = .ok (.cfgKeyMake 0x21 1 16, []) ∧
    decode [0x22, 0x01, 0x00, 0x21, 0x30] = .ok (.cfgKeyFields 0x30210001, []) ∧
    decode [0x23, 0x01, 0x00, 0x21, 0x30, 0x02] = .ok (.cfgValPack 0x30210001 1, []) ∧
    decode [0x24, 0x23, 0x00, 0x10, 0x10, 0x01, 0x07] = .ok (.cfgValUnpack 0x10100023 [0x07], []) ∧
    decode [0x25, 0x01, 0x00, 0x21, 0x30, 0xF4, 0x03] = .ok (.cfgItemPack 0x30210001 250, []) ∧
    decode [0x26, 0x02, 0x01, 0x00] = .ok (.cfgItemUnpack [0x01, 0x00], []) := by decide +kernel

theorem test_decode_envelope :
    decode [0x27, 0x06, 0x00, 0x00, 0x06] = .ok (.identEq ⟨0x06, 0x00⟩ ⟨0x00, 0x06⟩, []) ∧
    decode [0x28, 0x02, 0x01, 0x02] = .ok (.envLength [0x01, 0x02], []) ∧
    decode [0x29, 0x05, 0x01, 0x02, 0x06, 0x01] = .ok (.envToBytes ⟨0x05, 0x01⟩ [0x06, 0x01], []) ∧
    decode [0x2A, 0x01] = .ok (.envPack 1, []) ∧
    decode [0x2B, 0x01, 0x01, 0xAA] = .ok (.envUnpack 1 [0xAA], []) := ⟨rfl, rfl, rfl, rfl, rfl⟩

theorem test_decode_parser :
    decode [0x2C, 0xB5] = .ok (.step 0xB5, []) ∧
    decode [0x2D, 0x03, 0xB5, 0x62, 0x06, 0x31] = .ok (.process [0xB5, 0x62, 0x06], [0x31]) ∧
    decode [0x2E, 0x02, 0x05, 0x01, 0x05, 0x00] = .ok (.setFilters [⟨5, 1⟩, ⟨5, 0⟩], []) ∧
    decode [0x2F, 0x13, 0x40] = .ok (.setFilter ⟨0x13, 0x40⟩, []) ∧
    decode [0x30] = .ok (.restart, []) ∧
    decode [0x31] = .ok (.packet, []) ∧
    decode [0x32] = .ok (.emptyQueue, []) ∧
    decode [0x33] = .ok (.reset, []) := ⟨rfl, rfl, rfl, rfl, rfl, rfl, rfl, rfl⟩

/-- No command has an index above 51, a stream may end early, and 0xD800 is no character. -/
theorem test_decode_rejects :
    decode [0x34] = .error (.unknownCommand 52) ∧
    decode [0xFF] = .error (.unknownCommand 255) ∧
    decode [0x00, 0x05] = .error .truncated ∧
    decode [0x0C, 0x04, 0x01, 0x80, 0xB0, 0x03] = .error (.badCharacter 0xD800) := ⟨rfl, rfl, rfl, rfl⟩

/-- Words of opcode_table.json: the fixed bytes of the parser, and commands with zero operands. -/
theorem test_decode_tableWords :
    decodeTableWord 8 0xB5 = some .byteWaitSync1Sync ∧
    decodeTableWord 8 0x62 = some .byteWaitSync2Sync ∧
    decodeTableWord 8 0x00 = some (.ckAdd 0 0) ∧
    decodeTableWord 8 0x1F = some (.bfGet 0 0 1) ∧
    decodeTableWord 8 0x33 = some .reset ∧
    decodeTableWord 8 0x34 = none := by decide +kernel

/-! ## The checksum (40_checksum.md) -/

/-- CK-3: the second CK_ADD FF. -/
theorem test_ckAdd_wraps : exec (.ckAdd 0 0xFF) (withAcc 0xFF 0xFF) = .next { withAcc 0xFE 0xFD with res := .done } := rfl
/-- CK-10. -/
theorem test_ckReset : exec (.ckReset 0) (withAcc 0x06 0x18) = .next s0 := rfl
theorem test_ckValue : result (exec (.ckValue 0) (withAcc 0x06 0x18)) = some (.pair 0x06 0x18) := rfl
/-- CK-9. -/
theorem test_ckMatches_ordered : result (exec (.ckMatches 0 0x18 0x06) (withAcc 0x06 0x18)) = some (.bool false) := rfl
theorem test_ckMatches : result (exec (.ckMatches 0 0x06 0x18) (withAcc 0x06 0x18)) = some (.bool true) := rfl
/-- CK-7: the length low byte before the high one. -/
theorem test_checksum_order : Acc.zero.addAll [0x06, 0x00, 0x01, 0x00, 0xAA] = ⟨0xB1, 0xCB⟩ := rfl

/-! ## Fields (41_field_codec.md) -/

/-- FC-1. -/
theorem test_packU8 : result (exec (.packU8 255) s0) = some (.bytes [0xFF]) := rfl
theorem test_packU8_negative : result (exec (.packU8 (-1)) s0) = outOfRange .u8 := rfl
/-- FC-2. -/
theorem test_packU16 : result (exec (.packU16 0x1234) s0) = some (.bytes [0x34, 0x12]) := rfl
theorem test_packU16_range : result (exec (.packU16 65536) s0) = outOfRange .u16 := rfl
/-- FC-3. -/
theorem test_packU32 : result (exec (.packU32 0xDEADBEEF) s0) = some (.bytes [0xEF, 0xBE, 0xAD, 0xDE]) := rfl
theorem test_packU32_range : result (exec (.packU32 0x100000000) s0) = outOfRange .u32 := rfl
/-- FC-4. -/
theorem test_packU64 : result (exec (.packU64 0x0102030405060708) s0) = some (.bytes [8, 7, 6, 5, 4, 3, 2, 1]) := rfl
/-- FC-5. -/
theorem test_packI8 : result (exec (.packI8 (-128)) s0) = some (.bytes [0x80]) := rfl
theorem test_packI8_range : result (exec (.packI8 128) s0) = outOfRange .i8 := rfl
/-- FC-6. -/
theorem test_packI16 : result (exec (.packI16 (-2)) s0) = some (.bytes [0xFE, 0xFF]) := rfl
theorem test_packI16_range : result (exec (.packI16 32768) s0) = outOfRange .i16 := rfl
/-- FC-7. -/
theorem test_packI32 : result (exec (.packI32 (-0x80000000)) s0) = some (.bytes [0, 0, 0, 0x80]) := rfl
/-- FC-8. -/
theorem test_packI64 : result (exec (.packI64 0x7FFFFFFFFFFFFFFF) s0) =
    some (.bytes [0xFF, 0xFF, 0xFF, 0xFF, 0xFF, 0xFF, 0xFF, 0x7F]) := rfl
theorem test_packI64_range : result (exec (.packI64 0x8000000000000000) s0) = outOfRange .i64 := rfl
/-- L1-3. -/
theorem test_packCh_pads : result (exec (.packCh 4 ['A', 'B']) s0) = some (.bytes [0x41, 0x42, 0, 0]) := rfl
/-- FC-17, with a character that is also too many: InvalidEncoding comes first (R309). -/
theorem test_packCh_ascii : result (exec (.packCh 0 [Char.ofNat 0xE9]) s0) =
    some (.raised (.decoding .invalidEncoding (.field (.ch 0) none))) := rfl
/-- FC-22. -/
theorem test_packPad : result (exec (.packPad 3) s0) = some (.bytes [0, 0, 0]) := rfl
/-- FC-12. -/
theorem test_unpackU8 : result (exec (.unpackU8 [0x80]) s0) = some (.unpacked (.int 128) 1) := rfl
/-- FC-15. -/
theorem test_unpackU8_short : result (exec (.unpackU8 []) s0) =
    some (.raised (.decoding .shortBuffer (.field (.int .u8) none))) := rfl
/-- FC-9. -/
theorem test_unpackU16 : result (exec (.unpackU16 [0x34, 0x12, 0xFF]) s0) = some (.unpacked (.int 0x1234) 2) := rfl
/-- FC-13. -/
theorem test_unpackU32_short : result (exec (.unpackU32 [1, 2, 3]) s0) =
    some (.raised (.decoding .shortBuffer (.field (.int .u32) none))) := rfl
theorem test_unpackU32 : result (exec (.unpackU32 [0xEF, 0xBE, 0xAD, 0xDE]) s0) = some (.unpacked (.int 0xDEADBEEF) 4) := rfl
/-- FC-14. -/
theorem test_unpackU64 : result (exec (.unpackU64 [8, 7, 6, 5, 4, 3, 2, 1]) s0) =
    some (.unpacked (.int 0x0102030405060708) 8) := rfl
/-- FC-12. -/
theorem test_unpackI8 : result (exec (.unpackI8 [0x80]) s0) = some (.unpacked (.int (-128)) 1) := rfl
/-- FC-10. -/
theorem test_unpackI16 : result (exec (.unpackI16 [0xFE, 0xFF]) s0) = some (.unpacked (.int (-2)) 2) := rfl
/-- FC-11. -/
theorem test_unpackI32 : result (exec (.unpackI32 [0, 0, 0, 0x80]) s0) = some (.unpacked (.int (-2147483648)) 4) := rfl
/-- The pattern of -2^63, by R163. -/
theorem test_unpackI64 : result (exec (.unpackI64 [0, 0, 0, 0, 0, 0, 0, 0x80]) s0) =
    some (.unpacked (.int (-9223372036854775808)) 8) := rfl
/-- FC-19: the zero inside stays. -/
theorem test_unpackCh_interior_zero : result (exec (.unpackCh 4 [0x41, 0, 0x42, 0]) s0) =
    some (.unpacked (.text ['A', Char.ofNat 0, 'B']) 4) := rfl
/-- FC-21: ShortBuffer comes before InvalidEncoding. -/
theorem test_unpackCh_order : result (exec (.unpackCh 4 [0xFF, 0, 0]) s0) =
    some (.raised (.decoding .shortBuffer (.field (.ch 4) none))) := rfl
/-- FC-22. -/
theorem test_unpackPad : result (exec (.unpackPad 2 [0xAA, 0xBB, 0xCC]) s0) = some (.unpacked (.int 0) 2) := rfl

/-! ## Field sets (41_field_codec.md) -/

/-- A number that names no field set yet (R169; log 8). -/
theorem test_fsNew : result (exec .fsNew (withSet [])) = some (.fieldSet 1) := rfl
/-- FS-12. -/
theorem test_fsAdd : setAfter 0 (exec (.fsAdd 0 (.int .u8) ['x']) s0) = some ⟨[⟨['x'], 0, .int .u8 0⟩], 1⟩ := rfl
/-- FS-4. -/
theorem test_fsAdd_duplicate : exec (.fsAdd 0 (.int .u8) ['a']) (withSet (s1 1 2)) =
    .next { withSet (s1 1 2) with res := .raised (.fieldSet .duplicateName) } := rfl
theorem test_fsGet : result (exec (.fsGet 0 ['c']) (withSet (s1 1 2))) = some (.value (.int 2)) := rfl
/-- FS-5. -/
theorem test_fsGet_unknown : result (exec (.fsGet 0 ['z', 'z']) (withSet (s1 1 2))) =
    some (.raised (.fieldSet .unknownName)) := rfl
/-- FS-8: the range is not checked. -/
theorem test_fsSet : bodyAfter 0 (exec (.fsSet 0 ['a'] (.int 300)) (withSet (s1 1 2))) = some (.int .u8 300) := rfl
/-- FS-6, with a value of the wrong sort: the read-only check comes first (R309). -/
theorem test_fsSet_readOnly : result (exec (.fsSet 0 ['r'] (.text ['x'])) (withSet (s1 1 2))) =
    some (.raised (.fieldSet .readOnlyField)) := rfl
/-- FS-1. -/
theorem test_fsPack : result (exec (.fsPack 0) (withSet (s1 1 0x0203))) = some (.bytes [1, 0, 3, 2]) := rfl
/-- FS-8: nothing is emitted, and the field is named. -/
theorem test_fsPack_range : result (exec (.fsPack 0) (withSet (s1 300 2))) =
    some (.raised (.decoding .outOfRange (.field (.int .u8) (some ['a'])))) := rfl
/-- FS-2. -/
theorem test_fsUnpack : setAfter 0 (exec (.fsUnpack 0 [1, 0xFF, 3, 2, 0x99] 0) (withSet (s1 0 0))) =
    some ⟨s1 1 0x0203, 3⟩ := rfl
/-- FS-3, what is fixed: the error and its field. -/
theorem test_fsUnpack_short : result (exec (.fsUnpack 0 [1, 0xFF, 3] 0) (withSet (s1 0 0))) =
    some (.raised (.decoding .shortBuffer (.field (.int .u16) (some ['c'])))) := rfl
/-- PROG-3: the names and orders of the group. -/
theorem test_fsAddGroup : (setAfter 0 (exec (.fsAddGroup 0 [(.int .u8, ['i', 'd']), (.int .i8, ['v'])] 2 ['g', '_'])
    (withSet []))).map (fun fs => fs.fields.map (fun f => (f.order, f.name))) =
    some [(0, ['g', '_', 'i', 'd', '_', '0']), (1, ['g', '_', 'v', '_', '0']),
      (2, ['g', '_', 'i', 'd', '_', '1']), (3, ['g', '_', 'v', '_', '1'])] := rfl
/-- By hand from R175: a count below 0 adds nothing (log 28). -/
theorem test_fsAddGroup_negative : setAfter 0 (exec (.fsAddGroup 0 [(.int .u8, ['i', 'd'])] (-1) ['g']) (withSet [])) =
    some ⟨[], 0⟩ := rfl

/-! ## Bit flags (41_field_codec.md) -/

/-- BF-1. -/
theorem test_bfGet : result (exec (.bfGet 0xB0 4 2) s0) = some (.int 3) := rfl
/-- BF-4. -/
theorem test_bfSet : result (exec (.bfSet 0xFF 4 4 0) s0) = some (.int 0x0F) := rfl
/-- BF-6. -/
theorem test_bfSet_range : result (exec (.bfSet 0 0 2 4) s0) =
    some (.raised (.decoding .outOfRange (.operand .x 4))) := rfl

/-! ## Configuration items (42_config_item.md) -/

/-- CFG-1. -/
theorem test_cfgKeyMake : result (exec (.cfgKeyMake 255 4095 64) s0) = some (.key 0x50FF0FFF) := rfl
/-- CFG-2, with two operands out of range: group comes first (R309). -/
theorem test_cfgKeyMake_range : result (exec (.cfgKeyMake (-1) 4096 8) s0) =
    some (.raised (.decoding .outOfRange (.operand .group (-1)))) := rfl
/-- CFG-13: the reserved bits are not examined. -/
theorem test_cfgKeyFields : result (exec (.cfgKeyFields 0x3F210001) s0) = some (.keyFields 0x21 1 3 16) := rfl
/-- CFG-10. -/
theorem test_cfgKeyFields_size : result (exec (.cfgKeyFields 0x70000001) s0) =
    some (.raised (.decoding .badSizeCode (.key 0x70000001))) := rfl
/-- CFG-6. -/
theorem test_cfgValPack_signed : result (exec (.cfgValPack 0x40400001 (-5)) (State.resetWith (cSigned 0x40400001))) =
    some (.bytes [0xFB, 0xFF, 0xFF, 0xFF]) := rfl
/-- CFG-4. -/
theorem test_cfgValPack_bit : result (exec (.cfgValPack 0x10100023 2) s0) =
    some (.raised (.decoding .outOfRange (.operand .v 2))) := rfl
/-- CFG-8. -/
theorem test_cfgValUnpack_signed : result (exec (.cfgValUnpack 0x20910007 [0xFF])
    (State.resetWith (cSigned 0x20910007))) = some (.unpacked (.int (-1)) 1) := rfl
theorem test_cfgValUnpack_unsigned : result (exec (.cfgValUnpack 0x20910007 [0xFF]) s0) =
    some (.unpacked (.int 255) 1) := rfl
/-- L1-1. -/
theorem test_cfgItemPack : result (exec (.cfgItemPack 0x30210001 250) s0) =
    some (.bytes [0x01, 0x00, 0x21, 0x30, 0xFA, 0x00]) := rfl
/-- CFG-14. -/
theorem test_cfgItemUnpack : result (exec (.cfgItemUnpack [0x01, 0x00, 0x21, 0x30, 0xFA, 0x00, 0xAA]) s0) =
    some (.item 0x30210001 250 6) := rfl
/-- CFG-12: short in the value. -/
theorem test_cfgItemUnpack_short : result (exec (.cfgItemUnpack [0x01, 0x00, 0x21, 0x30, 0xFA]) s0) =
    some (.raised (.decoding .shortBuffer (.field (.int .u16) none))) := rfl

/-! ## Envelope (43_envelope.md) -/

/-- ENV-9. -/
theorem test_identEq : result (exec (.identEq ⟨0x06, 0x00⟩ ⟨0x00, 0x06⟩) s0) = some (.bool false) := rfl
theorem test_envLength : result (exec (.envLength [6, 1]) s0) = some (.length 2) := rfl
/-- ENV-8. -/
theorem test_envLength_long : result (exec (.envLength (List.replicate 65536 0)) s0) =
    some (.raised (.decoding .payloadTooLong (.payloadLength 65536))) := by
  simp only [exec, execEnvLength, envLength, List.length_replicate]
  rfl
/-- ENV-2. -/
theorem test_envToBytes : result (exec (.envToBytes ⟨0x05, 0x01⟩ [0x06, 0x01]) s0) = some (.bytes f1) := rfl
theorem test_envPack : result (exec (.envPack 0) (withSet (s1 1 0x0203))) = some (.bytes [1, 0, 3, 2]) := rfl
theorem test_envUnpack : result (exec (.envUnpack 0 [1, 0xFF, 3, 2, 0x99]) (withSet (s1 0 0))) =
    some (.rest [0x99]) := rfl

/-! ## Input bytes (44_parser.md): one step each, from the state trace of F0 and from F1 -/

theorem test_byte_sync1 : after Parser.st (exec .byteWaitSync1Sync s0) = some .waitSync2 := rfl
theorem test_byte_sync1_other : exec (.byteWaitSync1Other 0x24) s0 = .next s0 := rfl
theorem test_byte_sync2 : after (fun p => (p.st, p.pck)) (exec .byteWaitSync2Sync
    { at_ .waitSync2 with parser := { (at_ .waitSync2).parser with pck := ⟨1, 2⟩ } }) = some (.class_, ⟨0, 0⟩) := rfl
/-- P-7: the second B5 returns WAIT_SYNC2 to WAIT_SYNC1. -/
theorem test_byte_sync2_other : after Parser.st (exec (.byteWaitSync2Other 0xB5) (at_ .waitSync2)) = some .waitSync1 := rfl
theorem test_byte_class : after (fun p => (p.st, p.cls, p.pck)) (exec (.byteClassAny 0x06) (at_ .class_)) =
    some (.id, 0x06, ⟨0x06, 0x06⟩) := rfl
theorem test_byte_id : after (fun p => (p.st, p.id, p.pck)) (exec (.byteIdAny 0x01)
    { at_ .id with parser := { (at_ .id).parser with pck := ⟨5, 5⟩ } }) = some (.lenLo, 0x01, ⟨6, 11⟩) := rfl
theorem test_byte_lenLo : after (fun p => (p.st, p.lenLo)) (exec (.byteLenLoAny 0x02) (at_ .lenLo)) =
    some (.lenHi, 0x02) := rfl
theorem test_byte_lenHi_zero : after (fun p => (p.st, p.len)) (exec (.byteLenHiZero 0x00) (at_ .lenHi)) =
    some (.crcA, 0) := rfl
/-- P-13 (b): the length 258. -/
theorem test_byte_lenHi_oversize : after (fun p => (p.st, p.diag)) (exec (.byteLenHiOversize 0x01)
    { at_ .lenHi with parser := { (at_ .lenHi).parser with lenLo := 0x02 } }) =
    some (.waitSync1, [.abandoned 258]) := rfl
theorem test_byte_lenHi_payload : after (fun p => (p.st, p.len)) (exec (.byteLenHiPayload 0x00)
    { at_ .lenHi with parser := { (at_ .lenHi).parser with lenLo := 0x02 } }) = some (.payload, 2) := rfl
theorem test_byte_payload_more : after (fun p => (p.st, p.pbuf, p.cnt)) (exec (.bytePayloadMore 0x06)
    { at_ .payload with parser := { (at_ .payload).parser with len := 2 } }) = some (.payload, [0x06], 1) := rfl
theorem test_byte_payload_last : after (fun p => (p.st, p.pbuf, p.cnt)) (exec (.bytePayloadLast 0x01)
    { at_ .payload with parser := { (at_ .payload).parser with len := 2, cnt := 1, pbuf := [0x06] } }) =
    some (.crcA, [0x06, 0x01], 2) := rfl
/-- The checksum bytes are not summed (40_checksum.md R126). -/
theorem test_byte_crcA : after (fun p => (p.st, p.rxa, p.pck)) (exec (.byteCrcAAny 0x06) (at_ .crcA)) =
    some (.crcB, 0x06, ⟨0, 0⟩) := rfl
theorem test_byte_crcB_accept : after (fun p => (p.st, p.q)) (exec (.byteCrcBAccept 0x18)
    { at_ .crcB with parser := { (at_ .crcB).parser with pck := ⟨6, 0x18⟩, rxa := 6, cls := 6, filt := [⟨6, 0⟩] } }) =
    some (.waitSync1, [.packet ⟨6, 0⟩ []]) := rfl
/-- P-2. -/
theorem test_byte_crcB_filtered : after (fun p => (p.st, p.q, p.diag)) (exec (.byteCrcBFiltered 0x18)
    { at_ .crcB with parser := { (at_ .crcB).parser with pck := ⟨6, 0x18⟩, rxa := 6, cls := 6 } }) =
    some (.waitSync1, [], [.filtered ⟨6, 0⟩]) := rfl
/-- P-5. -/
theorem test_byte_crcB_crcError : after (fun p => (p.st, p.q)) (exec (.byteCrcBCrcError 0x19)
    { at_ .crcB with parser := { (at_ .crcB).parser with pck := ⟨6, 0x18⟩, rxa := 6, cls := 6 } }) =
    some (.waitSync1, [.crcError]) := rfl

/-! ## The parser's commands -/

theorem test_step : after Parser.st (exec (.step 0xB5) s0) = some .waitSync2 := rfl
/-- P-9. -/
theorem test_process_false_frame : after Parser.q (exec (.process (f0 ++ [0xB5, 0x62, 0x01, 0x02, 0x03, 0x00] ++ f1))
    (filtered [⟨6, 0⟩, ⟨5, 1⟩])) = some [.packet ⟨6, 0⟩ [], .crcError] := rfl
/-- P-23: the overflow at the second F0, and the byte after it that no step takes. -/
theorem test_process_overflow : (match exec (.process (f0 ++ f0 ++ [0xB5]))
    { State.resetWith c2 with parser := { Parser.reset with filt := [⟨6, 0⟩] } } with
    | .next t => some (t.parser.st, t.parser.q, t.parser.fault, t.rx)
    | _ => none) = some (.waitSync1, [.packet ⟨6, 0⟩ []], some (.queueOverflow (.packet ⟨6, 0⟩ [])), [0xB5]) := rfl
/-- PROG-1: the filter is {(5,0), (5,1)}. -/
theorem test_setFilters : after Parser.filt (exec (.setFilters [⟨5, 1⟩, ⟨5, 0⟩, ⟨5, 1⟩]) s0) = some [⟨5, 0⟩, ⟨5, 1⟩] := rfl
theorem test_setFilter : after Parser.filt (exec (.setFilter ⟨6, 0⟩) (filtered [⟨5, 1⟩])) = some [⟨6, 0⟩] := rfl
/-- R252: only `st` is written. -/
theorem test_restart : after (fun p => (p.st, p.cnt)) (exec .restart
    { at_ .payload with parser := { (at_ .payload).parser with cnt := 1 } }) = some (.waitSync1, 1) := rfl
/-- P-24: the oldest entry first. -/
theorem test_packet : (match exec .packet { s0 with parser := { Parser.reset with q := [.crcError, .packet ⟨6, 0⟩ []] } } with
    | .next t => some (t.res, t.parser.q)
    | _ => none) = some (.crcError, [.packet ⟨6, 0⟩ []]) := rfl
theorem test_packet_empty : result (exec .packet s0) = some .noPacket := rfl
theorem test_emptyQueue : after Parser.q (exec .emptyQueue { s0 with parser := { Parser.reset with q := [.crcError] } }) =
    some [] := rfl
theorem test_reset : exec .reset { stuck with rx := [0xB5], accs := [(0, ⟨6, 0x18⟩)] } = .next s0 := rfl

/-! ## Steps -/

/-- An idle machine stays as it is; a producer with a byte is stuck while `fault` is set (PROG-5). -/
theorem test_step_idle : step s0 = .next s0 := rfl
theorem test_step_stuck : step { stuck with rx := [0xB5] } = .fault .producerStuck := rfl
/-- A word of opcode_table.json runs as the next instruction. -/
theorem test_withFetchWord : after Parser.st (step (s0.withFetchWord 8 0x62)) = some .class_ ∧
    result (step (s0.withFetchWord 8 0x18)) = some (.fieldSet 0) := by decide +kernel

/-! ## Witnesses: for every statement with hypotheses, and for each of its clauses, values that meet them all -/

/-- The invariant of the reset state, whatever the parameters. -/
theorem inv_reset (c : Params) : State.Inv (State.resetWith c) := by
  constructor
  · constructor <;> simp [State.resetWith, Parser.reset, Parser.inFrame, identsRise]
  all_goals simp [State.resetWith, numbersRise]

theorem witness_StepRunsTheDecodedInstruction_byte :
    ({ s0 with rx := [0xB5] } : State).rx = 0xB5 :: [] ∧ ({ s0 with rx := [0xB5] } : State).parser.fault = none :=
  ⟨rfl, rfl⟩
theorem witness_StepRunsTheDecodedInstruction_command :
    ({ s0 with cmds := [0x30] } : State).rx = [] ∧ decode ({ s0 with cmds := [0x30] } : State).cmds = .ok (.restart, []) :=
  ⟨rfl, rfl⟩
theorem witness_StepRunsTheDecodedInstruction_command_under_fault :
    ({ stuck with rx := [0xB5], cmds := [0x31] } : State).parser.fault ≠ none ∧
    decode ({ stuck with rx := [0xB5], cmds := [0x31] } : State).cmds = .ok (.packet, []) := ⟨by decide, rfl⟩
theorem witness_StepRunsTheDecodedInstruction_idle : s0.rx = [] ∧ s0.cmds = [] := ⟨rfl, rfl⟩
theorem witness_StepRunsTheDecodedInstruction_stuck :
    ({ stuck with rx := [0xB5] } : State).rx ≠ [] ∧ ({ stuck with rx := [0xB5] } : State).parser.fault ≠ none ∧
    ({ stuck with rx := [0xB5] } : State).cmds = [] := ⟨by decide, by decide, rfl⟩

theorem witness_DecodeReadsBackEncode :
    isCommand (.bfGet 0 0 1) = true ∧ (Instr.bfGet 0 0 1).wellFormed = true := ⟨rfl, rfl⟩

theorem witness_EveryOperationCompletes_command : isCommand (.packU8 (-1)) = true := rfl
theorem witness_EveryOperationCompletes_sync :
    s0.parser.fault = none ∧ tableCondition c64 s0.parser 0xB5 .waitSync1Sync ∧
    tableCondition c64 s0.parser 0xB4 .waitSync1Other ∧
    tableCondition c64 (at_ .waitSync2).parser 0x62 .waitSync2Sync ∧
    tableCondition c64 (at_ .waitSync2).parser 0x63 .waitSync2Other :=
  ⟨rfl, ⟨rfl, rfl⟩, ⟨rfl, by decide⟩, ⟨rfl, rfl⟩, ⟨rfl, by decide⟩⟩
theorem witness_EveryOperationCompletes_header :
    tableCondition c64 (at_ .class_).parser 0 .classAny ∧ tableCondition c64 (at_ .id).parser 0 .idAny ∧
    tableCondition c64 (at_ .lenLo).parser 0 .lenLoAny := ⟨rfl, rfl, rfl⟩
theorem witness_EveryOperationCompletes_length :
    tableCondition c64 (at_ .lenHi).parser 0 .lenHiZero ∧
    tableCondition c64 { (at_ .lenHi).parser with lenLo := 65 } 0 .lenHiOversize ∧
    tableCondition c64 { (at_ .lenHi).parser with lenLo := 64 } 0 .lenHiPayload ∧
    tableCondition c64 { (at_ .lenHi).parser with lenLo := 1 } 0 .lenHiPayload :=
  ⟨⟨rfl, by decide⟩, ⟨rfl, by decide⟩, ⟨rfl, by decide, by decide⟩, ⟨rfl, by decide, by decide⟩⟩
theorem witness_EveryOperationCompletes_payload :
    tableCondition c64 { (at_ .payload).parser with len := 2 } 0 .payloadMore ∧
    tableCondition c64 { (at_ .payload).parser with len := 1 } 0 .payloadLast := ⟨⟨rfl, by decide⟩, ⟨rfl, by decide⟩⟩
theorem witness_EveryOperationCompletes_checksum :
    tableCondition c64 (at_ .crcA).parser 0 .crcAAny ∧
    tableCondition c64 { (at_ .crcB).parser with filt := [⟨0, 0⟩] } 0 .crcBAccept ∧
    tableCondition c64 (at_ .crcB).parser 0 .crcBFiltered ∧
    tableCondition c64 (at_ .crcB).parser 1 .crcBCrcError :=
  ⟨rfl, ⟨rfl, rfl, by decide⟩, ⟨rfl, rfl, by decide⟩, ⟨rfl, by decide⟩⟩

theorem witness_EveryStepKeepsTheInvariant :
    State.Inv ({ s0 with rx := [0xB5] } : State) ∧
    step { s0 with rx := [0xB5] } = .next { s0 with parser := { Parser.reset with st := .waitSync2 } } :=
  ⟨⟨(inv_reset c64).parser, (inv_reset c64).accs, (inv_reset c64).sets, (inv_reset c64).fieldSets⟩, rfl⟩
theorem witness_NoStepWritesTheParameters :
    step { s0 with cmds := [0x30] } = .next s0 := rfl
theorem witness_CodecCommandsLeaveTheParserAlone :
    isCodecCommand (.ckReset 0) = true ∧ exec (.ckReset 0) s0 = .next s0 := ⟨rfl, rfl⟩
theorem witness_ParserOperationsLeaveTheCodecAlone :
    isCodecCommand .restart = false ∧ Instr.restart ≠ .reset ∧ exec .restart s0 = .next s0 := ⟨rfl, by decide, rfl⟩

theorem witness_SingleByteCorruptionIsDetected : 1 < [(0 : Byte), 0x80].length ∧ (0 : Byte) ≠ [(0 : Byte), 0x80][1] := by
  decide

theorem witness_UnsignedPack : IntKind.signed .u8 = false ∧ IntKind.signed .u64 = false := ⟨rfl, rfl⟩
theorem witness_SignedPack : IntKind.signed .i8 = true ∧ IntKind.signed .i64 = true := ⟨rfl, rfl⟩
theorem witness_UnsignedUnpack : IntKind.signed .u16 = false ∧ IntKind.signed .u32 = false := ⟨rfl, rfl⟩
theorem witness_SignedUnpack : IntKind.signed .i16 = true ∧ IntKind.signed .i32 = true := ⟨rfl, rfl⟩
theorem witness_StringPackPadsWithZeros_encoding : ∃ c ∈ [Char.ofNat 0x80], 0x7F < c.toNat :=
  ⟨Char.ofNat 0x80, by simp, by decide⟩
theorem witness_StringPackPadsWithZeros_long :
    (∀ c ∈ [Char.ofNat 0x7F], c.toNat ≤ 0x7F) ∧ 0 < [Char.ofNat 0x7F].length :=
  ⟨fun c h => by rw [List.mem_singleton.1 h]; decide, by decide⟩
theorem witness_StringPackPadsWithZeros_fits :
    (∀ c ∈ [Char.ofNat 0x7F], c.toNat ≤ 0x7F) ∧ [Char.ofNat 0x7F].length ≤ 1 :=
  ⟨fun c h => by rw [List.mem_singleton.1 h]; decide, by decide⟩
theorem witness_StringUnpackStripsTrailingZeros_short : [(0x41 : Byte)].length < 2 := by decide
theorem witness_StringUnpackStripsTrailingZeros_encoding :
    1 ≤ [(0x80 : Byte)].length ∧ ∃ b ∈ [(0x80 : Byte)].take 1, 0x7F < b.toNat := by decide
theorem witness_StringUnpackStripsTrailingZeros_fits :
    1 ≤ [(0x7F : Byte), 0x80].length ∧ ∀ b ∈ [(0x7F : Byte), 0x80].take 1, b.toNat ≤ 0x7F := by decide
theorem witness_PackThenUnpackGivesTheValue :
    IntKind.lo .i8 ≤ -128 ∧ (-128 : Int) ≤ IntKind.hi .i8 ∧ IntKind.lo .u64 ≤ 18446744073709551615 ∧
      (18446744073709551615 : Int) ≤ IntKind.hi .u64 := by decide

theorem inv_s1 : FieldSet.Inv ((withSet (s1 1 2)).fieldSet 0) := by
  constructor <;> decide
theorem witness_FsAdd_duplicate : ∃ f ∈ ((withSet (s1 1 2)).fieldSet 0).fields, f.name = ['a'] :=
  ⟨⟨['a'], 0, .int .u8 1⟩, by decide, rfl⟩
theorem witness_FsAdd_new : ∀ f ∈ ((withSet (s1 1 2)).fieldSet 0).fields, f.name ≠ ['b'] := by decide
theorem witness_FsGet_unknown : ∀ f ∈ (s0.fieldSet 0).fields, f.name ≠ [] := by decide
theorem witness_FsGet_known :
    ⟨['c'], 2, .int .u16 2⟩ ∈ ((withSet (s1 1 2)).fieldSet 0).fields ∧ FieldSet.Inv ((withSet (s1 1 2)).fieldSet 0) :=
  ⟨by decide, inv_s1⟩
theorem witness_FsSet_unknown : ∀ f ∈ ((withSet (s1 1 2)).fieldSet 0).fields, f.name ≠ ['z'] := by decide
/-- FsSet: a field of each kind stands in a set with the invariant; the values of both sorts are the statement's. -/
theorem witness_FsSet_known : FieldSet.Inv ((withSet (s1 1 2)).fieldSet 0) ∧
    ⟨['a'], 0, .int .u8 1⟩ ∈ ((withSet (s1 1 2)).fieldSet 0).fields ∧
    ⟨['r'], 1, .pad 1 0⟩ ∈ ((withSet (s1 1 2)).fieldSet 0).fields := ⟨inv_s1, by decide, by decide⟩
theorem witness_FsSet_text : FieldSet.Inv ((withSet [⟨['s'], 0, .ch 4 []⟩]).fieldSet 0) ∧
    ⟨['s'], 0, .ch 4 []⟩ ∈ ((withSet [⟨['s'], 0, .ch 4 []⟩]).fieldSet 0).fields :=
  ⟨by constructor <;> decide, by decide⟩
theorem witness_FieldSetPackJoinsTheFieldsInOrder_all :
    ((withSet (s1 1 2)).fieldSet 0).fields.map (fun f => exec (packCommand f.body) (withSet (s1 1 2))) =
      [[(1 : Byte)], [0], [2, 0]].map (fun bs => .next { withSet (s1 1 2) with res := .bytes bs }) := rfl
theorem witness_FieldSetPackJoinsTheFieldsInOrder_error :
    let s := withSet (s1 1 65536)
    (s.fieldSet 0).fields = [⟨['a'], 0, .int .u8 1⟩, ⟨['r'], 1, .pad 1 0⟩] ++ ⟨['c'], 2, .int .u16 65536⟩ :: [] ∧
    exec (packCommand (.int .u8 1)) s = .next { s with res := .bytes [1] } ∧
    exec (packCommand (.pad 1 0)) s = .next { s with res := .bytes [0] } ∧
    exec (packCommand (.int .u16 65536)) s =
      .next { s with res := .raised (.decoding .outOfRange (.field (.int .u16) none)) } := ⟨rfl, rfl, rfl, rfl⟩
theorem witness_FieldSetUnpackSlicesTheBuffer :
    let s := withSet (s1 0 0)
    (s.fieldSet 0).fields.drop 1 = [⟨['r'], 1, .pad 1 0⟩, ⟨['c'], 2, .int .u16 0⟩] ∧
    exec (unpackCommand (.pad 1) ([0xFF, 3, 2, 0x99].drop (fieldOffset ((s.fieldSet 0).fields.drop 1) 0))) s =
      .next { s with res := .unpacked (.int 0) 1 } ∧
    exec (unpackCommand (.int .u16) ([0xFF, 3, 2, 0x99].drop (fieldOffset ((s.fieldSet 0).fields.drop 1) 1))) s =
      .next { s with res := .unpacked (.int 0x0203) 2 } := ⟨rfl, rfl, rfl⟩
theorem witness_FieldSetUnpackSlicesTheBuffer_past_the_end :
    ([] : List Value).length = (((withSet (s1 0 0)).fieldSet 0).fields.drop 4).length := rfl
theorem witness_FailedFieldSetUnpackKeepsTheSchema :
    let s := withSet (s1 0 0)
    let before : List Field := [⟨['a'], 0, .int .u8 0⟩, ⟨['r'], 1, .pad 1 0⟩]
    (s.fieldSet 0).fields.drop 0 = before ++ ⟨['c'], 2, .int .u16 0⟩ :: [] ∧
    exec (unpackCommand (.int .u8) ([1, 0xFF, 3].drop (fieldOffset before 0))) s =
      .next { s with res := .unpacked (.int 1) 1 } ∧
    exec (unpackCommand (.pad 1) ([1, 0xFF, 3].drop (fieldOffset before 1))) s =
      .next { s with res := .unpacked (.int 0) 1 } ∧
    exec (unpackCommand (.int .u16) ([1, 0xFF, 3].drop (fieldOffset before before.length))) s =
      .next { s with res := .raised (.decoding .shortBuffer (.field (.int .u16) none)) } := ⟨rfl, rfl, rfl, rfl⟩
theorem witness_FsAddGroupIsItsFsAdds_all :
    ((s0.fieldSet 0).fields.map Field.name ++ (groupFields [(.int .u8, ['i'])] 2 []).map Prod.snd).Nodup := by decide
theorem witness_FsAddGroupIsItsFsAdds_none : (-1 : Int) ≤ 0 ∧ (0 : Int) ≤ 0 := by decide
/-- The template holds one base name twice. -/
theorem witness_FsAddGroupIsItsFsAdds_duplicate :
    groupFields [(.int .u8, ['i']), (.int .i8, ['i'])] 1 [] =
      [(.int .u8, ['i', '_', '0'])] ++ (.int .i8, ['i', '_', '0']) :: [] ∧
    ((s0.fieldSet 0).fields.map Field.name ++ [(['i', '_', '0'] : Text)]).Nodup ∧
    (['i', '_', '0'] : Text) ∈ (s0.fieldSet 0).fields.map Field.name ++ [['i', '_', '0']] := by decide
theorem witness_FieldSetPackThenUnpackGivesTheValues :
    (0 : Nat) ≠ 1 ∧ (∀ f ∈ s1 255 65535, packable f.body) ∧
    (s1 0 0).map (fun f => f.body.kind) = (s1 255 65535).map (fun f => f.body.kind) := by
  refine ⟨by decide, ?_, rfl⟩
  simp [s1, packable, IntKind.lo, IntKind.hi, IntKind.signed, IntKind.bytes]

theorem witness_BfGetReadsTheBitRange : 1 ≤ 1 := by decide
theorem witness_BfSetReplacesTheBitRange_range : 1 ≤ 2 ∧ ¬(0 ≤ (4 : Int) ∧ (4 : Int) < 2 ^ 2) := by decide
theorem witness_BfSetReplacesTheBitRange_fits : 1 ≤ 2 ∧ 0 ≤ (3 : Int) ∧ (3 : Int) < 2 ^ 2 := by decide

theorem witness_CfgValUnpack_sizes :
    BitVec.toNat (0x00000000 : Key) / 2 ^ 28 % 8 = 0 ∧ BitVec.toNat (0x10100023 : Key) / 2 ^ 28 % 8 = 1 ∧
    BitVec.toNat (0x20910007 : Key) / 2 ^ 28 % 8 = 2 ∧ BitVec.toNat (0x50050010 : Key) / 2 ^ 28 % 8 = 5 ∧
    BitVec.toNat (0x60000000 : Key) / 2 ^ 28 % 8 = 6 ∧ BitVec.toNat (0x70000001 : Key) / 2 ^ 28 % 8 = 7 := by decide
theorem witness_CfgValUnpack_bit : BitVec.toNat (1 : Byte) ≤ 1 ∧ 1 < BitVec.toNat (2 : Byte) := by decide
theorem witness_CfgValUnpack_widths : [(0 : Byte), 0, 0, 0, 0, 0, 0].length < IntKind.bytes .u64 ∧
    IntKind.bytes .u64 ≤ [(0 : Byte), 0, 0, 0, 0, 0, 0, 0].length ∧ ([] : List Byte).length < IntKind.bytes .i8 := by decide
theorem witness_CfgItemUnpackReadsKeyThenValue :
    [(1 : Byte), 0, 0x21].length < 4 ∧ 4 ≤ [(1 : Byte), 0, 0x21, 0x30].length := by decide
theorem witness_CfgItemPackThenUnpackGivesTheItem :
    exec (.cfgItemPack 0x30210001 65535) s0 = .next { s0 with res := .bytes [0x01, 0x00, 0x21, 0x30, 0xFF, 0xFF] } := rfl

theorem witness_EnvelopeIsTheWireFrame_long : 65535 < (List.replicate 65536 (0 : Byte)).length := by
  rw [List.length_replicate]; norm_num
theorem witness_EnvelopeIsTheWireFrame_fits : (List.replicate 65535 (0 : Byte)).length ≤ 65535 := by
  rw [List.length_replicate]

theorem witness_EveryByteMatchesExactlyOneRow :
    let p : Parser := { Parser.reset with st := .payload, len := 1 }
    p.st = .payload → p.cnt < p.len.toNat := fun _ => by decide
theorem witness_SyncSearchWaitsForB5 : s0.parser.st = .waitSync1 ∧ s0.parser.fault = none ∧ (0xB4 : Byte) ≠ 0xB5 :=
  ⟨rfl, rfl, by decide⟩
theorem witness_SecondSyncByteStartsAFrame :
    (at_ .waitSync2).parser.st = .waitSync2 ∧ (at_ .waitSync2).parser.fault = none ∧ (0xB5 : Byte) ≠ 0x62 :=
  ⟨rfl, rfl, by decide⟩
theorem witness_HeaderBytesAreCapturedAndSummed :
    (at_ .class_).parser.fault = none ∧ (at_ .class_).parser.st = .class_ ∧ (at_ .id).parser.fault = none ∧
    (at_ .id).parser.st = .id ∧ (at_ .lenLo).parser.fault = none ∧ (at_ .lenLo).parser.st = .lenLo :=
  ⟨rfl, rfl, rfl, rfl, rfl, rfl⟩
/-- Lengths 0, 1, 64 and 65 of `MAX_MSG_LEN` = 64. -/
theorem witness_LengthGuardAbandonsOversizedFrames :
    (at_ .lenHi).parser.fault = none ∧ (at_ .lenHi).parser.st = .lenHi ∧ wireLength 0 0 = 0 ∧ 0 < wireLength 1 0 ∧
    wireLength 64 0 ≤ c64.maxMsgLen.val ∧ c64.maxMsgLen.val < wireLength 65 0 :=
  ⟨rfl, rfl, by decide, by decide, by decide, by decide⟩
theorem witness_PayloadIsCapturedUpToLen :
    (at_ .payload).parser.fault = none ∧ (at_ .payload).parser.st = .payload ∧ 0 + 1 < BitVec.toNat (2 : BitVec 16) ∧
    0 + 1 = BitVec.toNat (1 : BitVec 16) ∧ (at_ .crcA).parser.st = .crcA :=
  ⟨rfl, rfl, by decide, by decide, rfl⟩
/-- The clauses of the last byte: agreement or not, in the filter or not, a queue of capacity 1 with room and full. -/
theorem witness_LastByteVerifiesFiltersAndEnqueues :
    (at_ .crcB).parser.fault = none ∧ (at_ .crcB).parser.st = .crcB ∧
    ((at_ .crcB).parser.rxa = (at_ .crcB).parser.pck.a ∧ (0 : Byte) = (at_ .crcB).parser.pck.b) ∧
    (1 : Byte) ≠ (at_ .crcB).parser.pck.b ∧ (⟨0, 0⟩ : Ident) ∈ (filtered [⟨0, 0⟩]).parser.filt ∧
    (⟨0, 0⟩ : Ident) ∉ (at_ .crcB).parser.filt ∧ hasRoom c2 0 ∧ hasRoom c64 0 ∧
    c2.queueCapacity = some ⟨1, by decide⟩ ∧ [Entry.crcError].length = 1 := by
  refine ⟨rfl, rfl, ⟨rfl, rfl⟩, by decide, by decide, by decide, ?_, ?_, rfl, rfl⟩
  · intro k h
    cases h
    decide
  · intro k h
    cases h
theorem witness_FaultStopsByteStepsUntilReset :
    stuck.parser.fault ≠ none ∧ [(0xB5 : Byte)] ≠ [] ∧ Instr.packet ≠ .reset ∧
    isCommand .packet = true ∧ exec .packet stuck = .next { stuck with res := .noPacket } ∧ exec .reset stuck = .next s0 :=
  ⟨by decide, by decide, by decide, rfl, rfl, rfl⟩

theorem witness_StepCommandPerformsTheSelectedRow : s0.parser.fault = none ∧ s0.rx = [] := ⟨rfl, rfl⟩
theorem witness_ProcessIsStepsInOrder :
    exec (.process [0xB5]) s0 = .next { s0 with parser := { Parser.reset with st := .waitSync2 } } ∧ s0.rx = [] ∧
    [(0xB5 : Byte)] ≠ [] := ⟨rfl, rfl, by decide⟩
theorem witness_SetFiltersReplacesTheFilter (i : Ident) :
    i ∈ [(⟨5, 0⟩ : Ident), ⟨5, 1⟩] ↔ i ∈ [(⟨5, 1⟩ : Ident), ⟨5, 0⟩, ⟨5, 1⟩] := by simp; tauto
theorem witness_PacketReturnsTheOldestEntry :
    s0.parser.q = [] ∧
    ({ Parser.reset with q := [.packet ⟨6, 0⟩ [], .crcError] } : Parser).q = .packet ⟨6, 0⟩ [] :: [.crcError] ∧
    ({ Parser.reset with q := [.crcError] } : Parser).q = .crcError :: [] := ⟨rfl, rfl, rfl⟩
/-- In CRC_B with the pair (0,0) expected of identity (0,0), the filter holding it, and a queue of capacity 1. -/
def atLast (q : List Entry) : State :=
  { State.resetWith c2 with parser := { Parser.reset with st := .crcB, filt := identSet [⟨0, 0⟩], q := q } }
theorem witness_QueueIsFirstInFirstOut_rows :
    after (fun p => (p.q, p.fault)) (exec (.byteCrcBAccept 0) (atLast [])) = some ([.packet ⟨0, 0⟩ []], none) ∧
    after (fun p => (p.q, p.fault)) (exec (.byteCrcBAccept 0) (atLast [.crcError])) =
      some ([.crcError], some (.queueOverflow (.packet ⟨0, 0⟩ []))) ∧
    after (fun p => (p.q, p.fault)) (exec (.byteCrcBCrcError 1) (atLast [])) = some ([.crcError], none) ∧
    after (fun p => (p.q, p.fault)) (exec (.byteCrcBCrcError 1) (atLast [.crcError])) =
      some ([.crcError], some (.queueOverflow .crcError)) := ⟨rfl, rfl, rfl, rfl⟩
theorem witness_QueueIsFirstInFirstOut_commands :
    after Parser.q (exec (.step 0) (atLast [])) = some [.packet ⟨0, 0⟩ []] ∧
    after Parser.q (exec (.process [0]) (atLast [])) = some [.packet ⟨0, 0⟩ []] ∧
    after Parser.q (exec .packet (atLast [.crcError])) = some [] ∧ exec .emptyQueue s0 = .next s0 ∧
    exec .reset s0 = .next s0 := ⟨rfl, rfl, rfl, rfl, rfl⟩

theorem witness_SerializedFrameIsReceived :
    s0.parser.st = .waitSync1 ∧ s0.parser.fault = none ∧ s0.rx = [] ∧
    ([6, 1] : List Byte).length ≤ c2.maxMsgLen.val ∧ hasRoom c2 0 ∧
    (⟨5, 1⟩ : Ident) ∈ (filtered [⟨5, 1⟩]).parser.filt ∧ (⟨5, 1⟩ : Ident) ∉ s0.parser.filt := by
  refine ⟨rfl, rfl, rfl, by decide, ?_, by decide, by decide⟩
  intro k h
  cases h
  decide
theorem witness_OversizedFrameIsAbandonedAtItsSixthByte :
    c2.maxMsgLen.val < ([6, 1, 7] : List Byte).length ∧ ([6, 1, 7] : List Byte).length ≤ 65535 ∧
    (State.resetWith c2).parser.st = .waitSync1 ∧ (State.resetWith c2).parser.fault = none ∧
    (State.resetWith c2).rx = [] := ⟨by decide, by decide, rfl, rfl, rfl⟩
/-- The offsets 2, 3, the first payload byte 6, and the last checksum byte 9 of F1. -/
theorem witness_CorruptedFrameGivesCrcError :
    (wireFrame ⟨5, 1⟩ [6, 1])[2]? ≠ some 4 ∧ (wireFrame ⟨5, 1⟩ [6, 1])[3]? ≠ some 0 ∧
    (wireFrame ⟨5, 1⟩ [6, 1])[6]? ≠ some 7 ∧ (wireFrame ⟨5, 1⟩ [6, 1])[9]? ≠ some 0x39 ∧
    6 ≤ 9 ∧ 9 < 8 + ([6, 1] : List Byte).length ∧ ([6, 1] : List Byte).length ≤ c64.maxMsgLen.val ∧ hasRoom c64 0 := by
  refine ⟨by decide, by decide, by decide, by decide, by decide, by decide, by decide, ?_⟩
  intro k h
  cases h
theorem witness_ParserResynchronises :
    State.Inv (at_ .waitSync2) ∧ (at_ .waitSync2).parser.st ≠ .waitSync1 ∧ (at_ .waitSync2).parser.fault = none ∧
    (at_ .waitSync2).rx = [] ∧ (List.replicate 71 (0 : Byte)).length = 7 + c64.maxMsgLen.val := by
  refine ⟨?_, by decide, rfl, rfl, by decide⟩
  constructor
  · constructor <;> simp [at_, s0, State.resetWith, Parser.reset, Parser.inFrame, identsRise]
  all_goals simp [at_, s0, State.resetWith, numbersRise]

end Sys2Proof.Tests
end

section
/-! PROOFS. The checksum commands on the accumulators (40_checksum.md R120-R123). -/

namespace Sys2Proof.Machine

open Sys2Proof

/-! ## What the commands do -/

theorem exec_ckAdd (n : Nat) (x : Byte) (s : State) :
    exec (.ckAdd n x) s = .next ((s.setAcc n ((s.acc n).add x)).finish .done) := rfl

theorem exec_ckReset (n : Nat) (s : State) :
    exec (.ckReset n) s = .next ((s.setAcc n Acc.zero).finish .done) := rfl

theorem exec_ckValue (n : Nat) (s : State) :
    exec (.ckValue n) s = .next (s.finish (.pair (s.acc n).a (s.acc n).b)) := rfl

theorem exec_ckMatches (n : Nat) (ra rb : Byte) (s : State) :
    exec (.ckMatches n ra rb) s = .next (s.finish (.bool ((s.acc n).agrees ra rb))) := rfl

/-! ## Writing an accumulator -/

@[simp] theorem State.acc_setAcc_self (s : State) (n : Nat) (v : Acc) : (s.setAcc n v).acc n = v := by
  rw [State.acc_setAcc, if_pos rfl]

theorem State.acc_setAcc_of_ne (s : State) {n m : Nat} (h : m ≠ n) (v : Acc) : (s.setAcc n v).acc m = s.acc m := by
  rw [State.acc_setAcc, if_neg h]

/-- A command that writes one accumulator and answers changes the accumulators and the result only. -/
theorem State.finish_setAcc_frame (s : State) (n : Nat) (v : Acc) (r : Result) :
    (s.setAcc n v).finish r = { s with accs := ((s.setAcc n v).finish r).accs, res := r } := rfl

/-! ## The two counters -/

theorem Acc.toNat_add_a (acc : Acc) (x : Byte) : (acc.add x).a.toNat = (acc.a.toNat + x.toNat) % 256 :=
  BitVec.toNat_add ..

/-- `b` accumulates the new `a` (R120). -/
theorem Acc.toNat_add_b (acc : Acc) (x : Byte) :
    (acc.add x).b.toNat = (acc.b.toNat + (acc.add x).a.toNat) % 256 :=
  BitVec.toNat_add ..

/-- Both bytes of the ordered pair are compared (R123). -/
theorem Acc.agrees_eq_decide (acc : Acc) (ra rb : Byte) :
    acc.agrees ra rb = decide (acc.a = ra ∧ acc.b = rb) := by
  rw [Bool.decide_and]
  rfl

/-! ## The obligations -/

/-- Settles O10: CK_ADD writes `Acc.add` of the old accumulator, whose counters are R120's sums. -/
theorem ckAddUpdatesBothCounters : Obligations.CkAddUpdatesBothCounters := by
  intro n x s
  refine ⟨_, exec_ckAdd n x s, ?_, ?_, ?_, State.finish_setAcc_frame ..⟩
  · simpa using Acc.toNat_add_a (s.acc n) x
  · simpa using Acc.toNat_add_b (s.acc n) x
  · intro m hm
    simp [State.acc_setAcc_of_ne s hm]

/-- Settles O11: CK_RESET writes the zero accumulator, CK_VALUE and CK_MATCHES read one and answer. -/
theorem ckResetValueAndMatches : Obligations.CkResetValueAndMatches := by
  intro n ra rb s
  refine ⟨⟨_, exec_ckReset n s, ?_, ?_, State.finish_setAcc_frame ..⟩, exec_ckValue n s, ?_⟩
  · exact State.acc_setAcc_self s n Acc.zero
  · intro m hm
    simp [State.acc_setAcc_of_ne s hm]
  · rw [exec_ckMatches, Acc.agrees_eq_decide]
    rfl

end Sys2Proof.Machine
end

section
/-! PROOFS. The comparison of two identities (43_envelope.md R220). -/

namespace Sys2Proof.Machine

open Sys2Proof

theorem exec_identEq (i j : Ident) (s : State) :
    exec (.identEq i j) s = .next (s.finish (.bool (i.cls == j.cls && i.id == j.id))) := rfl

/-- The command's two Boolean comparisons decide the equality of both components (R220). -/
theorem identParts_beq_eq_decide (i j : Ident) :
    (i.cls == j.cls && i.id == j.id) = decide (i.cls = j.cls ∧ i.id = j.id) := by
  rw [Bool.decide_and, beq_eq_decide, beq_eq_decide]

/-- Settles O38: IDENT_EQ only writes its result, the conjunction of the two comparisons. -/
theorem identEqComparesBothParts : Obligations.IdentEqComparesBothParts := by
  intro i j s
  rw [exec_identEq, identParts_beq_eq_decide]
  rfl

end Sys2Proof.Machine
end

section
/-! PROOFS. The parser's rows of WAIT_SYNC1 and of the header bytes (44_parser.md R240, R242-R244), and SET_FILTER
(R251). -/

namespace Sys2Proof.Machine

open Sys2Proof

/-! ## The actions of the rows -/

/-- Searching for 0xB5, an ignored byte leaves the parser as it was (R240). -/
theorem actWaitSync1Other_of_waitSync1 {p : Parser} (h : p.st = .waitSync1) (c : Params) (x : Byte) :
    actWaitSync1Other c p x = p := by
  cases p
  cases h
  rfl

/-! ## The filter -/

theorem exec_setFilters (l : List Ident) (s : State) :
    exec (.setFilters l) s = .next ((s.withParser { s.parser with filt := identSet l }).finish .done) := rfl

theorem exec_setFilter_eq_setFilters (i : Ident) (s : State) :
    exec (.setFilter i) s = exec (.setFilters [i]) s := rfl

@[simp] theorem identSet_singleton (i : Ident) : identSet [i] = [i] := rfl

/-! ## The obligations -/

/-- Settles O41: in WAIT_SYNC1 the row of 0xB5 moves `st` on, the row of another byte writes the `st` it found. -/
theorem syncSearchWaitsForB5 : Obligations.SyncSearchWaitsForB5 := by
  intro x s hst hf
  refine ⟨exec_row .waitSync1Sync 0xB5 hf ⟨hst, rfl⟩, fun hx => ?_⟩
  calc exec (.byteWaitSync1Other x) s
      = .next (s.withParser (actWaitSync1Other s.params s.parser x)) := exec_row .waitSync1Other x hf ⟨hst, hx⟩
    _ = .next s := by rw [actWaitSync1Other_of_waitSync1 hst, State.withParser_self]

/-- Settles O43: the row of each header state performs its action, whose new `pck` is R120's step over numbers. -/
theorem headerBytesAreCapturedAndSummed : Obligations.HeaderBytesAreCapturedAndSummed := by
  intro x s hf pck
  have hpck : s.parser.pck.add x = pck := Acc.add_eq s.parser.pck x
  rw [← hpck]
  exact ⟨exec_row .classAny x hf, exec_row .idAny x hf, exec_row .lenLoAny x hf⟩

/-- Settles O51: SET_FILTER is SET_FILTERS of one identity, whose set is that identity alone. -/
theorem setFilterIsSetFiltersOfOne : Obligations.SetFilterIsSetFiltersOfOne := by
  intro i s
  refine ⟨?_, exec_setFilter_eq_setFilters i s⟩
  rw [exec_setFilter_eq_setFilters, exec_setFilters, identSet_singleton]
  rfl

end Sys2Proof.Machine
end

section
/-! PROOFS. The command stream reads back what the encoder wrote (30_encoding.md R91, R95, R96; log 3). -/

namespace Sys2Proof

open Sys2Proof.Machine

theorem getKey_putKey (k : Key) (rest : List Byte) : getKey (putKey k ++ rest) = .ok (k, rest) := by
  have hmany := getMany_flatMap (put := fun b : Byte => [b]) getByte_cons (putKey k) rest
  have hlen : (putKey k).length = 4 := length_leBytes 4 k.toNat
  rw [hlen, List.flatMap_singleton'] at hmany
  have hk : BitVec.ofNat 32 (fromLE (putKey k)) = k := by
    rw [putKey, fromLE_leBytes, Nat.mod_eq_of_lt (by simpa using k.isLt), BitVec.ofNat_toNat, BitVec.setWidth_eq]
  simp [getKey, hmany, hk]

/-- The operands of a command are operand forms one after the other, and each form reads back what it wrote. A bit
range's width is written less 1, which the width of a well-formed command survives. -/
theorem getOperands_putOperands {i : Instr} {cmd : Nat} (hcmd : i.cmdIndex = some cmd) (hwf : i.wellFormed = true)
    (rest : List Byte) : getOperands cmd (putOperands i ++ rest) = .ok (i, rest) := by
  cases i
  case bfGet v lsb width =>
    cases hcmd
    have hwidth : width - 1 + 1 = width := Nat.sub_add_cancel (of_decide_eq_true hwf)
    simp [getOperands, putOperands, getNat_putNat, hwidth, bind, Except.bind]
  case bfSet v lsb width x =>
    cases hcmd
    have hwidth : width - 1 + 1 = width := Nat.sub_add_cancel (of_decide_eq_true hwf)
    simp [getOperands, putOperands, getNat_putNat, getInt_putInt, hwidth, bind, Except.bind]
  all_goals
    cases hcmd <;>
      simp [getOperands, putOperands, getNat_putNat, getInt_putInt, getByte_cons, getBytes_putBytes, getText_putText,
        getKind_putKind, getValue_putValue, getKey_putKey, getIdent_putIdent, getList_putList getIdent_putIdent,
        getList_putList getTemplateField_putTemplateField, bind, Except.bind]

theorem cmdIndex_le {i : Instr} {cmd : Nat} (h : i.cmdIndex = some cmd) : cmd ≤ 51 := by
  cases i <;> cases h <;> decide

theorem decode_encode {i : Instr} (hcmd : isCommand i = true) (hwf : i.wellFormed = true) (rest : List Byte) :
    decode (encode i ++ rest) = .ok (i, rest) := by
  obtain ⟨cmd, h⟩ := Option.isSome_iff_exists.1 hcmd
  have hbyte : (BitVec.ofNat 8 cmd).toNat = cmd := Nat.mod_eq_of_lt (by have := cmdIndex_le h; omega)
  simp only [encode, h, List.cons_append, decode, hbyte]
  exact getOperands_putOperands h hwf rest

/-- A row whose condition holds for a byte encodes to that byte: the two rows without an operand hold for one byte. -/
theorem encode_instr_of_rowSelected {c : Params} {p : Parser} {x : Byte} {row : ByteRow}
    (h : rowSelected c p x row = true) : encode (row.instr x) = [x] := by
  cases row
  case waitSync1Sync | waitSync2Sync =>
    simp only [rowSelected, Bool.and_eq_true, beq_iff_eq] at h
    obtain ⟨-, rfl⟩ := h
    rfl
  all_goals rfl

/-- Settles O2: a command decodes by its operand forms, and the selected row's condition pins its byte. -/
theorem decodeReadsBackEncode : Obligations.DecodeReadsBackEncode :=
  ⟨fun _ rest hcmd hwf => decode_encode hcmd hwf rest,
    fun _ _ _ => encode_instr_of_rowSelected ((rowSelected_iff ..).2 rfl)⟩

/-- Settles O3: each stream's operands are read off its bytes; the one with a key is the encoding of its command. -/
theorem writtenOutCommandsDecode : Obligations.WrittenOutCommandsDecode :=
  ⟨rfl, rfl, decode_encode (i := .cfgItemPack 0x30210001 250) rfl rfl [], rfl, rfl, rfl⟩

end Sys2Proof
end

section
/-! PROOFS. What a codec command can do, said once: it completes, writes one codec object at most, and neither reads nor
writes the parser (10_state.md R37, R39, 60_exceptions.md R311). -/

namespace Sys2Proof.Machine

open Sys2Proof

/-- What a codec command writes: the result, and at most one accumulator or field set and some draws. A field set it
writes has the invariant if the one before did. -/
inductive CodecWrite (s : State) : State → Prop where
  | result (r : Result) : CodecWrite s (s.finish r)
  | drew (k : Nat) (r : Result) : CodecWrite s ((s.drew k).finish r)
  | acc (n : Nat) (v : Acc) (r : Result) : CodecWrite s ((s.setAcc n v).finish r)
  | fieldSet (n : Nat) (fs : FieldSet) (k : Nat) (r : Result)
      (hinv : FieldSet.Inv (s.fieldSet n) → FieldSet.Inv fs) :
      CodecWrite s (((s.setFieldSet n fs).drew k).finish r)

theorem CodecWrite.raise (s : State) (e : Error) : CodecWrite s (s.raise e) := .result (.raised e)

theorem CodecWrite.fieldSet_only {s : State} (n : Nat) (fs : FieldSet) (r : Result)
    (hinv : FieldSet.Inv (s.fieldSet n) → FieldSet.Inv fs) : CodecWrite s ((s.setFieldSet n fs).finish r) :=
  .fieldSet n fs 0 r hinv

/-- An operation completes in `s`, writes what a codec command may, and does the same whatever the parser holds. -/
def CodecStep (f : State → Host.Outcome State Fault Refusal) (s : State) : Prop :=
  ∃ t, f s = .next t ∧ CodecWrite s t ∧ ∀ p, f (s.withParser p) = .next (t.withParser p)

/-- A command that answers what a computation gave, which read no parser, writes the result only. -/
theorem answer_codecStep {f : State → Host.Outcome State Fault Refusal} {r : State → Except Error Result} {s : State}
    (hf : ∀ u, f u = answer u (r u)) (hr : ∀ p, r (s.withParser p) = r s) : CodecStep f s := by
  unfold CodecStep
  simp only [hf, hr]
  cases r s with
  | ok r => exact ⟨_, rfl, .result r, fun _ => rfl⟩
  | error e => exact ⟨_, rfl, .raise s e, fun _ => rfl⟩

/-! ## The commands that write the result only -/

theorem answerPack_eq (kind : Kind) (r : Except DecodingCause (List Byte)) (s : State) :
    answerPack kind r s = answer s ((r.mapError (fieldError kind none)).map .bytes) := by
  cases r <;> rfl

theorem answerUnpack_eq (kind : Kind) (r : Except DecodingCause Value) (s : State) :
    answerUnpack kind r s = answer s ((r.mapError (fieldError kind none)).map (.unpacked · kind.size)) := by
  cases r <;> rfl

theorem packOut_eq (n : Nat) (s : State) : packOut n s = answer s ((packFields (s.fieldSet n).fields).map .bytes) := by
  unfold packOut
  cases packFields (s.fieldSet n).fields <;> rfl

theorem exec_fsGet (n : Nat) (name : Text) (s : State) : exec (.fsGet n name) s =
    answer s (((s.fieldSet n).find name).elim (.error (.fieldSet .unknownName)) fun f => .ok (.value f.body.value)) := by
  simp only [exec, execFsGet]
  cases (s.fieldSet n).find name <;> rfl

theorem exec_bfSet (v lsb width : Nat) (x : Int) (s : State) : exec (.bfSet v lsb width x) s =
    answer s (if 0 ≤ x ∧ x < ((2 ^ width : Nat) : Int) then .ok (.int (withBitField v lsb width x.toNat))
      else .error (.decoding .outOfRange (.operand .x x))) := by
  simp only [exec, execBfSet]
  split <;> rfl

theorem exec_cfgKeyMake (group item bits : Int) (s : State) :
    exec (.cfgKeyMake group item bits) s = answer s ((makeKey group item bits).map .key) := by
  simp only [exec, execCfgKeyMake]
  cases makeKey group item bits <;> rfl

theorem exec_cfgKeyFields (key : Key) (s : State) : exec (.cfgKeyFields key) s =
    answer s ((keyFields key).map fun f => .keyFields f.1 f.2.1 f.2.2.1 f.2.2.2) := by
  simp only [exec, execCfgKeyFields]
  cases keyFields key <;> rfl

theorem exec_cfgValPack (key : Key) (v : Int) (s : State) :
    exec (.cfgValPack key v) s = answer s ((packValue s.params key v).map .bytes) := by
  simp only [exec, execCfgValPack]
  cases packValue s.params key v <;> rfl

theorem exec_cfgItemPack (key : Key) (v : Int) (s : State) :
    exec (.cfgItemPack key v) s = answer s ((packItem s.params key v).map .bytes) := by
  simp only [exec, execCfgItemPack]
  cases packItem s.params key v <;> rfl

theorem exec_envLength (payload : List Byte) (s : State) :
    exec (.envLength payload) s = answer s ((envLength payload).map .length) := by
  simp only [exec, execEnvLength]
  cases envLength payload <;> rfl

theorem exec_envToBytes (ident : Ident) (payload : List Byte) (s : State) :
    exec (.envToBytes ident payload) s =
      answer s ((envLength payload).map fun _ => .bytes (frameBytes ident payload)) := by
  simp only [exec, execEnvToBytes]
  cases envLength payload <;> rfl

/-! ## The commands that draw, and those that write a field set -/

theorem execCfgValUnpack_codecStep (key : Key) (buf : List Byte) (s : State) :
    CodecStep (execCfgValUnpack key buf) s := by
  unfold CodecStep execCfgValUnpack
  simp only [State.withParser_params]
  rcases unpackValue s.params key buf with e | ⟨_ | v, n⟩
  · exact ⟨_, rfl, .raise .., fun _ => rfl⟩
  · exact ⟨_, rfl, .drew 1 _, fun _ => rfl⟩
  · exact ⟨_, rfl, .result _, fun _ => rfl⟩

theorem execCfgItemUnpack_codecStep (buf : List Byte) (s : State) : CodecStep (execCfgItemUnpack buf) s := by
  unfold CodecStep execCfgItemUnpack
  simp only [State.withParser_params]
  rcases unpackItem s.params buf with e | ⟨key, _ | v, n⟩
  · exact ⟨_, rfl, .raise .., fun _ => rfl⟩
  · exact ⟨_, rfl, .drew 1 _, fun _ => rfl⟩
  · exact ⟨_, rfl, .result _, fun _ => rfl⟩

theorem map_take_append {α β : Type} (g : α → β) {l done : List α} {n : Nat}
    (h : done.map g = (l.drop n).map g) : (l.take n ++ done).map g = l.map g := by
  rw [List.map_append, h, ← List.map_append, List.take_append_drop]

/-- Writing values from field `start` on leaves the schema, and so the invariant, as it was. -/
theorem FieldSet.Inv.take_append {fs : FieldSet} (h : FieldSet.Inv fs) {start : Nat} {done : List Field}
    (hn : done.map Field.name = (fs.fields.drop start).map Field.name)
    (ho : done.map Field.order = (fs.fields.drop start).map Field.order) :
    FieldSet.Inv ⟨fs.fields.take start ++ done, fs.next⟩ :=
  h.of_schema (map_take_append Field.name hn) (map_take_append Field.order ho) rfl

theorem unpackInto_codecStep (n : Nat) (buf : List Byte) (start : Nat) (s : State) :
    CodecStep (unpackInto n buf start) s := by
  unfold CodecStep unpackInto
  simp only [State.withParser_fieldSet]
  cases h : unpackFields ((s.fieldSet n).fields.drop start) buf with
  | ok done =>
    obtain ⟨hn, ho, -⟩ := unpackFields_ok h
    exact ⟨_, rfl, .fieldSet_only n _ _ fun hinv => hinv.take_append hn ho, fun _ => rfl⟩
  | error e =>
    obtain ⟨hn, ho, -⟩ := freeFields_schema ((s.fieldSet n).fields.drop start) s.draws
    exact ⟨_, rfl, .fieldSet n _ _ (.raised e) fun hinv => hinv.take_append hn ho, fun _ => rfl⟩

theorem execFsAdd_codecStep (n : Nat) (kind : Kind) (name : Text) (s : State) :
    CodecStep (execFsAdd n kind name) s := by
  unfold CodecStep execFsAdd
  simp only [State.withParser_fieldSet]
  cases h : (s.fieldSet n).add kind name with
  | ok fs => exact ⟨_, rfl, .fieldSet_only n _ _ fun hinv => hinv.add h, fun _ => rfl⟩
  | error e => exact ⟨_, rfl, .raise .., fun _ => rfl⟩

theorem execFsSet_codecStep (n : Nat) (name : Text) (v : Value) (s : State) : CodecStep (execFsSet n name v) s := by
  unfold CodecStep execFsSet
  simp only [State.withParser_fieldSet]
  cases h : (s.fieldSet n).set name v with
  | ok fs => exact ⟨_, rfl, .fieldSet_only n _ _ fun hinv => hinv.set h, fun _ => rfl⟩
  | error e => exact ⟨_, rfl, .raise .., fun _ => rfl⟩

theorem execFsAddGroup_codecStep (n : Nat) (template : List (Kind × Text)) (count : Int) (pre : Text) (s : State) :
    CodecStep (execFsAddGroup n template count pre) s := by
  unfold CodecStep execFsAddGroup
  simp only [State.withParser_fieldSet]
  have hinv := FieldSet.Inv.addEach (groupFields template count.toNat pre) (fs := s.fieldSet n)
  rcases h : FieldSet.addEach (groupFields template count.toNat pre) (s.fieldSet n) with ⟨fs, _ | e⟩
  · exact ⟨_, rfl, .fieldSet_only n fs _ fun hi => by simpa [h] using hinv hi, fun _ => rfl⟩
  · exact ⟨_, rfl, .fieldSet_only n fs (.raised e) fun hi => by simpa [h] using hinv hi, fun _ => rfl⟩

/-! ## Every codec command -/

theorem exec_codecStep {i : Instr} (hc : isCodecCommand i = true) (s : State) : CodecStep (exec i) s := by
  cases i
  case ckAdd n x => exact ⟨_, rfl, .acc n ((s.acc n).add x) .done, fun _ => rfl⟩
  case ckReset n => exact ⟨_, rfl, .acc n Acc.zero .done, fun _ => rfl⟩
  case ckValue | ckMatches | packPad | bfGet | identEq => exact ⟨_, rfl, .result _, fun _ => rfl⟩
  case packU8 | packU16 | packU32 | packU64 | packI8 | packI16 | packI32 | packI64 | packCh =>
    exact answer_codecStep (fun _ => answerPack_eq ..) fun _ => rfl
  case unpackU8 | unpackU16 | unpackU32 | unpackU64 | unpackI8 | unpackI16 | unpackI32 | unpackI64 | unpackCh |
      unpackPad =>
    exact answer_codecStep (fun _ => answerUnpack_eq ..) fun _ => rfl
  case fsNew => exact ⟨_, rfl, .fieldSet_only _ _ _ fun _ => FieldSet.Inv.empty, fun _ => rfl⟩
  case fsAdd n kind name => exact execFsAdd_codecStep n kind name s
  case fsGet n name => exact answer_codecStep (fun _ => exec_fsGet ..) fun _ => rfl
  case fsSet n name v => exact execFsSet_codecStep n name v s
  case fsPack n | envPack n => exact answer_codecStep (fun _ => packOut_eq n _) fun _ => rfl
  case fsUnpack n buf start => exact unpackInto_codecStep n buf start s
  case envUnpack n payload => exact unpackInto_codecStep n payload 0 s
  case fsAddGroup n template count pre => exact execFsAddGroup_codecStep n template count pre s
  case bfSet => exact answer_codecStep (fun _ => exec_bfSet ..) fun _ => rfl
  case cfgKeyMake => exact answer_codecStep (fun _ => exec_cfgKeyMake ..) fun _ => rfl
  case cfgKeyFields => exact answer_codecStep (fun _ => exec_cfgKeyFields ..) fun _ => rfl
  case cfgValPack => exact answer_codecStep (fun _ => exec_cfgValPack ..) fun _ => rfl
  case cfgValUnpack key buf => exact execCfgValUnpack_codecStep key buf s
  case cfgItemPack => exact answer_codecStep (fun _ => exec_cfgItemPack ..) fun _ => rfl
  case cfgItemUnpack buf => exact execCfgItemUnpack_codecStep buf s
  case envLength => exact answer_codecStep (fun _ => exec_envLength ..) fun _ => rfl
  case envToBytes => exact answer_codecStep (fun _ => exec_envToBytes ..) fun _ => rfl
  all_goals cases hc

end Sys2Proof.Machine
end

section
/-! PROOFS. The parser's commands, and the invariant of the block: every byte step, every command and so every step keep
it (10_state.md R25, R26, R30, R31, R36, 40_checksum.md R126). -/

namespace Sys2Proof.Machine

open Sys2Proof

/-! ## The parser's operations -/

/-- The operations of the parser, by what they do: a row of the transition table, or one of the parser's commands. -/
inductive ParserOp : Instr → Prop where
  | row (row : ByteRow) (x : Byte) : ParserOp (row.instr x)
  | step (x : Byte) : ParserOp (.step x)
  | process (chunk : List Byte) : ParserOp (.process chunk)
  | setFilters (l : List Ident) : ParserOp (.setFilters l)
  | setFilter (i : Ident) : ParserOp (.setFilter i)
  | restart : ParserOp .restart
  | packet : ParserOp .packet
  | emptyQueue : ParserOp .emptyQueue
  | reset : ParserOp .reset

theorem parserOp_of_not_codec {i : Instr} (hc : isCodecCommand i = false) : ParserOp i := by
  by_cases hcmd : isCommand i = true
  · cases i
    case step x => exact .step x
    case process chunk => exact .process chunk
    case setFilters l => exact .setFilters l
    case setFilter i => exact .setFilter i
    case restart => exact .restart
    case packet => exact .packet
    case emptyQueue => exact .emptyQueue
    case reset => exact .reset
    all_goals cases hcmd.symm.trans hc
  · obtain ⟨row, x, rfl⟩ := exists_row_of_not_isCommand (by simpa using hcmd)
    exact .row row x

theorem exec_step (x : Byte) (s : State) : exec (.step x) s = .next (feedAndReturn [x] s) := rfl

theorem exec_process (chunk : List Byte) (s : State) : exec (.process chunk) s = .next (feedAndReturn chunk s) := rfl

theorem exec_restart (s : State) :
    exec .restart s = .next ((s.withParser { s.parser with st := .waitSync1 }).finish .done) := rfl

theorem exec_emptyQueue (s : State) : exec .emptyQueue s = .next ((s.withParser s.parser.clear).finish .done) := rfl

theorem exec_reset (s : State) :
    exec .reset s = .next { State.resetWith s.params with cmds := s.cmds, draws := s.draws } := rfl

/-- An empty queue has no oldest entry to remove. -/
theorem Parser.dequeue_of_empty {p : Parser} (h : p.q = []) : p.dequeue = p := by
  cases p; cases h; rfl

/-- PACKET removes the oldest entry, if there is one, and returns it (R253). -/
theorem exec_packet (s : State) : exec .packet s =
    .next ((s.withParser s.parser.dequeue).finish (match s.parser.q with
      | [] => .noPacket
      | .packet ident payload :: _ => .packet ident payload
      | .crcError :: _ => .crcError)) := by
  simp only [exec, execPacket]
  rcases h : s.parser.q with _ | ⟨⟨ident, payload⟩ | _, rest⟩
  · rw [Parser.dequeue_of_empty h]; rfl
  · rfl
  · rfl

/-! ## The invariant of the parser, by rows -/

section
variable {c : Params} {p : Parser}

theorem Acc.addAll_concat (acc : Acc) (bs : List Byte) (x : Byte) :
    acc.addAll (bs ++ [x]) = (acc.addAll bs).add x := by
  rw [Acc.addAll_append]; rfl

/-- A row that feeds its byte keeps the checksum contract (R126). -/
theorem Parser.Inv.feeds {p' : Parser} {x : Byte} (h : Parser.Inv c p) (hin : p.inFrame)
    (hpck : p'.pck = p.pck.add x) (hfed : p'.fed = p.fed ++ [x]) : p'.pck = Acc.zero.addAll p'.fed := by
  rw [hpck, hfed, Acc.addAll_concat, h.checksum hin]

/-- Between frames nothing is said of the registers but their bounds. -/
theorem Parser.Inv.of_searching (hst : p.st = .waitSync1 ∨ p.st = .waitSync2)
    (bounded : p.pbuf.length ≤ c.maxMsgLen.val ∧ p.cnt ≤ 65535)
    (queueBounded : ∀ k, c.queueCapacity = some k → p.q.length ≤ k.entries)
    (entriesFit : (∀ e ∈ p.q, entryFits c e) ∧ ∀ f, p.fault = some f → entryFits c f.entry)
    (filterIsSet : identsRise p.filt) : Parser.Inv c p where
  checksum h := by rcases hst with hst | hst <;> simp [Parser.inFrame, hst] at h
  header h := by rcases hst with hst | hst <;> simp [hst] at h
  inPayload h := by rcases hst with hst | hst <;> simp [hst] at h
  payloadWhole h := by rcases hst with hst | hst <;> simp [hst] at h
  bounded := bounded
  queueBounded := queueBounded
  entriesFit := entriesFit
  filterIsSet := filterIsSet

theorem Parser.Inv.restart (h : Parser.Inv c p) : Parser.Inv c { p with st := .waitSync1 } :=
  .of_searching (.inl rfl) h.bounded h.queueBounded h.entriesFit h.filterIsSet

/-- An entry that fits goes into the queue or into `fault`, and the queue stays within its capacity (R31, R64). -/
theorem Parser.Inv.enqueue (h : Parser.Inv c p) {e : Entry} (he : entryFits c e) :
    Parser.Inv c { p.enqueue c e with st := .waitSync1 } := by
  obtain ⟨hq, hfault⟩ := h.entriesFit
  cases hfull : queueFull c p.q.length with
  | true =>
    rw [Parser.enqueue_of_full hfull]
    refine .of_searching (.inl rfl) h.bounded h.queueBounded ⟨hq, ?_⟩ h.filterIsSet
    rintro f ⟨⟩
    exact he
  | false =>
    rw [Parser.enqueue_of_room hfull]
    refine .of_searching (.inl rfl) h.bounded (fun k hk => ?_) ⟨?_, hfault⟩ h.filterIsSet
    · have hle := h.queueBounded k hk
      have hne : p.q.length ≠ k.entries := by simpa [queueFull, hk] using hfull
      simp only [List.length_append, List.length_singleton]
      omega
    · intro f hf
      rcases List.mem_append.1 hf with hf | hf
      · exact hq f hf
      · exact List.mem_singleton.1 hf ▸ he

/-- The header bytes are fed, and nothing is captured in `pbuf` yet. -/
theorem Parser.Inv.headerByte (h : Parser.Inv c p) {x : Byte}
    (hst : p.st = .class_ ∨ p.st = .id ∨ p.st = .lenLo) : Parser.Inv c (byteStep c p x) := by
  obtain ⟨hcnt, hpbuf⟩ := h.header (by tauto)
  have hin : p.inFrame := by rcases hst with hst | hst | hst <;> simp [Parser.inFrame, hst]
  rcases hst with hst | hst | hst
  all_goals
    simp only [byteStep, selectRow, hst, rowAction]
    exact { h with
      checksum := fun _ => h.feeds hin rfl (by simp [Parser.fed, hst, actClassAny, actIdAny, actLenLoAny])
      header := fun _ => ⟨hcnt, hpbuf⟩
      inPayload := nofun
      payloadWhole := by rintro (⟨⟨⟩⟩ | ⟨⟨⟩⟩) }

/-- After the high length byte the fed bytes are the four of the header (R126), in whichever state it leaves. -/
theorem fed_of_lenHi {p' : Parser} {x : Byte} (hst : p.st = .lenHi) (hst' : p'.st = .payload ∨ p'.st = .crcA)
    (hcls : p'.cls = p.cls) (hid : p'.id = p.id) (hlen : p'.len = declaredLen p.lenLo x) (hpbuf : p'.pbuf = []) :
    p'.fed = p.fed ++ [x] := by
  rcases hst' with hst' | hst' <;> simp [Parser.fed, hst, hst', hcls, hid, hlen, hpbuf, leBytes_declaredLen]

theorem rowAction_inv (h : Parser.Inv c p) {x : Byte} {row : ByteRow} (hs : rowSelected c p x row = true) :
    Parser.Inv c (rowAction row c p x) := by
  cases row
  case waitSync1Sync => exact .of_searching (.inr rfl) h.bounded h.queueBounded h.entriesFit h.filterIsSet
  case waitSync1Other | waitSync2Other | lenHiOversize | crcBFiltered =>
    exact .of_searching (.inl rfl) h.bounded h.queueBounded h.entriesFit h.filterIsSet
  case waitSync2Sync =>
    exact { h with
      checksum := fun _ => rfl
      header := fun _ => ⟨rfl, rfl⟩
      inPayload := nofun
      payloadWhole := by rintro (⟨⟨⟩⟩ | ⟨⟨⟩⟩)
      bounded := ⟨Nat.zero_le _, Nat.zero_le _⟩ }
  case classAny | idAny | lenLoAny =>
    rw [← byteStep_of_selected hs]
    have hst := beq_iff_eq.1 hs
    exact h.headerByte (by simp [hst])
  case lenHiZero =>
    simp only [rowSelected, Bool.and_eq_true, beq_iff_eq] at hs
    obtain ⟨hst, hlen⟩ := hs
    obtain ⟨hcnt, hpbuf⟩ := h.header (by tauto)
    exact { h with
      checksum := fun _ => h.feeds (by simp [Parser.inFrame, hst]) rfl (fed_of_lenHi hst (.inr rfl) rfl rfl rfl hpbuf)
      header := by rintro (⟨⟨⟩⟩ | ⟨⟨⟩⟩ | ⟨⟨⟩⟩ | ⟨⟨⟩⟩)
      inPayload := nofun
      payloadWhole := fun _ => by simp [rowAction, actLenHiZero, hlen, hcnt, hpbuf] }
  case lenHiPayload =>
    simp only [rowSelected, Bool.and_eq_true, beq_iff_eq, bne_iff_ne, decide_eq_true_eq] at hs
    obtain ⟨⟨hst, hne⟩, hle⟩ := hs
    obtain ⟨-, hpbuf⟩ := h.header (by tauto)
    have hpos : 0 < (declaredLen p.lenLo x).toNat := by
      rw [Nat.pos_iff_ne_zero]; simpa [← BitVec.toNat_inj] using hne
    exact { h with
      checksum := fun _ => h.feeds (by simp [Parser.inFrame, hst]) rfl (fed_of_lenHi hst (.inl rfl) rfl rfl rfl hpbuf)
      header := by rintro (⟨⟨⟩⟩ | ⟨⟨⟩⟩ | ⟨⟨⟩⟩ | ⟨⟨⟩⟩)
      inPayload := fun _ => ⟨hpos, hle, by simp [rowAction, actLenHiPayload, hpbuf]⟩
      payloadWhole := by rintro (⟨⟨⟩⟩ | ⟨⟨⟩⟩)
      bounded := ⟨h.bounded.1, Nat.zero_le _⟩ }
  case payloadMore =>
    simp only [rowSelected, Bool.and_eq_true, beq_iff_eq, bne_iff_ne] at hs
    obtain ⟨hst, hne⟩ := hs
    obtain ⟨hlt, hle, hlen⟩ := h.inPayload hst
    have hmax := c.maxMsgLen.isLt
    have hlen' : (p.pbuf ++ [x]).length = p.cnt + 1 := by simp [hlen]
    exact { h with
      checksum := fun _ => h.feeds (by simp [Parser.inFrame, hst]) rfl
        (by simp [Parser.fed, hst, rowAction, actPayloadMore])
      header := by rintro (⟨⟨⟩⟩ | ⟨⟨⟩⟩ | ⟨⟨⟩⟩ | ⟨⟨⟩⟩)
      inPayload := fun _ => ⟨by simp only [rowAction, actPayloadMore]; omega, hle, hlen'⟩
      payloadWhole := by rintro (⟨⟨⟩⟩ | ⟨⟨⟩⟩)
      bounded := by simp only [rowAction, actPayloadMore, hlen']; omega }
  case payloadLast =>
    simp only [rowSelected, Bool.and_eq_true, beq_iff_eq] at hs
    obtain ⟨hst, heq⟩ := hs
    obtain ⟨-, hle, hlen⟩ := h.inPayload hst
    have hmax := c.maxMsgLen.isLt
    have hlen' : (p.pbuf ++ [x]).length = p.cnt + 1 := by simp [hlen]
    exact { h with
      checksum := fun _ => h.feeds (by simp [Parser.inFrame, hst]) rfl
        (by simp [Parser.fed, hst, rowAction, actPayloadLast])
      header := by rintro (⟨⟨⟩⟩ | ⟨⟨⟩⟩ | ⟨⟨⟩⟩ | ⟨⟨⟩⟩)
      inPayload := nofun
      payloadWhole := fun _ => ⟨heq, hlen', hle⟩
      bounded := by simp only [rowAction, actPayloadLast, hlen']; omega }
  case crcAAny =>
    have hst : p.st = .crcA := by simpa [rowSelected] using hs
    have hin : p.inFrame := by simp [Parser.inFrame, hst]
    exact { h with
      checksum := fun _ => by simpa [rowAction, actCrcAAny, Parser.fed, hst] using h.checksum hin
      header := by rintro (⟨⟨⟩⟩ | ⟨⟨⟩⟩ | ⟨⟨⟩⟩ | ⟨⟨⟩⟩)
      inPayload := nofun
      payloadWhole := fun _ => h.payloadWhole (.inl hst) }
  case crcBAccept => exact h.enqueue h.bounded.1
  case crcBCrcError => exact h.enqueue trivial

theorem byteStep_inv (h : Parser.Inv c p) (x : Byte) : Parser.Inv c (byteStep c p x) :=
  rowAction_inv h ((rowSelected_iff c p x _).2 rfl)

end
/-! ## The invariant of the block -/

theorem Parser.Inv.reset (c : Params) : Parser.Inv c Parser.reset :=
  .of_searching (.inl rfl) ⟨Nat.zero_le _, Nat.zero_le _⟩ (fun _ _ => Nat.zero_le _) ⟨nofun, nofun⟩ .nil

theorem Parser.Inv.dequeue {c : Params} {p : Parser} (h : Parser.Inv c p) : Parser.Inv c p.dequeue :=
  { h with
    queueBounded := fun k hk => by
      have := h.queueBounded k hk
      simp only [Parser.dequeue_q, List.length_tail]; omega
    entriesFit := ⟨fun e he => h.entriesFit.1 e (List.mem_of_mem_tail he), h.entriesFit.2⟩ }

theorem Parser.Inv.clear {c : Params} {p : Parser} (h : Parser.Inv c p) : Parser.Inv c p.clear :=
  { h with
    queueBounded := fun _ _ => Nat.zero_le _
    entriesFit := ⟨nofun, h.entriesFit.2⟩ }

theorem Parser.Inv.setFilter {c : Params} {p : Parser} (h : Parser.Inv c p) (l : List Ident) :
    Parser.Inv c { p with filt := identSet l } :=
  { h with filterIsSet := identsRise_identSet l }

theorem State.Inv.finish {s : State} (h : State.Inv s) (r : Result) : State.Inv (s.finish r) := { h with }

theorem State.Inv.drew {s : State} (h : State.Inv s) (k : Nat) : State.Inv (s.drew k) := { h with }

theorem State.Inv.withParser {s : State} (h : State.Inv s) {p : Parser} (hp : Parser.Inv s.params p) :
    State.Inv (s.withParser p) :=
  { h with parser := hp }

theorem State.Inv.setAcc {s : State} (h : State.Inv s) (n : Nat) (v : Acc) : State.Inv (s.setAcc n v) := by
  obtain ⟨hrise, hne⟩ := h.accs
  by_cases hv : v = Acc.zero
  · refine { h with accs := ?_ }
    rw [State.setAcc_accs, if_pos hv]
    exact ⟨numbersRise_bankDrop n hrise, fun e he => hne e (List.mem_of_mem_filter he)⟩
  · refine { h with accs := ?_ }
    rw [State.setAcc_accs, if_neg hv]
    refine ⟨numbersRise_bankPut n v hrise, fun e he => ?_⟩
    rcases mem_bankPut he with rfl | he
    · exact hv
    · exact hne e he

theorem State.Inv.setFieldSet {s : State} (h : State.Inv s) (n : Nat) {fs : FieldSet} (hfs : FieldSet.Inv fs) :
    State.Inv (s.setFieldSet n fs) := by
  refine { h with sets := numbersRise_bankPut n fs h.sets, fieldSets := fun e he => ?_ }
  rcases mem_bankPut he with rfl | he
  · exact hfs
  · exact h.fieldSets e he

theorem State.Inv.fieldSet {s : State} (h : State.Inv s) (n : Nat) : FieldSet.Inv (s.fieldSet n) :=
  bankGet_forall FieldSet.Inv.empty h.fieldSets n

theorem CodecWrite.inv {s t : State} (h : CodecWrite s t) (hs : State.Inv s) : State.Inv t := by
  cases h with
  | result r => exact hs.finish r
  | drew k r => exact (hs.drew k).finish r
  | acc n v r => exact (hs.setAcc n v).finish r
  | fieldSet n fs k r hinv => exact ((hs.setFieldSet n (hinv (hs.fieldSet n))).drew k).finish r

theorem feedAndReturn_inv {s : State} (h : State.Inv s) (bs : List Byte) : State.Inv (feedAndReturn bs s) := by
  obtain ⟨r, hr⟩ := feedAndReturn_eq bs s
  have hp : Parser.Inv s.params (feed bs s).parser :=
    feed_parser_induction (P := Parser.Inv s.params) (fun _ x hp => byteStep_inv hp x) bs rfl h.parser
  rw [hr, feed_frame bs s]
  exact { h with parser := hp }

theorem resetWith_inv (c : Params) : State.Inv (State.resetWith c) where
  parser := Parser.Inv.reset c
  accs := ⟨.nil, nofun⟩
  sets := .nil
  fieldSets := nofun

theorem exec_inv {i : Instr} {s t : State} (hs : State.Inv s) (h : exec i s = .next t) : State.Inv t := by
  cases hcodec : isCodecCommand i with
  | true =>
    obtain ⟨u, hu, hw, -⟩ := exec_codecStep hcodec s
    cases hu.symm.trans h
    exact hw.inv hs
  | false =>
    cases parserOp_of_not_codec hcodec with
    | row row x =>
      obtain ⟨y, -, -, rfl⟩ := exec_row_cases h
      exact hs.withParser (byteStep_inv hs.parser y)
    | step x => cases h; exact feedAndReturn_inv hs [x]
    | process chunk => cases h; exact feedAndReturn_inv hs chunk
    | setFilters l => cases h; exact (hs.withParser (hs.parser.setFilter l)).finish _
    | setFilter i => cases h; exact (hs.withParser (hs.parser.setFilter [i])).finish _
    | restart => cases h; exact (hs.withParser hs.parser.restart).finish _
    | packet => cases (exec_packet s).symm.trans h; exact (hs.withParser hs.parser.dequeue).finish _
    | emptyQueue => cases h; exact (hs.withParser hs.parser.clear).finish _
    | reset => cases h; exact { resetWith_inv s.params with }

/-- Settles O5: a step performs one operation, in a state that differs in the waiting bytes, of which nothing is said. -/
theorem everyStepKeepsTheInvariant : Obligations.EveryStepKeepsTheInvariant := by
  intro s t hs h
  rcases step_cases h with rfl | ⟨i, s', hi, hs'⟩
  · exact hs
  · have hinv : State.Inv s' := hs' ▸ { hs with }
    exact exec_inv hinv hi

/-- Settles O6: at reset nothing is queued, captured or listed. -/
theorem resetHasTheInvariant : Obligations.ResetHasTheInvariant := resetWith_inv Config.params

end Sys2Proof.Machine
end

section
/-! PROOFS. The machine's step, what each kind of operation leaves alone, and the rows of the transition table
(30_encoding.md R95, 44_parser.md R241-R249). -/

namespace Sys2Proof.Machine

open Sys2Proof

/-! ## One step -/

theorem fetch_of_byte {s : State} {x : Byte} {xs : List Byte} (hrx : s.rx = x :: xs) (hf : s.parser.fault = none) :
    fetch s = .run ((selectRow s.params s.parser x).instr x) { s with rx := xs } := by
  simp only [fetch, hrx, hf]

theorem fetch_of_no_byte {s : State} (h : s.rx = [] ∨ s.parser.fault ≠ none) :
    fetch s = fetchCommand s (if s.rx = [] then .idle else .stuck) := by
  unfold fetch
  rcases hrx : s.rx with _ | ⟨x, xs⟩
  · rfl
  · obtain ⟨f, hf⟩ := Option.ne_none_iff_exists'.1 (h.resolve_left (by simp [hrx]))
    simp [hf]

theorem fetchCommand_of_decode {s : State} {i : Instr} {rest : List Byte} (h : decode s.cmds = .ok (i, rest))
    (otherwise : Fetched) : fetchCommand s otherwise = .run i { s with cmds := rest } := by
  unfold fetchCommand
  rcases hc : s.cmds with _ | ⟨b, bs⟩
  · rw [hc] at h; cases h
  · rw [hc] at h; simp only [h]

theorem fetchCommand_of_empty {s : State} (h : s.cmds = []) (otherwise : Fetched) :
    fetchCommand s otherwise = otherwise := by
  simp only [fetchCommand, h]

/-- Settles O1: a byte step is fetched where one is enabled, else the command stream is read. -/
theorem stepRunsTheDecodedInstruction : Obligations.StepRunsTheDecodedInstruction := by
  intro s
  refine ⟨fun x xs hrx hf => ?_, fun i rest hno hdec => ?_, fun hrx hc => ?_, fun hrx hf hc => ?_⟩
  · rw [step, fetch_of_byte hrx hf]
  · rw [step, fetch_of_no_byte hno, fetchCommand_of_decode hdec]
  · rw [step, fetch_of_no_byte (.inl hrx), fetchCommand_of_empty hc, if_pos hrx]
  · rw [step, fetch_of_no_byte (.inr hf), fetchCommand_of_empty hc, if_neg hrx]

/-! ## What every operation does and leaves alone -/

theorem isCommand_instr (row : ByteRow) (x : Byte) : isCommand (row.instr x) = false := by
  cases row <;> rfl

theorem exec_command_completes {i : Instr} (hcmd : isCommand i = true) (s : State) : ∃ t, exec i s = .next t := by
  cases hcodec : isCodecCommand i with
  | true => exact (exec_codecStep hcodec s).imp fun _ h => h.1
  | false =>
    cases parserOp_of_not_codec hcodec with
    | row row x => rw [isCommand_instr] at hcmd; cases hcmd
    | packet => exact ⟨_, exec_packet s⟩
    | step | process | setFilters | setFilter | restart | emptyQueue | reset => exact ⟨_, rfl⟩

/-- Settles O4: codec commands answer, the parser's commands are total, and a row whose condition holds acts. -/
theorem everyOperationCompletes : Obligations.EveryOperationCompletes :=
  ⟨fun _ s hcmd => exec_command_completes hcmd s, fun row x _ hf hcond => ⟨_, exec_row row x hf hcond⟩⟩

theorem exec_keeps_params {i : Instr} {s t : State} (h : exec i s = .next t) :
    t.params = s.params ∧ s.draws ≤ t.draws := by
  cases hcodec : isCodecCommand i with
  | true =>
    obtain ⟨hparams, -, -, -, hdraws⟩ := exec_codec_cases hcodec h
    exact ⟨hparams, hdraws⟩
  | false =>
    obtain ⟨-, hdraws, -, hparams⟩ := exec_parser_cases hcodec h
    exact ⟨hparams, hdraws.ge⟩

/-- Settles O7: taking bytes touches neither the parameters nor the draws, and no operation writes the parameters. -/
theorem noStepWritesTheParameters : Obligations.NoStepWritesTheParameters := by
  intro s t h
  rcases step_cases h with rfl | ⟨i, s', hi, hs'⟩
  · exact ⟨rfl, le_rfl⟩
  · have hkeep := exec_keeps_params hi
    rw [hs'] at hkeep
    exact hkeep

/-- Settles O8: `exec_codecStep` gives the run from the other parser. -/
theorem codecCommandsLeaveTheParserAlone : Obligations.CodecCommandsLeaveTheParserAlone := by
  intro i s t p hcodec h
  obtain ⟨-, hparser, hrx, hcmds, -⟩ := exec_codec_cases hcodec h
  obtain ⟨u, hu, -, hother⟩ := exec_codecStep hcodec s
  cases hu.symm.trans h
  exact ⟨hparser, hrx, hcmds, hother p⟩

/-- Settles O9: the parser's operations write the parser, the waiting bytes and the result. -/
theorem parserOperationsLeaveTheCodecAlone : Obligations.ParserOperationsLeaveTheCodecAlone := by
  intro i s t hcodec hreset h
  obtain ⟨hobjects, hdraws, hcmds, -⟩ := exec_parser_cases hcodec h
  obtain ⟨haccs, hsets⟩ := hobjects hreset
  exact ⟨haccs, hsets, hdraws, hcmds⟩

/-! ## The rows -/

theorem rowAction_st (row : ByteRow) (c : Params) (p : Parser) (x : Byte) :
    (rowAction row c p x).st = tableNext row := by
  cases row <;> rfl

/-- Settles O40: the row R95's conditions pick is the one the decode selects. -/
theorem everyByteMatchesExactlyOneRow : Obligations.EveryByteMatchesExactlyOneRow := by
  intro c p x hp
  have hsel : tableCondition c p x (selectRow c p x) := (tableCondition_iff hp _).2 rfl
  exact ⟨⟨_, hsel, fun row h => (tableCondition_iff hp row).1 h⟩, hsel, rowAction_st ..⟩

/-- Settles O42: both rows of WAIT_SYNC2 perform their actions. -/
theorem secondSyncByteStartsAFrame : Obligations.SecondSyncByteStartsAFrame := by
  intro x s hst hf
  exact ⟨exec_row .waitSync2Sync 0x62 hf ⟨hst, rfl⟩, fun hx => exec_row .waitSync2Other x hf ⟨hst, hx⟩⟩

/-- Settles O44: the three rows perform their actions; the declared length is R95's formula. -/
theorem lengthGuardAbandonsOversizedFrames : Obligations.LengthGuardAbandonsOversizedFrames := by
  intro x s hf hst pck len
  have hpck : s.parser.pck.add x = pck := Acc.add_eq s.parser.pck x
  have hlen : declaredLen s.parser.lenLo x = len := declaredLen_eq s.parser.lenLo x
  rw [← hpck, ← hlen]
  exact ⟨fun h => exec_row .lenHiZero x hf ⟨hst, h⟩, fun h => exec_row .lenHiOversize x hf ⟨hst, h⟩,
    fun hpos hle => exec_row .lenHiPayload x hf ⟨hst, hpos, hle⟩⟩

/-- Settles O45: the rows of PAYLOAD and CRC_A perform their actions. -/
theorem payloadIsCapturedUpToLen : Obligations.PayloadIsCapturedUpToLen := by
  intro x s hf pck
  have hpck : s.parser.pck.add x = pck := Acc.add_eq s.parser.pck x
  rw [← hpck]
  exact ⟨fun hst hlt => exec_row .payloadMore x hf ⟨hst, hlt⟩, fun hst heq => exec_row .payloadLast x hf ⟨hst, heq⟩,
    fun hst => exec_row .crcAAny x hf hst⟩

theorem Parser.enqueue_of_hasRoom {c : Params} {p : Parser} {e : Entry} (h : hasRoom c p.q.length) :
    p.enqueue c e = { p with q := p.q ++ [e] } :=
  Parser.enqueue_of_room (queueFull_of_hasRoom h)

theorem Parser.enqueue_at_capacity {c : Params} {p : Parser} {e : Entry} {k : Capacity}
    (hk : c.queueCapacity = some k) (h : p.q.length = k.entries) :
    p.enqueue c e = { p with fault := some (.queueOverflow e) } :=
  Parser.enqueue_of_full (by simp [queueFull, hk, h])

/-- Settles O46: the three rows of CRC_B act; the two that enqueue do so by the room there is. -/
theorem lastByteVerifiesFiltersAndEnqueues : Obligations.LastByteVerifiesFiltersAndEnqueues := by
  intro x s hf hst ident agree
  have hpair : (s.parser.rxa, x) = (s.parser.pck.a, s.parser.pck.b) ↔ agree := Prod.mk_inj
  have haccept (ha : agree) (hid : ident ∈ s.parser.filt) : exec (.byteCrcBAccept x) s =
      .next (s.withParser { s.parser.enqueue s.params (.packet ident s.parser.pbuf) with st := .waitSync1 }) :=
    exec_row .crcBAccept x hf ⟨hst, hpair.2 ha, hid⟩
  have hcrc (ha : ¬agree) : exec (.byteCrcBCrcError x) s =
      .next (s.withParser { s.parser.enqueue s.params .crcError with st := .waitSync1 }) :=
    exec_row .crcBCrcError x hf ⟨hst, fun h => ha (hpair.1 h)⟩
  refine ⟨fun ha hid hroom => ?_, fun ha hid => exec_row .crcBFiltered x hf ⟨hst, hpair.2 ha, hid⟩,
    fun ha hroom => ?_, fun k hk hfull => ⟨fun ha hid => ?_, fun ha => ?_⟩⟩
  · rw [haccept ha hid, Parser.enqueue_of_hasRoom hroom]; rfl
  · rw [hcrc ha, Parser.enqueue_of_hasRoom hroom]; rfl
  · rw [haccept ha hid, Parser.enqueue_at_capacity hk hfull]; rfl
  · rw [hcrc ha, Parser.enqueue_at_capacity hk hfull]; rfl

end Sys2Proof.Machine
end

section
/-! PROOFS. The parser's commands, the sticky fault and the packet queue (44_parser.md R249-R255, 20_memory.md R64,
60_exceptions.md R304, 70_reset_and_hazards.md R340-R342). -/

namespace Sys2Proof.Machine

open Sys2Proof

/-! ## Feeding -/

/-- Feeding does not read the result. -/
theorem feed_finish (bs : List Byte) (s : State) (r : Result) : feed bs (s.finish r) = (feed bs s).finish r := by
  induction bs generalizing s with
  | nil => rfl
  | cons x bs ih =>
    by_cases h : s.parser.fault = none ∧ s.rx = []
    · rw [feed_cons_of_free x bs h.1 h.2, feed_cons_of_free x bs (by exact h.1) (by exact h.2), ← ih]
      rfl
    · have hb : s.parser.fault ≠ none ∨ s.rx ≠ [] := by tauto
      rw [feed_of_blocked _ hb, feed_of_blocked _ (by exact hb)]
      rfl

theorem feedAndReturn_of_rx_nil {bs : List Byte} {s : State} (h : (feed bs s).rx = []) :
    feedAndReturn bs s = (feed bs s).finish .done := by
  simp [feedAndReturn, h]

/-- Bytes that are held back wait in `rx`, and their producer waits with them (log 12). -/
theorem feedAndReturn_of_blocked {bs : List Byte} {s : State} (h : s.parser.fault ≠ none ∨ s.rx ≠ []) (hbs : bs ≠ []) :
    feedAndReturn bs s = { s with rx := s.rx ++ bs } := by
  simp [feedAndReturn, feed_of_blocked bs h, hbs]

theorem feed_singleton {x : Byte} {s : State} (hf : s.parser.fault = none) (hrx : s.rx = []) :
    feed [x] s = s.withParser (byteStep s.params s.parser x) :=
  feed_cons_of_free x [] hf hrx

/-- Settles O48: STEP feeds the one byte, which is the byte step of the row it selects. -/
theorem stepCommandPerformsTheSelectedRow : Obligations.StepCommandPerformsTheSelectedRow := by
  intro x s hf hrx
  refine ⟨_, exec_instr_selectRow x hf, ?_⟩
  have hrx' : (feed [x] s).rx = [] := by rw [feed_singleton hf hrx]; exact hrx
  rw [exec_step, feedAndReturn_of_rx_nil hrx', feed_singleton hf hrx]
  rfl

/-- STEP and PROCESS write the result when no byte is left waiting. -/
theorem feedAndReturn_result (bs : List Byte) (s : State) :
    ∃ r, feedAndReturn bs s = (feed bs s).finish r ∧ ((feed bs s).rx = [] → r = .done) := by
  by_cases hrx : (feed bs s).rx = []
  · exact ⟨.done, feedAndReturn_of_rx_nil hrx, fun _ => rfl⟩
  · exact (feedAndReturn_eq bs s).imp fun _ h => ⟨h, fun hrx' => absurd hrx' hrx⟩

/-- STEPs in order feed their bytes. Where none is left waiting the last STEP has returned. -/
theorem execAll_steps (chunk : List Byte) (s : State) : ∃ r,
    execAll (chunk.map .step) s = .next ((feed chunk s).finish r) ∧
      (chunk ≠ [] → (feed chunk s).rx = [] → r = .done) := by
  induction chunk generalizing s with
  | nil => exact ⟨s.res, rfl, fun h => absurd rfl h⟩
  | cons x xs ih =>
    obtain ⟨r₁, hstep, hdone₁⟩ := feedAndReturn_result [x] s
    have hfirst : execAll ((x :: xs).map .step) s = execAll (xs.map .step) ((feed [x] s).finish r₁) := by
      rw [← hstep]; rfl
    rw [hfirst]
    rcases xs with _ | ⟨y, ys⟩
    · exact ⟨r₁, rfl, fun _ => hdone₁⟩
    · obtain ⟨r₂, hrest, hdone₂⟩ := ih ((feed [x] s).finish r₁)
      rw [feed_finish, State.finish_finish, ← feed_append [x]] at hrest
      rw [feed_finish, ← feed_append [x]] at hdone₂
      exact ⟨r₂, hrest, fun _ => hdone₂ (List.cons_ne_nil y ys)⟩

/-- Settles O49: PROCESS and the STEPs feed the same bytes, and return when none of them waits. -/
theorem processIsStepsInOrder : Obligations.ProcessIsStepsInOrder := by
  intro chunk s
  obtain ⟨r, hsteps, hdone⟩ := execAll_steps chunk s
  obtain ⟨r', hr'⟩ := feedAndReturn_eq chunk s
  refine ⟨_, _, exec_process chunk s, hsteps, by rw [hr']; rfl, fun hrx hchunk => ?_⟩
  have hnone : (feed chunk s).rx = [] := by rw [hr'] at hrx; exact hrx
  rw [feedAndReturn_of_rx_nil hnone, hdone hchunk hnone]

/-! ## The sticky fault -/

theorem exec_row_of_fault {s : State} (hf : s.parser.fault ≠ none) (row : ByteRow) (x : Byte) :
    exec (row.instr x) s = .fault .producerStuck := by
  obtain ⟨f, hf⟩ := Option.ne_none_iff_exists'.1 hf
  cases row <;> exact byteTurn_of_fault hf

/-- Under a fault STEP and PROCESS leave the parser as it is. -/
theorem feedAndReturn_parser_of_fault {s : State} (hf : s.parser.fault ≠ none) (bs : List Byte) :
    (feedAndReturn bs s).parser = s.parser := by
  obtain ⟨r, hr⟩ := feedAndReturn_eq bs s
  rw [hr, feed_of_blocked bs (.inl hf)]
  rfl

theorem exec_keeps_fault {i : Instr} {s t : State} (hf : s.parser.fault ≠ none) (hi : i ≠ .reset)
    (h : exec i s = .next t) : t.parser.fault = s.parser.fault := by
  cases hcodec : isCodecCommand i with
  | true => exact congrArg Parser.fault (exec_codec_cases hcodec h).2.1
  | false =>
    cases parserOp_of_not_codec hcodec with
    | row row x => rw [exec_row_of_fault hf] at h; cases h
    | step x => cases h; rw [feedAndReturn_parser_of_fault hf]
    | process chunk => cases h; rw [feedAndReturn_parser_of_fault hf]
    | packet => cases (exec_packet s).symm.trans h; rfl
    | reset => exact absurd rfl hi
    | setFilters | setFilter | restart | emptyQueue => cases h; rfl

/-- A command that takes no byte does the same without the fault, but for the fault. -/
theorem exec_without_fault {i : Instr} {s : State} (hcmd : isCommand i = true) (hstep : ∀ x, i ≠ .step x)
    (hprocess : ∀ bs, i ≠ .process bs) (hreset : i ≠ .reset) : ∃ t, exec i s = .next t ∧
      exec i { s with parser := { s.parser with fault := none } } =
        .next { t with parser := { t.parser with fault := none } } := by
  cases hcodec : isCodecCommand i with
  | true =>
    obtain ⟨t, ht, -, hother⟩ := exec_codecStep hcodec s
    obtain ⟨-, hparser, -⟩ := exec_codec_cases hcodec ht
    exact ⟨t, ht, by rw [hparser]; exact hother _⟩
  | false =>
    cases parserOp_of_not_codec hcodec with
    | row row x => rw [isCommand_instr] at hcmd; cases hcmd
    | step x => exact absurd rfl (hstep x)
    | process chunk => exact absurd rfl (hprocess chunk)
    | packet => exact ⟨_, exec_packet s, exec_packet _⟩
    | reset => exact absurd rfl hreset
    | setFilters | setFilter | restart | emptyQueue => exact ⟨_, rfl, rfl⟩

/-- Settles O47: the six clauses, operation by operation. -/
theorem faultStopsByteStepsUntilReset : Obligations.FaultStopsByteStepsUntilReset := by
  intro s hf
  refine ⟨exec_row_of_fault hf, fun x => ?_, fun bs hbs => ?_, fun i t => exec_keeps_fault hf,
    fun i => exec_without_fault, ⟨_, exec_reset s, rfl⟩⟩
  · rw [exec_step, feedAndReturn_of_blocked (.inl hf) (List.cons_ne_nil x [])]
  · rw [exec_process, feedAndReturn_of_blocked (.inl hf) hbs]

/-! ## The filter, the queue and RESET -/

/-- Settles O50: the filter list holds the listed identities, and lists with the same members give the same list. -/
theorem setFiltersReplacesTheFilter : Obligations.SetFiltersReplacesTheFilter := by
  intro l s
  refine ⟨_, exec_setFilters l s, mem_identSet l, rfl, fun l' hl' => ?_⟩
  have hsame : identSet l' = identSet l :=
    identsRise_ext (identsRise_identSet l') (identsRise_identSet l) fun i => by rw [mem_identSet, mem_identSet, hl']
  rw [exec_setFilters, hsame]

/-- Settles O52: each of the three writes its one element. -/
theorem restartEmptyQueueAndEmptyFilter : Obligations.RestartEmptyQueueAndEmptyFilter :=
  fun s => ⟨exec_restart s, exec_emptyQueue s, rfl⟩

/-- Settles O53: PACKET's result is read off the queue's head. -/
theorem packetReturnsTheOldestEntry : Obligations.PacketReturnsTheOldestEntry := by
  refine fun s => ⟨fun hq => ?_, fun ident payload rest hq => ?_, fun rest hq => ?_⟩
  · rw [exec_packet, Parser.dequeue_of_empty hq, hq]; rfl
  · rw [exec_packet, Parser.dequeue, hq]; rfl
  · rw [exec_packet, Parser.dequeue, hq]; rfl

/-- Settles O55: RESET starts over from the reset state, where nothing is listed. -/
theorem resetGivesTheResetState : Obligations.ResetGivesTheResetState :=
  fun s => ⟨_, exec_reset s, rfl, fun _ => rfl, fun _ => rfl, rfl, rfl, rfl, rfl, rfl⟩

/-- An entry a byte step may queue: CrcError, or a packet of an identity the filter holds (R248). -/
def Queueable (filt : List Ident) (e : Entry) : Prop :=
  e = .crcError ∨ ∃ ident payload, e = .packet ident payload ∧ ident ∈ filt

/-- The queue went from `p` to `p'` by at most `n` queueable entries at its end, under one filter. -/
def Queued (n : Nat) (p p' : Parser) : Prop :=
  p'.filt = p.filt ∧ ∃ added, p'.q = p.q ++ added ∧ added.length ≤ n ∧ ∀ e ∈ added, Queueable p.filt e

theorem Queued.none {p p' : Parser} (hfilt : p'.filt = p.filt) (hq : p'.q = p.q) (n : Nat) : Queued n p p' :=
  ⟨hfilt, [], by simp [hq], Nat.zero_le n, nofun⟩

theorem Queued.trans {m n : Nat} {p p' p'' : Parser} (h : Queued m p p') (h' : Queued n p' p'') :
    Queued (m + n) p p'' := by
  obtain ⟨hfilt, added, hq, hlen, hadded⟩ := h
  obtain ⟨hfilt', added', hq', hlen', hadded'⟩ := h'
  refine ⟨hfilt'.trans hfilt, added ++ added', by rw [hq', hq, List.append_assoc], ?_, fun e he => ?_⟩
  · rw [List.length_append]; omega
  · rcases List.mem_append.1 he with he | he
    · exact hadded e he
    · exact hfilt ▸ hadded' e he

theorem Parser.enqueue_adds (c : Params) (p : Parser) (e : Entry) : (p.enqueue c e).q = p.q ++ [e] ∨
    ((p.enqueue c e).q = p.q ∧ (p.enqueue c e).fault = some (.queueOverflow e)) := by
  unfold Parser.enqueue
  split
  · exact .inr ⟨rfl, rfl⟩
  · exact .inl rfl

theorem Queued.enqueue {c : Params} {p : Parser} {e : Entry} (he : Queueable p.filt e) :
    Queued 1 p { p.enqueue c e with st := .waitSync1 } := by
  rcases Parser.enqueue_adds c p e with hq | ⟨hq, -⟩
  · exact ⟨Parser.enqueue_filt c p e, [e], hq, le_rfl, by simpa using he⟩
  · exact .none (Parser.enqueue_filt c p e) hq 1

theorem byteStep_queued (c : Params) (p : Parser) (x : Byte) : Queued 1 p (byteStep c p x) := by
  have hs := (rowSelected_iff c p x _).2 rfl
  unfold byteStep
  cases hrow : selectRow c p x
  case crcBAccept =>
    rw [hrow] at hs
    simp only [rowSelected, Bool.and_eq_true, List.contains_iff_mem] at hs
    exact .enqueue (.inr ⟨_, _, rfl, hs.2⟩)
  case crcBCrcError => exact .enqueue (.inl rfl)
  all_goals exact .none rfl rfl 1

theorem feed_queued (bs : List Byte) (s : State) : Queued bs.length s.parser (feed bs s).parser := by
  induction bs generalizing s with
  | nil => exact .none rfl rfl 0
  | cons x xs ih =>
    by_cases h : s.parser.fault = none ∧ s.rx = []
    · rw [feed_cons_of_free x xs h.1 h.2, List.length_cons, Nat.add_comm]
      exact (byteStep_queued s.params s.parser x).trans (ih _)
    · rw [feed_of_blocked _ (by tauto)]
      exact .none rfl rfl _

theorem feedAndReturn_queued (bs : List Byte) (s : State) :
    Queued bs.length s.parser (feedAndReturn bs s).parser := by
  obtain ⟨r, hr⟩ := feedAndReturn_eq bs s
  rw [hr]
  exact feed_queued bs s

/-- Settles O54: the two enqueuing rows, the feeding commands and PACKET one by one; no other row's action and no codec
command touches the queue. -/
theorem queueIsFirstInFirstOut : Obligations.QueueIsFirstInFirstOut := by
  intro i s t h adds fed
  cases i
  case byteCrcBAccept x =>
    obtain ⟨-, -, rfl⟩ := byteTurn_cases h
    exact Parser.enqueue_adds ..
  case byteCrcBCrcError x =>
    obtain ⟨-, -, rfl⟩ := byteTurn_cases h
    exact Parser.enqueue_adds ..
  case step x => cases h; exact (feedAndReturn_queued [x] s).2
  case process chunk => cases h; exact (feedAndReturn_queued chunk s).2
  case packet => cases (exec_packet s).symm.trans h; rfl
  case emptyQueue | reset | setFilters | setFilter | restart => cases h; rfl
  case byteWaitSync1Sync | byteWaitSync1Other | byteWaitSync2Sync | byteWaitSync2Other | byteClassAny | byteIdAny |
      byteLenLoAny | byteLenHiZero | byteLenHiOversize | byteLenHiPayload | bytePayloadMore | bytePayloadLast |
      byteCrcAAny | byteCrcBFiltered =>
    obtain ⟨-, -, rfl⟩ := byteTurn_cases h
    rfl
  all_goals exact congrArg Parser.q (exec_codec_cases rfl h).2.1

/-! ## Error codes -/

/-- Settles O60: the codes are listed, and two causes with one code are one. -/
theorem errorCausesHaveTheirCodes : Obligations.ErrorCausesHaveTheirCodes := by
  refine ⟨rfl, rfl, fun c d h => ?_, fun c d h => ?_⟩
  · cases c <;> cases d <;> cases h <;> rfl
  · cases c <;> cases d <;> cases h <;> rfl

end Sys2Proof.Machine
end

section
/-! PROOFS. The checksum of a byte sequence (40_checksum.md R124, R125). -/

namespace Sys2Proof.Machine

open Sys2Proof

/-- Both counters of a fresh accumulator in the closed form of R124. -/
theorem Acc.zero_addAll (bs : List Byte) : Acc.zero.addAll bs =
    ⟨BitVec.ofNat 8 (closedChecksum bs).1, BitVec.ofNat 8 (closedChecksum bs).2⟩ := by
  obtain ⟨ha, hb⟩ := Acc.addAll_closed bs Acc.zero
  have ha' : (Acc.zero.addAll bs).a = BitVec.ofNat 8 (closedChecksum bs).1 :=
    BitVec.eq_of_toNat_eq (by rw [ha]; simp [closedChecksum, Acc.zero])
  have hb' : (Acc.zero.addAll bs).b = BitVec.ofNat 8 (closedChecksum bs).2 :=
    BitVec.eq_of_toNat_eq (by rw [hb]; simp [closedChecksum, Acc.zero])
  exact congrArg₂ Acc.mk ha' hb'

theorem execAll_ckAdds (n : Nat) (bs : List Byte) (s : State) :
    ∃ t, execAll (bs.map (.ckAdd n)) s = .next t ∧ t.acc n = (s.acc n).addAll bs := by
  induction bs generalizing s with
  | nil => exact ⟨s, rfl, rfl⟩
  | cons x bs ih =>
    obtain ⟨t, ht, hacc⟩ := ih ((s.setAcc n ((s.acc n).add x)).finish .done)
    refine ⟨t, ht, hacc.trans ?_⟩
    rw [State.finish_acc, State.acc_setAcc_self]
    rfl

theorem execAll_ckReset_ckAdds (n : Nat) (bs : List Byte) (s : State) :
    ∃ t, execAll (.ckReset n :: bs.map (.ckAdd n)) s = .next t ∧ t.acc n = Acc.zero.addAll bs := by
  obtain ⟨t, ht, hacc⟩ := execAll_ckAdds n bs ((s.setAcc n Acc.zero).finish .done)
  exact ⟨t, ht, by rw [hacc, State.finish_acc, State.acc_setAcc_self]⟩

/-- Settles O12: the CK_ADDs fold the checksum step over the bytes. -/
theorem checksumClosedForm : Obligations.ChecksumClosedForm := by
  intro n bs s
  obtain ⟨t, ht, hacc⟩ := execAll_ckReset_ckAdds n bs s
  refine ⟨t, ht, ?_⟩
  rw [exec_ckValue, hacc, Acc.zero_addAll]
  rfl

/-- Settles O13: the two sequences leave different counters `a`. -/
theorem singleByteCorruptionIsDetected : Obligations.SingleByteCorruptionIsDetected := by
  intro n bs j y s hj hy
  obtain ⟨t, ht, hacct⟩ := execAll_ckReset_ckAdds n bs s
  obtain ⟨u, hu, haccu⟩ := execAll_ckReset_ckAdds n (bs.set j y) s
  refine ⟨t, u, ht, hu, ?_⟩
  have ha : (u.acc n).a ≠ (t.acc n).a := by
    rw [hacct, haccu]
    exact Acc.addAll_set_ne bs j y hj hy Acc.zero
  rw [exec_ckMatches, Acc.agrees_eq_decide, decide_eq_false fun h => ha h.1]
  rfl

end Sys2Proof.Machine
end

section
/-! PROOFS. Packing and unpacking one field (41_field_codec.md R140-R166). -/

namespace Sys2Proof.Machine

open Sys2Proof

/-! ## Integers -/

section
variable {k : IntKind}

theorem IntKind.lo_of_unsigned (h : k.signed = false) : k.lo = 0 := by simp [IntKind.lo, h]

theorem IntKind.hi_of_unsigned (h : k.signed = false) : k.hi = 2 ^ (8 * k.bytes) - 1 := by simp [IntKind.hi, h]

theorem IntKind.lo_of_signed (h : k.signed = true) : k.lo = -2 ^ (8 * k.bytes - 1) := by simp [IntKind.lo, h]

theorem IntKind.hi_of_signed (h : k.signed = true) : k.hi = 2 ^ (8 * k.bytes - 1) - 1 := by simp [IntKind.hi, h]
end

theorem exec_packInstr (k : IntKind) (v : Int) (s : State) : exec (packInstr k v) s = .next { s with
    res := if k.lo ≤ v ∧ v ≤ k.hi then .bytes (littleEndian k.bytes (v % 2 ^ (8 * k.bytes)).toNat)
      else .raised (.decoding .outOfRange (.field (.int k) none)) } := by
  have h : exec (packInstr k v) s = answerPack (.int k) (packInt k v) s := exec_packCommand (.int k v) s
  rw [h, packInt_eq]
  split <;> rfl

theorem exec_unpackInstr (k : IntKind) (buf : List Byte) (s : State) : exec (unpackInstr k buf) s = .next { s with
    res := if buf.length < k.bytes then .raised (.decoding .shortBuffer (.field (.int k) none))
      else .unpacked (.int (if k.signed then twosComplement k.bytes (littleEndianValue k.bytes buf)
        else littleEndianValue k.bytes buf)) k.bytes } := by
  have h : exec (unpackInstr k buf) s = answerUnpack (.int k) (intValue (unpackInt k buf)) s := by cases k <;> rfl
  rw [h, unpackInt_eq]
  split <;> rfl

/-- Settles O14: the range of an unsigned kind starts at 0, and a value in it is its own residue. -/
theorem unsignedPackChecksRangeAndWritesLittleEndian : Obligations.UnsignedPackChecksRangeAndWritesLittleEndian := by
  intro k v s hk
  rw [exec_packInstr, IntKind.lo_of_unsigned hk, IntKind.hi_of_unsigned hk]
  split_ifs with h
  · rw [Int.emod_eq_of_lt h.1 (by omega)]
  · rfl

/-- Settles O15: R151's range is that of a signed kind. -/
theorem signedPackChecksRangeAndWritesTwosComplement : Obligations.SignedPackChecksRangeAndWritesTwosComplement := by
  intro k v s hk
  rw [exec_packInstr, IntKind.lo_of_signed hk, IntKind.hi_of_signed hk]

/-- Settles O16: an unsigned kind takes the little-endian value as it is. -/
theorem unsignedUnpackReadsLittleEndian : Obligations.UnsignedUnpackReadsLittleEndian := by
  intro k buf s hk
  rw [exec_unpackInstr, hk]
  rfl

/-- Settles O17: a signed kind reads the little-endian value in two's complement. -/
theorem signedUnpackReadsTwosComplement : Obligations.SignedUnpackReadsTwosComplement := by
  intro k buf s hk
  rw [exec_unpackInstr, hk]
  rfl

/-- An integer in range packs into its pattern, and the pattern is read back, whatever follows (R166). -/
theorem unpackInt_packInt {k : IntKind} {v : Int} {bs : List Byte} (h : packInt k v = .ok bs) (rest : List Byte) :
    unpackInt k (bs ++ rest) = .ok v := by
  unfold packInt at h
  split at h
  · next hfits =>
    cases h
    rw [unpackInt, if_neg (by simp), List.take_left' (length_leBytes ..), fromLE_leBytes,
      Nat.mod_eq_of_lt (pattern_lt k v), read_pattern hfits]
  · cases h

/-! ## Character sequences -/

section
variable {n : Nat} {t : Text}

theorem packChars_of_not_ascii (h : ∃ c ∈ t, 0x7F < c.toNat) : packChars n t = .error .invalidEncoding :=
  if_pos (by simpa using h)

theorem packChars_of_long (hascii : ∀ c ∈ t, c.toNat ≤ 0x7F) (h : n < t.length) :
    packChars n t = .error .stringTooLong := by
  rw [packChars, if_neg (by simpa using hascii), if_pos h]

theorem packChars_of_fits (hascii : ∀ c ∈ t, c.toNat ≤ 0x7F) (h : t.length ≤ n) : packChars n t =
    .ok (t.map (fun c => BitVec.ofNat 8 c.toNat) ++ List.replicate (n - t.length) 0) := by
  rw [packChars, if_neg (by simpa using hascii), if_neg (by omega)]

/-- PACK_CH succeeds on the ASCII texts that fit, and no others. -/
theorem fits_of_packChars {bs : List Byte} (h : packChars n t = .ok bs) :
    (∀ c ∈ t, c.toNat ≤ 0x7F) ∧ t.length ≤ n := by
  by_cases hascii : ∀ c ∈ t, c.toNat ≤ 0x7F
  · refine ⟨hascii, ?_⟩
    by_contra hlen
    rw [packChars_of_long hascii (by omega)] at h
    cases h
  · rw [packChars_of_not_ascii (by simpa using hascii)] at h
    cases h

theorem exec_packCh (n : Nat) (t : Text) (s : State) :
    exec (.packCh n t) s = answerPack (.ch n) (packChars n t) s := rfl

theorem exec_unpackCh (n : Nat) (buf : List Byte) (s : State) :
    exec (.unpackCh n buf) s = answerUnpack (.ch n) (textValue (unpackChars n buf)) s := rfl

/-- The byte of an ASCII character is its code. -/
theorem toNat_ofNat_ascii {c : Char} (h : c.toNat ≤ 0x7F) : (BitVec.ofNat 8 c.toNat).toNat = c.toNat :=
  Nat.mod_eq_of_lt (by omega)

theorem map_toNat_asciiBytes (hascii : ∀ c ∈ t, c.toNat ≤ 0x7F) :
    (t.map (fun c => BitVec.ofNat 8 c.toNat)).map BitVec.toNat = t.map Char.toNat := by
  rw [List.map_map]
  exact List.map_congr_left fun c hc => toNat_ofNat_ascii (hascii c hc)
end

/-- Settles O18: the checks in R154's order, then the codes and the zeros. -/
theorem stringPackPadsWithZeros : Obligations.StringPackPadsWithZeros := by
  refine fun n t s => ⟨fun h => ?_, fun hascii h => ?_, fun hascii h => ?_⟩
  · rw [exec_packCh, packChars_of_not_ascii h]; rfl
  · rw [exec_packCh, packChars_of_long hascii h]; rfl
  · refine ⟨_, by rw [exec_packCh, packChars_of_fits hascii h]; rfl, ?_, ?_⟩
    · simp; omega
    · rw [List.map_append, map_toNat_asciiBytes hascii, List.map_replicate]; rfl

section
variable {n : Nat} {buf : List Byte}

theorem unpackChars_of_short (h : buf.length < n) : unpackChars n buf = .error .shortBuffer := if_pos h

theorem unpackChars_of_not_ascii (hlen : n ≤ buf.length) (h : ∃ b ∈ buf.take n, 0x7F < b.toNat) :
    unpackChars n buf = .error .invalidEncoding := by
  rw [unpackChars, if_neg (by omega), if_pos (by simpa using h)]

theorem unpackChars_of_ascii (hlen : n ≤ buf.length) (h : ∀ b ∈ buf.take n, b.toNat ≤ 0x7F) :
    unpackChars n buf = .ok ((stripZeros (buf.take n)).map fun b => Char.ofNat b.toNat) := by
  rw [unpackChars, if_neg (by omega), if_neg (by simpa using h)]

/-- An ASCII byte is the code of its character. -/
theorem toNat_ofNat_of_ascii {b : Byte} (h : b.toNat ≤ 0x7F) : (Char.ofNat b.toNat).toNat = b.toNat := by
  have hvalid : b.toNat.isValidChar := .inl (by omega)
  simp [Char.ofNat, hvalid]
end

theorem map_toNat_chars {bs : List Byte} (h : ∀ b ∈ bs, b.toNat ≤ 0x7F) :
    (bs.map fun b => Char.ofNat b.toNat).map Char.toNat = bs.map BitVec.toNat := by
  rw [List.map_map]
  exact List.map_congr_left fun b hb => toNat_ofNat_of_ascii (h b hb)

theorem getLast?_map_ne {α β : Type} {f : α → β} {l : List α} {a : α} {b : β} (hf : ∀ x ∈ l, f x = b → x = a)
    (h : l.getLast? ≠ some a) : (l.map f).getLast? ≠ some b := by
  rw [List.getLast?_map]
  intro hb
  obtain ⟨x, hx, hfx⟩ := Option.map_eq_some_iff.1 hb
  exact h (by rw [hx, hf x (List.mem_of_getLast? hx) hfx])

theorem getLast?_chars_ne {bs : List Byte} (h : ∀ b ∈ bs, b.toNat ≤ 0x7F) (hlast : bs.getLast? ≠ some 0) :
    (bs.map fun b => Char.ofNat b.toNat).getLast? ≠ some (Char.ofNat 0) := by
  refine getLast?_map_ne (fun b hb hzero => BitVec.eq_of_toNat_eq ?_) hlast
  rw [← toNat_ofNat_of_ascii (h b hb), hzero]
  rfl

theorem getLast?_asciiBytes_ne {t : Text} (h : ∀ c ∈ t, c.toNat ≤ 0x7F) (hlast : t.getLast? ≠ some (Char.ofNat 0)) :
    (t.map fun c => BitVec.ofNat 8 c.toNat).getLast? ≠ some 0 := by
  refine getLast?_map_ne (fun c hc hzero => ?_) hlast
  rw [← Char.ofNat_toNat c, ← toNat_ofNat_ascii (h c hc), hzero]
  rfl

/-- A decoded text is at most N long, does not end in 0x00, and zeros after its codes fill N bytes (R164). -/
theorem unpackChars_spec {n : Nat} {buf : List Byte} {t : Text} (h : unpackChars n buf = .ok t) :
    t.length ≤ n ∧ (buf.take n).map BitVec.toNat = t.map Char.toNat ++ List.replicate (n - t.length) 0 ∧
      t.getLast? ≠ some (Char.ofNat 0) := by
  have hlen : n ≤ buf.length := by
    by_contra hlen
    rw [unpackChars_of_short (by omega)] at h
    cases h
  have hascii : ∀ b ∈ buf.take n, b.toNat ≤ 0x7F := by
    by_contra hascii
    rw [unpackChars_of_not_ascii hlen (by simpa using hascii)] at h
    cases h
  rw [unpackChars_of_ascii hlen hascii, Except.ok.injEq] at h
  subst h
  obtain ⟨k, hk, hlast⟩ := stripZeros_spec (buf.take n)
  generalize stripZeros (buf.take n) = l at hk hlast
  have hl : ∀ b ∈ l, b.toNat ≤ 0x7F := fun b hb => hascii b (hk ▸ List.mem_append_left _ hb)
  have hn : l.length + k = n := by simpa [hlen] using (congrArg List.length hk).symm
  refine ⟨by rw [List.length_map]; omega, ?_, getLast?_chars_ne hl hlast⟩
  rw [map_toNat_chars hl, hk, List.map_append, List.length_map, List.map_replicate, ← hn, Nat.add_sub_cancel_left]
  rfl

/-- Settles O19: the checks in R164's order, then what stripping the zeros leaves. -/
theorem stringUnpackStripsTrailingZeros : Obligations.StringUnpackStripsTrailingZeros := by
  refine fun n buf s => ⟨fun h => ?_, fun hlen h => ?_, fun hlen hascii => ?_⟩
  · rw [exec_unpackCh, unpackChars_of_short h]; rfl
  · rw [exec_unpackCh, unpackChars_of_not_ascii hlen h]; rfl
  · have h := unpackChars_of_ascii hlen hascii
    exact ⟨_, by rw [exec_unpackCh, h]; rfl, unpackChars_spec h⟩

/-- Zeros at the end are stripped, and no more than they. -/
theorem stripZeros_append_zeros {l : List Byte} (h : l.getLast? ≠ some 0) (k : Nat) :
    stripZeros (l ++ List.replicate k 0) = l := by
  have hhead : l.reverse.dropWhile (· == 0) = l.reverse := by
    rcases hl : l.reverse with _ | ⟨b, bs⟩
    · rfl
    · have hb : b ≠ 0 := by rintro rfl; exact h (by rw [← List.head?_reverse, hl]; rfl)
      exact List.dropWhile_cons_of_neg (by simpa using hb)
  rw [stripZeros, List.reverse_append, List.reverse_replicate,
    List.dropWhile_append_of_pos (by simp [List.mem_replicate]), hhead, List.reverse_reverse]

/-- A text packs into N ASCII bytes. -/
theorem ascii_of_packChars {n : Nat} {t : Text} {bs : List Byte} (h : packChars n t = .ok bs) :
    bs.length = n ∧ ∀ b ∈ bs, b.toNat ≤ 0x7F := by
  obtain ⟨hascii, hlen⟩ := fits_of_packChars h
  rw [packChars_of_fits hascii hlen, Except.ok.injEq] at h
  subst h
  refine ⟨by simp; omega, fun b hb => ?_⟩
  rcases List.mem_append.1 hb with hb | hb
  · obtain ⟨c, hc, rfl⟩ := List.mem_map.1 hb
    rw [toNat_ofNat_ascii (hascii c hc)]
    exact hascii c hc
  · simp [List.eq_of_mem_replicate hb]

/-- A packed text unpacks, whatever follows it, into its codes without the zeros at the end. -/
theorem unpackChars_of_packChars {n : Nat} {t : Text} {bs : List Byte} (h : packChars n t = .ok bs)
    (rest : List Byte) :
    unpackChars n (bs ++ rest) = .ok ((stripZeros bs).map fun b => Char.ofNat b.toNat) := by
  obtain ⟨hlen, hascii⟩ := ascii_of_packChars h
  have htake : (bs ++ rest).take n = bs := List.take_left' hlen
  rw [unpackChars_of_ascii (by simp [hlen]) (by rwa [htake]), htake]

/-- A text that does not end in 0x00 comes back from its packing (R166). -/
theorem unpackChars_packChars {n : Nat} {t : Text} {bs : List Byte} (h : packChars n t = .ok bs)
    (hlast : t.getLast? ≠ some (Char.ofNat 0)) (rest : List Byte) : unpackChars n (bs ++ rest) = .ok t := by
  obtain ⟨hascii, hlen⟩ := fits_of_packChars h
  have hbs := h
  rw [packChars_of_fits hascii hlen, Except.ok.injEq] at hbs
  rw [unpackChars_of_packChars h, ← hbs, stripZeros_append_zeros (getLast?_asciiBytes_ne hascii hlast), List.map_map]
  congr 1
  calc t.map ((fun b : Byte => Char.ofNat b.toNat) ∘ fun c => BitVec.ofNat 8 c.toNat)
      = t.map id := List.map_congr_left fun c hc => by
        simp only [Function.comp, toNat_ofNat_ascii (hascii c hc), Char.ofNat_toNat, id]
    _ = t := List.map_id t

theorem unpackChars_ok_iff (n : Nat) (buf : List Byte) (t : Text) (s : State) : unpackChars n buf = .ok t ↔
    exec (.unpackCh n buf) s = .next { s with res := .unpacked (.text t) n } := by
  rw [exec_unpackCh]
  cases unpackChars n buf <;> simp [textValue, answerUnpack, State.finish, State.raise, Kind.size]

/-- Settles O20: zeros out, 0 in. -/
theorem paddingPacksZerosAndUnpacksZero : Obligations.PaddingPacksZerosAndUnpacksZero := by
  refine fun n buf s => ⟨rfl, ?_⟩
  have h : exec (.unpackPad n buf) s = answerUnpack (.pad n) (intValue (unpackZeros n buf)) s := rfl
  rw [h, unpackZeros]
  split <;> rfl

/-! ## One field -/

theorem packBody_of_packable {b : Body} (h : packable b) : ∃ bs, packBody b = .ok bs := by
  cases b with
  | int k v => exact ⟨_, if_pos ((intFits_iff k v).2 h)⟩
  | ch n t => exact ⟨_, packChars_of_fits h.1 h.2⟩
  | pad n v => exact ⟨_, rfl⟩

/-- A packed field unpacks into any descriptor of its kind, whatever follows it, and gives the values back that packing
keeps (R166). -/
theorem unpackBody_packBody {b b' : Body} {bs : List Byte} (h : packBody b = .ok bs) (hkind : b'.kind = b.kind)
    (rest : List Byte) : ∃ b'', unpackBody b' (bs ++ rest) = .ok b'' ∧ (returnsFromPack b → b'' = b) := by
  cases b with
  | int k v =>
    cases b' <;> cases hkind
    exact ⟨.int k v, by rw [unpackBody, unpackInt_packInt h], fun _ => rfl⟩
  | ch n t =>
    cases b' <;> cases hkind
    refine ⟨.ch n _, by rw [unpackBody, unpackChars_of_packChars h], fun hlast => ?_⟩
    have hback := (unpackChars_of_packChars h rest).symm.trans (unpackChars_packChars h hlast rest)
    rw [Except.ok.inj hback]
  | pad n v =>
    cases b' <;> cases hkind
    cases h
    exact ⟨.pad n 0, by simp [unpackBody, unpackZeros, packZeros], False.elim⟩

/-- Settles O21: the round trips of integers and of texts; a text that comes back was unpacked, so it ends as one. -/
theorem packThenUnpackGivesTheValue : Obligations.PackThenUnpackGivesTheValue := by
  refine ⟨fun k v rest s hlo hhi => ?_, fun n t rest s => ⟨?_, ?_⟩⟩
  · obtain ⟨bs, hpack⟩ := packBody_of_packable (b := .int k v) ⟨hlo, hhi⟩
    obtain ⟨b, hunpack, hback⟩ := unpackBody_packBody (b' := .int k v) hpack rfl rest
    exact ⟨bs, (packBody_ok_iff (.int k v) bs s).1 hpack, length_packBody hpack,
      (unpackBody_ok_iff (.int k v) (bs ++ rest) (.int v) s).1 ⟨b, hunpack, by rw [hback trivial]; rfl⟩⟩
  · rintro ⟨hascii, hlen, hlast⟩
    have hpack := packChars_of_fits hascii hlen
    exact ⟨_, (packBody_ok_iff (.ch n t) _ s).1 hpack,
      (unpackChars_ok_iff n _ t s).1 (unpackChars_packChars hpack hlast rest)⟩
  · rintro ⟨bs, hpack, hunpack⟩
    obtain ⟨hascii, hlen⟩ := fits_of_packChars ((packBody_ok_iff (.ch n t) bs s).2 hpack)
    obtain ⟨-, -, hlast⟩ := unpackChars_spec ((unpackChars_ok_iff n _ t s).2 hunpack)
    exact ⟨hascii, hlen, hlast⟩

end Sys2Proof.Machine
end

section
/-! PROOFS. The field-set commands (41_field_codec.md R169-R177, 43_envelope.md R223, R224). -/

namespace Sys2Proof.Machine

open Sys2Proof

/-! ## Writing a field set -/

@[simp] theorem State.fieldSet_setFieldSet_self (s : State) (n : Nat) (fs : FieldSet) :
    (s.setFieldSet n fs).fieldSet n = fs := by
  rw [State.fieldSet_setFieldSet, if_pos rfl]

theorem State.fieldSet_setFieldSet_of_ne (s : State) {n m : Nat} (h : m ≠ n) (fs : FieldSet) :
    (s.setFieldSet n fs).fieldSet m = s.fieldSet m := by
  rw [State.fieldSet_setFieldSet, if_neg h]

theorem exec_fsNew (s : State) : exec .fsNew s =
    .next ((s.setFieldSet (bankFresh s.sets) FieldSet.empty).finish (.fieldSet (bankFresh s.sets))) := rfl

/-- Settles O22: the new number is above all listed ones. -/
theorem fsNewMakesAnEmptyFieldSet : Obligations.FsNewMakesAnEmptyFieldSet := by
  intro s
  refine ⟨bankFresh s.sets, _, exec_fsNew s, rfl, fun e he => (fst_lt_bankFresh he).ne, ?_, fun m hm => ?_, rfl⟩
  · exact State.fieldSet_setFieldSet_self s _ _
  · exact State.fieldSet_setFieldSet_of_ne s hm _

/-! ## FS_ADD, FS_GET and FS_SET -/

section
variable {fs fs' : FieldSet} {kind : Kind} {name : Text} {v : Value} {f : Field} {b : Body} {e : Error}
variable {n : Nat} {s : State}

theorem FieldSet.add_of_taken (h : ∃ f ∈ fs.fields, f.name = name) :
    fs.add kind name = .error (.fieldSet .duplicateName) :=
  if_pos (by simpa using h)

theorem FieldSet.add_of_new (h : ∀ f ∈ fs.fields, f.name ≠ name) :
    fs.add kind name = .ok ⟨fs.fields ++ [⟨name, fs.next, initialBody kind⟩], fs.next + 1⟩ :=
  if_neg (by simpa using h)

theorem exec_fsAdd_of_ok (h : (s.fieldSet n).add kind name = .ok fs') :
    exec (.fsAdd n kind name) s = .next ((s.setFieldSet n fs').finish .done) := by
  simp only [exec, execFsAdd, h, answer_ok]

theorem exec_fsAdd_of_error (h : (s.fieldSet n).add kind name = .error e) :
    exec (.fsAdd n kind name) s = .next (s.raise e) := by
  simp only [exec, execFsAdd, h, answer_error]

theorem initialBody_kind (kind : Kind) : (initialBody kind).kind = kind := by
  cases kind <;> rfl

theorem initialBody_value (kind : Kind) :
    (initialBody kind).value = .int 0 ∨ (initialBody kind).value = .text [] := by
  cases kind with
  | int k => exact .inl rfl
  | ch n => exact .inr rfl
  | pad n => exact .inl rfl

theorem FieldSet.set_of_unknown (h : ∀ f ∈ fs.fields, f.name ≠ name) :
    fs.set name v = .error (.fieldSet .unknownName) := by
  rw [FieldSet.set, FieldSet.find_eq_none h]

/-- Where names are unique, replacing by name replaces the one field. -/
theorem replaceBody_eq (hi : FieldSet.Inv fs) (hf : f ∈ fs.fields) (b : Body) : replaceBody f.name b fs.fields =
    fs.fields.map fun g => if g = f then { f with body := b } else g := by
  refine List.map_congr_left fun g hg => ?_
  by_cases hgf : g = f
  · rw [if_pos hgf, if_pos (congrArg Field.name hgf), hgf]
  · rw [if_neg hgf, if_neg fun hname => hgf (List.inj_on_of_nodup_map hi.namesUnique hg hf hname)]

theorem FieldSet.set_of_ok (hi : FieldSet.Inv fs) (hf : f ∈ fs.fields) (hb : f.body.set v = .ok b) :
    fs.set f.name v = .ok ⟨fs.fields.map fun g => if g = f then { f with body := b } else g, fs.next⟩ := by
  simp only [FieldSet.set, FieldSet.find_eq_some hi hf, hb, replaceBody_eq hi hf]

theorem FieldSet.set_of_error (hi : FieldSet.Inv fs) (hf : f ∈ fs.fields) (hb : f.body.set v = .error e) :
    fs.set f.name v = .error e := by
  simp only [FieldSet.set, FieldSet.find_eq_some hi hf, hb]

theorem exec_fsSet_of_ok (h : (s.fieldSet n).set name v = .ok fs') :
    exec (.fsSet n name v) s = .next ((s.setFieldSet n fs').finish .done) := by
  simp only [exec, execFsSet, h, answer_ok]

theorem exec_fsSet_of_error (h : (s.fieldSet n).set name v = .error e) :
    exec (.fsSet n name v) s = .next (s.raise e) := by
  simp only [exec, execFsSet, h, answer_error]

/-- A value of the right sort is stored in the named field alone. -/
theorem exec_fsSet_stores (hi : FieldSet.Inv (s.fieldSet n)) (hf : f ∈ (s.fieldSet n).fields)
    (hb : f.body.set v = .ok b) (hkind : b.kind = f.body.kind) (hv : b.value = v) :
    ∃ t, exec (.fsSet n f.name v) s = .next t ∧
      (∃ b : Body, b.kind = f.body.kind ∧ b.value = v ∧
        t.fieldSet n = ⟨(s.fieldSet n).fields.map (fun g => if g = f then { f with body := b } else g),
          (s.fieldSet n).next⟩) ∧
      (∀ m, m ≠ n → t.fieldSet m = s.fieldSet m) ∧ t = { s with sets := t.sets, res := .done } := by
  refine ⟨_, exec_fsSet_of_ok (FieldSet.set_of_ok hi hf hb), ⟨b, hkind, hv, ?_⟩, fun m hm => ?_, rfl⟩
  · exact State.fieldSet_setFieldSet_self s n _
  · exact State.fieldSet_setFieldSet_of_ne s hm _
end

/-- Settles O23: a taken name is rejected, a new one is appended with the default of its kind. -/
theorem fsAddAppendsAFieldOrRejectsTheName : Obligations.FsAddAppendsAFieldOrRejectsTheName := by
  refine fun n kind name s => ⟨fun h => exec_fsAdd_of_error (FieldSet.add_of_taken h), fun h => ?_⟩
  refine ⟨_, initialBody kind, exec_fsAdd_of_ok (FieldSet.add_of_new h), initialBody_kind kind,
    initialBody_value kind, ?_, fun m hm => ?_, rfl⟩
  · exact State.fieldSet_setFieldSet_self s n _
  · exact State.fieldSet_setFieldSet_of_ne s hm _

/-- Settles O24: the search by name finds the one field of that name, or none. -/
theorem fsGetReturnsTheNamedValue : Obligations.FsGetReturnsTheNamedValue := by
  refine fun n name s => ⟨fun h => ?_, ?_⟩
  · rw [exec_fsGet, FieldSet.find_eq_none h]; rfl
  · rintro f hf rfl hi
    rw [exec_fsGet, FieldSet.find_eq_some hi hf]; rfl

/-- Settles O25: by the sort of the field and of the value. -/
theorem fsSetStoresTheValueOrRaises : Obligations.FsSetStoresTheValueOrRaises := by
  refine fun n name v s => ⟨fun h => exec_fsSet_of_error (FieldSet.set_of_unknown h), ?_⟩
  rintro ⟨name, order, body⟩ hf rfl hi
  rcases body with ⟨k, w⟩ | ⟨m, u⟩ | ⟨m, w⟩ <;> rcases v with v | t
  · exact exec_fsSet_stores hi hf rfl rfl rfl
  · exact exec_fsSet_of_error (FieldSet.set_of_error hi hf rfl)
  · exact exec_fsSet_of_error (FieldSet.set_of_error hi hf rfl)
  · exact exec_fsSet_stores hi hf rfl rfl rfl
  · exact exec_fsSet_of_error (FieldSet.set_of_error hi hf rfl)
  · exact exec_fsSet_of_error (FieldSet.set_of_error hi hf rfl)

/-! ## FS_PACK -/

theorem fieldOffset_length (l : List Field) :
    fieldOffset l l.length = (l.map fun f => f.body.kind.size).sum := by
  rw [fieldOffset, List.take_length]

/-- The answers of the fields' PACK commands, as the model's packing gives them. -/
theorem map_packBody_of_exec {s : State} {l : List Field} {parts : List (List Byte)}
    (h : l.map (fun f => exec (packCommand f.body) s) = parts.map fun bs => .next { s with res := .bytes bs }) :
    l.map (fun f => packBody f.body) = parts.map .ok := by
  induction l generalizing parts with
  | nil =>
    obtain rfl : parts = [] := by simpa using h
    rfl
  | cons f l ih =>
    rcases parts with _ | ⟨bs, parts⟩
    · cases h
    · obtain ⟨hhead, htail⟩ := List.cons.inj h
      simp only [List.map_cons, ih htail, (packBody_ok_iff f.body bs s).2 hhead]

/-- Settles O26: both commands pack the fields in the list's order. -/
theorem fieldSetPackJoinsTheFieldsInOrder : Obligations.FieldSetPackJoinsTheFieldsInOrder := by
  intro i n s hi
  have hexec : exec i s = answer s ((packFields (s.fieldSet n).fields).map .bytes) := by
    rcases hi with rfl | rfl <;> exact packOut_eq n s
  refine ⟨fun parts hparts => ?_, fun before f after cause hfields hbefore hf => ?_⟩
  · obtain ⟨hpack, hlen⟩ := packFields_ok _ parts (map_packBody_of_exec hparts)
    rw [hexec, hpack, fieldOffset_length]
    exact ⟨rfl, hlen⟩
  · have hpack := packFields_error before f after
      (fun g hg => (hbefore g hg).imp fun bs h => (packBody_ok_iff g.body bs s).2 h)
      ((packBody_error_iff f.body cause s).2 hf)
    rw [hexec, hfields, hpack]
    rfl

/-! ## FS_UNPACK -/

section
variable {n start : Nat} {buf rest : List Byte} {done : List Field} {e : Error} {s : State}

theorem exec_unpack_eq {i : Instr} (hi : i = .fsUnpack n buf start ∨ (i = .envUnpack n buf ∧ start = 0)) (s : State) :
    exec i s = unpackInto n buf start s := by
  rcases hi with rfl | ⟨rfl, rfl⟩ <;> rfl

theorem unpackInto_of_ok (h : unpackFields ((s.fieldSet n).fields.drop start) buf = .ok (done, rest)) :
    unpackInto n buf start s = .next ((s.setFieldSet n
      ⟨(s.fieldSet n).fields.take start ++ done, (s.fieldSet n).next⟩).finish (.rest rest)) := by
  simp only [unpackInto, h, answer_ok]

theorem unpackInto_of_error (h : unpackFields ((s.fieldSet n).fields.drop start) buf = .error e) :
    unpackInto n buf start s = .next (((s.setFieldSet n
      ⟨(s.fieldSet n).fields.take start ++ freeFields s.draws ((s.fieldSet n).fields.drop start),
        (s.fieldSet n).next⟩).drew ((s.fieldSet n).fields.length - start)).raise e) := by
  simp only [unpackInto, h, answer_error]
end

/-- Settles O27: each field's UNPACK command succeeds on its slice, so the unpacking of the fields does. -/
theorem fieldSetUnpackSlicesTheBuffer : Obligations.FieldSetUnpackSlicesTheBuffer := by
  rintro i n start buf l values s hi rfl hlen hslices
  set l := (s.fieldSet n).fields.drop start
  have hbody j (hj : j < l.length) : ∃ b, unpackBody l[j].body (buf.drop (fieldOffset l j)) = .ok b ∧
      b.value = values[j] := (unpackBody_ok_iff ..).2 (hslices j hj (hlen ▸ hj))
  obtain ⟨done, hdone, hdlen, hget⟩ := unpackFields_of_slices l buf fun j hj => (hbody j hj).imp fun _ h => h.1
  obtain ⟨hname, horder, hkind, -, -, hfit⟩ := unpackFields_ok hdone
  have hvalues : done.map (fun f => f.body.value) = values := by
    refine List.ext_getElem (by rw [List.length_map, hdlen, hlen]) fun j hj hv => ?_
    have hjl : j < l.length := hlen ▸ hv
    obtain ⟨b, hb, hvalue⟩ := hbody j hjl
    have hsame := hb.symm.trans (hget j hjl (hdlen ▸ hjl))
    rw [List.getElem_map, ← hvalue, Except.ok.inj hsame]
  have hsizes : (done.map fun f => f.body.kind.size).sum = fieldOffset l l.length := by
    have := congrArg (List.map Kind.size) hkind
    rw [List.map_map, List.map_map] at this
    rw [fieldOffset_length]
    exact congrArg List.sum this
  refine ⟨_, done, (exec_unpack_eq hi s).trans (unpackInto_of_ok hdone), rfl, hsizes ▸ hfit, ?_, hname, horder,
    hkind, hvalues, fun m hm => ?_, rfl⟩
  · exact State.fieldSet_setFieldSet_self s n _
  · exact State.fieldSet_setFieldSet_of_ne s hm _

/-- Settles O28: the fields before the failing one unpack, so its error is the first, and free values keep the schema. -/
theorem failedFieldSetUnpackKeepsTheSchema : Obligations.FailedFieldSetUnpackKeepsTheSchema := by
  intro i n start buf s before after f cause hi hdrop hbefore hf
  obtain ⟨done, hdone, -⟩ := unpackFields_of_slices before buf fun j hj => by
    obtain ⟨v, hv⟩ := hbefore j hj
    exact ((unpackBody_ok_iff ..).2 hv).imp fun _ h => h.1
  have herr := unpackFields_error before f after hdone ((unpackBody_error_iff ..).2 hf)
  have hstart : start < (s.fieldSet n).fields.length := by
    by_contra hge
    rw [List.drop_eq_nil_of_le (by omega)] at hdrop
    simp at hdrop
  obtain ⟨hname, horder, hkind⟩ := freeFields_schema ((s.fieldSet n).fields.drop start) s.draws
  refine ⟨_, (exec_unpack_eq hi s).trans (unpackInto_of_error (hdrop ▸ herr)), rfl, ?_⟩
  simp only [State.raise_fieldSet, State.drew_fieldSet, State.fieldSet_setFieldSet_self]
  refine ⟨List.take_left' (by rw [List.length_take]; omega), map_take_append _ hname, map_take_append _ horder,
    map_take_append _ hkind, trivial, fun m hm => ?_, rfl⟩
  exact State.fieldSet_setFieldSet_of_ne s hm _

/-! ## FS_ADD_GROUP -/

/-- The names of `adds` are distinct and none is taken. -/
def NamesNew (fs : FieldSet) (adds : List (Kind × Text)) : Prop :=
  (fs.fields.map Field.name ++ adds.map Prod.snd).Nodup

theorem NamesNew.head {fs : FieldSet} {a : Kind × Text} {adds : List (Kind × Text)} (h : NamesNew fs (a :: adds)) :
    ∀ f ∈ fs.fields, f.name ≠ a.2 := fun f hf heq =>
  (List.nodup_append.1 h).2.2 f.name (List.mem_map_of_mem hf) a.2 (by simp) heq

/-- FS_ADDs of new names succeed. -/
theorem addEach_error_none {adds : List (Kind × Text)} {fs : FieldSet} (h : NamesNew fs adds) :
    (FieldSet.addEach adds fs).2 = none := by
  induction adds generalizing fs with
  | nil => rfl
  | cons a adds ih =>
    simp only [FieldSet.addEach, FieldSet.add_of_new h.head]
    exact ih (by simpa [NamesNew] using h)

/-- The FS_ADDs, one by one, write what `addEach` computes. -/
theorem execAll_fsAdds (n : Nat) {adds : List (Kind × Text)} {s : State} (h : NamesNew (s.fieldSet n) adds) :
    ∃ u, execAll (adds.map fun a => .fsAdd n a.1 a.2) s = .next u ∧
      ∀ m, u.fieldSet m = (s.setFieldSet n (FieldSet.addEach adds (s.fieldSet n)).1).fieldSet m := by
  induction adds generalizing s with
  | nil =>
    refine ⟨s, rfl, fun m => ?_⟩
    rw [State.fieldSet_setFieldSet]
    split
    · next hm => rw [hm]; rfl
    · rfl
  | cons a adds ih =>
    have hadd := FieldSet.add_of_new (kind := a.1) h.head
    have hexec := exec_fsAdd_of_ok hadd
    set fs : FieldSet := ⟨(s.fieldSet n).fields ++ [⟨a.2, (s.fieldSet n).next, initialBody a.1⟩],
      (s.fieldSet n).next + 1⟩
    have hfs : ((s.setFieldSet n fs).finish .done).fieldSet n = fs := State.fieldSet_setFieldSet_self s n fs
    obtain ⟨u, hu, hread⟩ := ih (s := (s.setFieldSet n fs).finish .done) (by
      rw [hfs]; simpa [NamesNew, fs] using h)
    refine ⟨u, by simp only [List.map_cons, execAll, hexec, hu], fun m => ?_⟩
    rw [hread, hfs, State.fieldSet_setFieldSet, State.fieldSet_setFieldSet, State.finish_fieldSet]
    simp only [FieldSet.addEach, hadd]
    split
    · rfl
    · next hm => rw [State.fieldSet_setFieldSet_of_ne s hm]

theorem exec_fsAddGroup_of_addEach {n : Nat} {template : List (Kind × Text)} {count : Int} {pre : Text} {s : State}
    {adds : List (Kind × Text)} {fs : FieldSet} {e : Option Error} (hadds : groupFields template count.toNat pre = adds)
    (h : FieldSet.addEach adds (s.fieldSet n) = (fs, e)) :
    exec (.fsAddGroup n template count pre) s = .next ((s.setFieldSet n fs).finish (e.elim .done .raised)) := by
  cases e <;> simp only [exec, execFsAddGroup, hadds, h] <;> rfl

/-- The model's fields of a group are R175's. -/
theorem groupFields_eq (template : List (Kind × Text)) (count : Nat) (pre : Text) :
    groupFields template count pre = (List.range count).flatMap (fun i =>
      template.map (fun kb => (kb.1, pre ++ kb.2 ++ "_".toList ++ (toString i).toList))) := by
  have hdecimal (i : Nat) : (toString i).toList = decimal i := by simp [decimal]
  simp only [groupFields, hdecimal]
  rfl

/-- Settles O29: the group's FS_ADDs are `addEach`, which goes on while the names are new and stops at a taken one. -/
theorem fsAddGroupIsItsFsAdds : Obligations.FsAddGroupIsItsFsAdds := by
  intro n count template pre s adds
  have hadds : groupFields template count.toNat pre = adds := groupFields_eq template count.toNat pre
  refine ⟨fun hnew => ?_, fun before a after hsplit hnew htaken => ?_, fun hcount => ?_⟩
  · obtain ⟨u, hu, hread⟩ := execAll_fsAdds n (s := s) hnew
    have heach : FieldSet.addEach adds (s.fieldSet n) = ((FieldSet.addEach adds (s.fieldSet n)).1, none) :=
      Prod.ext rfl (addEach_error_none hnew)
    exact ⟨_, u, exec_fsAddGroup_of_addEach hadds heach, rfl, hu, fun m => (hread m).symm, rfl⟩
  · obtain ⟨u, hu, hread⟩ := execAll_fsAdds n (s := s) hnew
    have hnone := addEach_error_none hnew
    set fs := (FieldSet.addEach before (s.fieldSet n)).1
    have hdup : fs.add a.1 a.2 = .error (.fieldSet .duplicateName) := by
      rw [← FieldSet.addEach_names before _ hnone] at htaken
      exact FieldSet.add_of_taken (List.mem_map.1 htaken)
    have heach : FieldSet.addEach adds (s.fieldSet n) = (fs, some (.fieldSet .duplicateName)) := by
      rw [hsplit, FieldSet.addEach_append _ _ _ hnone]
      simp only [FieldSet.addEach, fs, hdup]
    exact ⟨_, u, exec_fsAddGroup_of_addEach hadds heach, rfl, hu, fun m => (hread m).symm, rfl⟩
  · have hempty : groupFields template count.toNat pre = [] := by
      rw [Int.toNat_of_nonpos hcount]; rfl
    refine ⟨_, exec_fsAddGroup_of_addEach hempty rfl, fun m => ?_, rfl⟩
    rw [State.finish_fieldSet, State.fieldSet_setFieldSet]
    split
    · next hm => rw [hm]
    · rfl

/-! ## The round trip of a field set (R176) -/

theorem packFields_of_packable {l : List Field} (h : ∀ f ∈ l, packable f.body) : ∃ bs, packFields l = .ok bs := by
  induction l with
  | nil => exact ⟨[], rfl⟩
  | cons f l ih =>
    obtain ⟨bs, hf⟩ := packBody_of_packable (h f (by simp))
    obtain ⟨out, hl⟩ := ih fun g hg => h g (by simp [hg])
    exact ⟨bs ++ out, by simp only [packFields, hf, hl]⟩

theorem unpackFields_packFields {l l' : List Field} {bs : List Byte} (h : packFields l = .ok bs)
    (hkind : l'.map (fun f => f.body.kind) = l.map fun f => f.body.kind) : ∃ done,
    unpackFields l' bs = .ok (done, []) ∧ done.length = l.length ∧
      ∀ j (hj : j < l.length) (hj' : j < done.length), returnsFromPack l[j].body → done[j].body = l[j].body := by
  induction l generalizing l' bs with
  | nil =>
    obtain rfl : l' = [] := by simpa using hkind
    cases h
    exact ⟨[], rfl, rfl, nofun⟩
  | cons f l ih =>
    rcases l' with _ | ⟨f', l'⟩
    · cases hkind
    obtain ⟨hk, hks⟩ : f'.body.kind = f.body.kind ∧ _ := List.cons.inj hkind
    simp only [packFields] at h
    cases hf : packBody f.body with
    | error e => rw [hf] at h; cases h
    | ok fbs =>
      cases hl : packFields l with
      | error e => rw [hf, hl] at h; cases h
      | ok out =>
        rw [hf, hl] at h
        cases h
        obtain ⟨done, hdone, hlen, hget⟩ := ih hl hks
        obtain ⟨b, hb, hback⟩ := unpackBody_packBody hf hk out
        have hdrop : (fbs ++ out).drop f'.body.kind.size = out :=
          List.drop_left' (by rw [length_packBody hf, hk])
        refine ⟨{ f' with body := b } :: done, by simp only [unpackFields, hb, hdrop, hdone], by simp [hlen], ?_⟩
        rintro (_ | j) hj hj'
        · exact hback
        · exact hget j (by simpa using hj) (by simpa using hj')

/-- Settles O30: field by field the bytes are read back by the other set's field of the same kind. -/
theorem fieldSetPackThenUnpackGivesTheValues : Obligations.FieldSetPackThenUnpackGivesTheValues := by
  intro n m s hnm hpackable hkind
  obtain ⟨bs, hpack⟩ := packFields_of_packable hpackable
  obtain ⟨done, hdone, hlen, hget⟩ := unpackFields_packFields hpack hkind
  have hexec : exec (.fsPack n) s = .next { s with res := .bytes bs } := by
    show packOut n s = _
    rw [packOut_eq, hpack]; rfl
  have hm : (((s.setFieldSet m ⟨(s.fieldSet m).fields.take 0 ++ done, (s.fieldSet m).next⟩).finish
      (.rest [])).fieldSet m).fields = done := by simp
  refine ⟨bs, _, hexec, unpackInto_of_ok (start := 0) hdone, rfl, ?_, ?_, ?_⟩
  · exact State.fieldSet_setFieldSet_of_ne s hnm _
  · rw [hm, hlen]
  · simp only [hm]
    exact hget

end Sys2Proof.Machine
end

section
/-! PROOFS. The bit-flag helpers, bit by bit (41_field_codec.md R180, R181). -/

namespace Sys2Proof.Machine

open Sys2Proof

theorem testBit_bitField (v lsb width i : Nat) :
    (bitField v lsb width).testBit i = (decide (i < width) && v.testBit (lsb + i)) := by
  rw [bitField, Nat.testBit_and, Nat.testBit_shiftRight, Nat.testBit_two_pow_sub_one, Bool.and_comm]

/-- The mask `(2^width - 1) << lsb` covers the bits of the range. -/
theorem testBit_mask (lsb width i : Nat) :
    ((2 ^ width - 1) <<< lsb).testBit i = decide (lsb ≤ i ∧ i < lsb + width) := by
  rw [Nat.testBit_shiftLeft, Nat.testBit_two_pow_sub_one, Bool.decide_and]
  by_cases h : lsb ≤ i
  · simp [h, Nat.sub_lt_iff_lt_add h, Nat.add_comm]
  · simp [h]

theorem testBit_withBitField {v lsb width x : Nat} (hx : x < 2 ^ width) (i : Nat) :
    (withBitField v lsb width x).testBit i =
      if lsb ≤ i ∧ i < lsb + width then x.testBit (i - lsb) else v.testBit i := by
  rw [withBitField, Nat.testBit_or, Nat.testBit_xor, Nat.testBit_and, testBit_mask, Nat.testBit_shiftLeft]
  split_ifs with h
  · simp [h]
  · have hout : (decide (lsb ≤ i) && x.testBit (i - lsb)) = false := by
      by_cases hi : lsb ≤ i
      · have hbit := Nat.testBit_lt_two_pow (hx.trans_le (Nat.pow_le_pow_right two_pos (by omega : width ≤ i - lsb)))
        rw [hbit, Bool.and_false]
      · simp [hi]
    simp [h, hout]

/-- Settles O31: the shifted value, masked to the width. -/
theorem bfGetReadsTheBitRange : Obligations.BfGetReadsTheBitRange :=
  fun v lsb width _ _ => ⟨bitField v lsb width, rfl, testBit_bitField v lsb width⟩

/-- Settles O32: the range is cleared and `x`, which fits it, is put in. -/
theorem bfSetReplacesTheBitRange : Obligations.BfSetReplacesTheBitRange := by
  intro v lsb width x s _
  have hpow : ((2 ^ width : Nat) : Int) = 2 ^ width := by push_cast; rfl
  refine ⟨fun h => ?_, fun h0 hlt => ⟨withBitField v lsb width x.toNat, ?_, testBit_withBitField ?_⟩⟩
  · rw [exec_bfSet, hpow, if_neg h]; rfl
  · rw [exec_bfSet, hpow, if_pos ⟨h0, hlt⟩]; rfl
  · omega

end Sys2Proof.Machine
end

section
/-! PROOFS. Configuration keys and items (42_config_item.md R200-R207, 30_encoding.md R84). -/

namespace Sys2Proof.Machine

open Sys2Proof

/-! ## Keys -/

/-- A key's fields do not overlap, so joining them is adding them (R84). -/
theorem keyOf_eq {size group item : Nat} (hgroup : group < 2 ^ 8) (hitem : item < 2 ^ 12) :
    keyOf size group item = BitVec.ofNat 32 (size * 2 ^ 28 + group * 2 ^ 16 + item) := by
  have hlow : group <<< 16 + item < 2 ^ 28 := by rw [Nat.shiftLeft_eq]; omega
  have hsum : size <<< 28 + (group <<< 16 + item) = size * 2 ^ 28 + group * 2 ^ 16 + item := by
    rw [Nat.shiftLeft_eq, Nat.shiftLeft_eq, Nat.add_assoc]
  rw [← hsum, Nat.shiftLeft_add_eq_or_of_lt hlow, Nat.shiftLeft_add_eq_or_of_lt (by omega), ← Nat.or_assoc]
  apply BitVec.eq_of_toNat_eq
  simp only [keyOf, BitVec.toNat_or, BitVec.toNat_shiftLeft, BitVec.toNat_ofNat, Nat.or_mod_two_pow,
    Nat.shiftLeft_eq, Nat.mod_mul_mod]

theorem makeKey_of_size {group item bits : Int} {size : Nat} (hgroup : 0 ≤ group ∧ group ≤ 255)
    (hitem : 0 ≤ item ∧ item ≤ 4095) (hsize : sizeOf? bits = some size) : makeKey group item bits =
      .ok (BitVec.ofNat 32 (size * 2 ^ 28 + group.toNat * 2 ^ 16 + item.toNat)) := by
  simp only [makeKey, if_neg (not_not.2 hgroup), if_neg (not_not.2 hitem), hsize]
  rw [keyOf_eq (by omega) (by omega)]

theorem keySize_eq (key : Key) : keySize key = key.toNat / 2 ^ 28 % 8 := by
  simp [keySize, BitVec.extractLsb'_toNat, Nat.shiftRight_eq_div_pow]

theorem keyGroup_eq (key : Key) : keyGroup key = key.toNat / 2 ^ 16 % 256 := by
  simp [keyGroup, BitVec.extractLsb'_toNat, Nat.shiftRight_eq_div_pow]

theorem keyItem_eq (key : Key) : keyItem key = key.toNat % 4096 := by
  simp [keyItem, BitVec.extractLsb'_toNat]

theorem bitsOf_reserved {size : Nat} (h : size = 0 ∨ size = 6 ∨ size = 7) : bitsOf size = none := by
  rcases h with rfl | rfl | rfl <;> rfl

theorem bitsOf_of_size {size : Nat} (hlt : size < 8) (h : ¬(size = 0 ∨ size = 6 ∨ size = 7)) :
    bitsOf size = some (if size = 1 then 1 else 4 * 2 ^ (size - 1)) := by
  have h1 : 1 ≤ size := by omega
  have h5 : size ≤ 5 := by omega
  interval_cases size <;> rfl

/-- The size codes no bit-width has (R200). -/
abbrev Reserved (size : Nat) : Prop := size = 0 ∨ size = 6 ∨ size = 7

theorem keyFields_of_reserved {key : Key} (h : Reserved (key.toNat / 2 ^ 28 % 8)) :
    keyFields key = .error (.decoding .badSizeCode (.key key)) := by
  simp only [keyFields, keySize_eq, bitsOf_reserved h]

theorem keyFields_of_size {key : Key} (h : ¬Reserved (key.toNat / 2 ^ 28 % 8)) : keyFields key =
    .ok (key.toNat / 2 ^ 16 % 256, key.toNat % 4096, key.toNat / 2 ^ 28 % 8,
      if key.toNat / 2 ^ 28 % 8 = 1 then 1 else 4 * 2 ^ (key.toNat / 2 ^ 28 % 8 - 1)) := by
  simp only [keyFields, keySize_eq, keyGroup_eq, keyItem_eq, bitsOf_of_size (Nat.mod_lt _ (by omega)) h]

/-- Settles O33: the range checks in order, one key for each bit-width, and the parts of a key by bit places. -/
theorem cfgKeysAreMadeAndSplit : Obligations.CfgKeysAreMadeAndSplit := by
  intro group item bits key s size
  constructor
  · rw [exec_cfgKeyMake]
    by_cases hgroup : 0 ≤ group ∧ group ≤ 255
    case neg => rw [makeKey, if_pos hgroup, if_pos hgroup]; rfl
    by_cases hitem : 0 ≤ item ∧ item ≤ 4095
    case neg =>
      rw [makeKey, if_neg (not_not.2 hgroup), if_pos hitem, if_neg (not_not.2 hgroup), if_pos hitem]; rfl
    rw [if_neg (not_not.2 hgroup), if_neg (not_not.2 hitem)]
    split_ifs with h1 h8 h16 h32 h64
    · rw [makeKey_of_size hgroup hitem (size := 1) (by rw [h1]; rfl)]; rfl
    · rw [makeKey_of_size hgroup hitem (size := 2) (by rw [h8]; rfl)]; rfl
    · rw [makeKey_of_size hgroup hitem (size := 3) (by rw [h16]; rfl)]; rfl
    · rw [makeKey_of_size hgroup hitem (size := 4) (by rw [h32]; rfl)]; rfl
    · rw [makeKey_of_size hgroup hitem (size := 5) (by rw [h64]; rfl)]; rfl
    · have hnone : sizeOf? bits = none := by simp [sizeOf?, h1, h8, h16, h32, h64]
      simp only [makeKey, if_neg (not_not.2 hgroup), if_neg (not_not.2 hitem), hnone]; rfl
  · rw [exec_cfgKeyFields]
    by_cases h : Reserved size
    · rw [keyFields_of_reserved h, if_pos h]; rfl
    · rw [keyFields_of_size h, if_neg h]; rfl

/-! ## Values -/

/-- The kind of a value wider than one bit, by the signedness of its key and the key's size code (R203). -/
def keyKind (signed : Bool) (size : Nat) : IntKind :=
  if signed then ([.i8, .i16, .i32, .i64] : List IntKind).getD (size - 2) .i8
  else ([.u8, .u16, .u32, .u64] : List IntKind).getD (size - 2) .u8

theorem valueKind_eq (signed : Bool) {size : Nat} (h2 : 2 ≤ size) (h5 : size ≤ 5) :
    valueKind signed (4 * 2 ^ (size - 1)) = keyKind signed size := by
  interval_cases size <;> cases signed <;> rfl

theorem signed_keyKind (signed : Bool) {size : Nat} (h2 : 2 ≤ size) (h5 : size ≤ 5) :
    (keyKind signed size).signed = signed := by
  interval_cases size <;> cases signed <;> rfl

theorem four_mul_two_pow_ne_one (n : Nat) : 4 * 2 ^ n ≠ 1 := by
  omega

section
variable {c : Params} {key : Key} {v : Int} {buf : List Byte}

theorem packValue_of_reserved (h : Reserved (key.toNat / 2 ^ 28 % 8)) :
    packValue c key v = .error (.decoding .badSizeCode (.key key)) := by
  simp only [packValue, keyFields_of_reserved h]

theorem packValue_of_bit (h : key.toNat / 2 ^ 28 % 8 = 1) : packValue c key v =
    if v = 0 then .ok [0] else if v = 1 then .ok [1] else .error (.decoding .outOfRange (.operand .v v)) := by
  have hsize : ¬Reserved (key.toNat / 2 ^ 28 % 8) := by rw [h]; decide
  simp only [packValue, keyFields_of_size hsize, if_pos h, if_pos]
  by_cases h0 : v = 0
  · rw [h0]; rfl
  by_cases h1 : v = 1
  · rw [h1]; rfl
  · rw [if_neg (not_or.2 ⟨h0, h1⟩), if_neg h0, if_neg h1]

theorem packValue_of_wide (h2 : 2 ≤ key.toNat / 2 ^ 28 % 8) (h5 : key.toNat / 2 ^ 28 % 8 ≤ 5) :
    packValue c key v = (packInt (keyKind (c.signed key) (key.toNat / 2 ^ 28 % 8)) v).mapError
      (fieldError (.int (keyKind (c.signed key) (key.toNat / 2 ^ 28 % 8))) none) := by
  have hsize : ¬Reserved (key.toNat / 2 ^ 28 % 8) := by omega
  simp only [packValue, keyFields_of_size hsize, if_neg (show key.toNat / 2 ^ 28 % 8 ≠ 1 by omega),
    if_neg (four_mul_two_pow_ne_one _), valueKind_eq _ h2 h5]
  cases packInt (keyKind (c.signed key) (key.toNat / 2 ^ 28 % 8)) v <;> rfl

theorem unpackValue_of_reserved (h : Reserved (key.toNat / 2 ^ 28 % 8)) :
    unpackValue c key buf = .error (.decoding .badSizeCode (.key key)) := by
  simp only [unpackValue, keyFields_of_reserved h]

theorem unpackValue_of_bit_nil (h : key.toNat / 2 ^ 28 % 8 = 1) :
    unpackValue c key [] = .error (fieldError (.int .u8) none .shortBuffer) := by
  have hsize : ¬Reserved (key.toNat / 2 ^ 28 % 8) := by rw [h]; decide
  simp only [unpackValue, keyFields_of_size hsize, if_pos h, if_pos]

theorem unpackValue_of_bit_cons (h : key.toNat / 2 ^ 28 % 8 = 1) (b : Byte) (bs : List Byte) :
    unpackValue c key (b :: bs) = .ok (if b = 0 ∨ b = 1 then some (b.toNat : Int) else none, 1) := by
  have hsize : ¬Reserved (key.toNat / 2 ^ 28 % 8) := by rw [h]; decide
  simp only [unpackValue, keyFields_of_size hsize, if_pos h, if_pos]

theorem unpackValue_of_wide (h2 : 2 ≤ key.toNat / 2 ^ 28 % 8) (h5 : key.toNat / 2 ^ 28 % 8 ≤ 5) :
    unpackValue c key buf = ((unpackInt (keyKind (c.signed key) (key.toNat / 2 ^ 28 % 8)) buf).map
        fun v => (some v, (keyKind (c.signed key) (key.toNat / 2 ^ 28 % 8)).bytes)).mapError
      (fieldError (.int (keyKind (c.signed key) (key.toNat / 2 ^ 28 % 8))) none) := by
  have hsize : ¬Reserved (key.toNat / 2 ^ 28 % 8) := by omega
  simp only [unpackValue, keyFields_of_size hsize, if_neg (show key.toNat / 2 ^ 28 % 8 ≠ 1 by omega),
    if_neg (four_mul_two_pow_ne_one _), valueKind_eq _ h2 h5]
  cases unpackInt (keyKind (c.signed key) (key.toNat / 2 ^ 28 % 8)) buf <;> rfl

/-- An item is the key's four bytes and the value's, or the value's error: the value checks the key first (R206). -/
theorem packItem_eq : packItem c key v = (packValue c key v).map (littleEndian 4 key.toNat ++ ·) := by
  simp only [packItem, littleEndian_eq]
  cases hk : keyFields key with
  | error e => simp only [packValue, hk]; rfl
  | ok f => cases packValue c key v <;> rfl
end

/-- The result a command ends with. -/
def resultOf : Except Error Result → Result
  | .ok r => r
  | .error e => .raised e

theorem answer_eq (s : State) (r : Except Error Result) : answer s r = .next { s with res := resultOf r } := by
  cases r <;> rfl

theorem resultOf_packInt (kind : IntKind) (v : Int) :
    resultOf (((packInt kind v).mapError (fieldError (.int kind) none)).map .bytes) =
      if kind.lo ≤ v ∧ v ≤ kind.hi then .bytes (littleEndian kind.bytes (v % 2 ^ (8 * kind.bytes)).toNat)
      else .raised (.decoding .outOfRange (.field (.int kind) none)) := by
  rw [packInt_eq]
  split <;> rfl

/-- Settles O34: by the key's size code. -/
theorem cfgPackWritesTheValueTheKeyGives : Obligations.CfgPackWritesTheValueTheKeyGives := by
  intro key v s size value
  have hvalue : resultOf ((packValue s.params key v).map .bytes) = value := by
    by_cases hres : Reserved size
    · rw [packValue_of_reserved hres]
      exact (if_pos hres).symm
    refine Eq.trans ?_ (if_neg hres).symm
    by_cases hbit : size = 1
    · rw [packValue_of_bit hbit, if_pos hbit]
      split_ifs <;> rfl
    · rw [if_neg hbit]
      have hlt : size < 8 := Nat.mod_lt _ (by omega)
      rw [packValue_of_wide (show 2 ≤ size by omega) (show size ≤ 5 by omega)]
      exact resultOf_packInt (keyKind (s.params.signed key) size) v
  constructor
  · rw [exec_cfgValPack, answer_eq, hvalue]
  · rw [exec_cfgItemPack, answer_eq, packItem_eq, ← hvalue]
    cases packValue s.params key v <;> rfl

/-! ## Reading values and items -/

section
variable {key : Key} {buf : List Byte} {v : Int} {n : Nat} {e : Error} {s : State}

theorem exec_cfgValUnpack_of_some (h : unpackValue s.params key buf = .ok (some v, n)) :
    exec (.cfgValUnpack key buf) s = .next { s with res := .unpacked (.int v) n } := by
  simp only [exec, execCfgValUnpack, h]; rfl

theorem exec_cfgValUnpack_of_none (h : unpackValue s.params key buf = .ok (none, n)) :
    exec (.cfgValUnpack key buf) s =
      .next { s with res := .unpacked (.int s.freeInt) n, draws := s.draws + 1 } := by
  simp only [exec, execCfgValUnpack, h]; rfl

theorem exec_cfgValUnpack_of_error (h : unpackValue s.params key buf = .error e) :
    exec (.cfgValUnpack key buf) s = .next { s with res := .raised e } := by
  simp only [exec, execCfgValUnpack, h]; rfl

theorem unpackItem_of_short {c : Params} (h : buf.length < 4) :
    unpackItem c buf = .error (fieldError (.int .u32) none .shortBuffer) := if_pos h

/-- An item is read by its key: the first four bytes, little-endian (R207). -/
theorem unpackItem_of_long {c : Params} (h : 4 ≤ buf.length) : unpackItem c buf =
    (unpackValue c (BitVec.ofNat 32 (littleEndianValue 4 buf)) (buf.drop 4)).map
      fun r => (BitVec.ofNat 32 (littleEndianValue 4 buf), r.1, 4 + r.2) := by
  rw [unpackItem, if_neg (by omega), fromLE_take 4 buf h]
  cases unpackValue c (BitVec.ofNat 32 (littleEndianValue 4 buf)) (buf.drop 4) <;> rfl

theorem exec_cfgItemUnpack_of_some (h : unpackItem s.params buf = .ok (key, some v, n)) :
    exec (.cfgItemUnpack buf) s = .next { s with res := .item key v n } := by
  simp only [exec, execCfgItemUnpack, h]; rfl

theorem exec_cfgItemUnpack_of_none (h : unpackItem s.params buf = .ok (key, none, n)) :
    exec (.cfgItemUnpack buf) s = .next { s with res := .item key s.freeInt n, draws := s.draws + 1 } := by
  simp only [exec, execCfgItemUnpack, h]; rfl

theorem exec_cfgItemUnpack_of_error (h : unpackItem s.params buf = .error e) :
    exec (.cfgItemUnpack buf) s = .next { s with res := .raised e } := by
  simp only [exec, execCfgItemUnpack, h]; rfl
end

theorem byte_eq_zero_or_one_iff (b : Byte) : b = 0 ∨ b = 1 ↔ b.toNat ≤ 1 := by
  rw [← BitVec.toNat_inj, ← BitVec.toNat_inj]
  show b.toNat = 0 ∨ b.toNat = 1 ↔ b.toNat ≤ 1
  omega

/-- Settles O35: by the key's size code, and for a 1-bit value by the byte. -/
theorem cfgValUnpackReadsTheValueTheKeyGives : Obligations.CfgValUnpackReadsTheValueTheKeyGives := by
  intro key buf s size kind
  refine ⟨fun hres => ?_, fun hbit hbuf => ?_, fun b bs hbit hbuf hb => ?_, fun b bs hbit hbuf hb => ?_,
    fun h2 h5 hlen => ?_, fun h2 h5 hlen => ?_⟩
  · exact exec_cfgValUnpack_of_error (unpackValue_of_reserved hres)
  · exact exec_cfgValUnpack_of_error (hbuf ▸ unpackValue_of_bit_nil hbit)
  · have h := unpackValue_of_bit_cons (c := s.params) hbit b bs
    rw [if_pos ((byte_eq_zero_or_one_iff b).2 hb), ← hbuf] at h
    exact exec_cfgValUnpack_of_some h
  · have h := unpackValue_of_bit_cons (c := s.params) hbit b bs
    rw [if_neg (fun hb' => by have := (byte_eq_zero_or_one_iff b).1 hb'; omega), ← hbuf] at h
    exact ⟨_, exec_cfgValUnpack_of_none h⟩
  · have h := unpackValue_of_wide (c := s.params) (buf := buf) h2 h5
    have hshort : buf.length < (keyKind (s.params.signed key) (key.toNat / 2 ^ 28 % 8)).bytes := hlen
    rw [unpackInt_eq, if_pos hshort] at h
    exact exec_cfgValUnpack_of_error h
  · have h := unpackValue_of_wide (c := s.params) (buf := buf) h2 h5
    have hlong : (keyKind (s.params.signed key) (key.toNat / 2 ^ 28 % 8)).bytes ≤ buf.length := hlen
    rw [unpackInt_eq, if_neg (not_lt.2 hlong), signed_keyKind _ h2 h5] at h
    exact exec_cfgValUnpack_of_some h

/-- Settles O36: the item's value is read by its key, and its result is made of the value's. -/
theorem cfgItemUnpackReadsKeyThenValue : Obligations.CfgItemUnpackReadsKeyThenValue := by
  refine fun buf s => ⟨fun h => exec_cfgItemUnpack_of_error (unpackItem_of_short h), fun h => ?_⟩
  intro key
  have hitem := unpackItem_of_long (c := s.params) h
  rcases hv : unpackValue s.params key (buf.drop 4) with e | ⟨_ | v, n⟩
  · rw [hv] at hitem
    exact ⟨_, exec_cfgValUnpack_of_error hv, exec_cfgItemUnpack_of_error hitem⟩
  · rw [hv] at hitem
    exact ⟨_, exec_cfgValUnpack_of_none hv, exec_cfgItemUnpack_of_none hitem⟩
  · rw [hv] at hitem
    exact ⟨_, exec_cfgValUnpack_of_some hv, exec_cfgItemUnpack_of_some hitem⟩

/-! ## The round trip of an item -/

/-- A packed value is read back, whatever follows it. -/
theorem unpackValue_packValue {c : Params} {key : Key} {v : Int} {bs : List Byte} (h : packValue c key v = .ok bs)
    (rest : List Byte) : unpackValue c key (bs ++ rest) = .ok (some v, bs.length) := by
  by_cases hres : Reserved (key.toNat / 2 ^ 28 % 8)
  · rw [packValue_of_reserved hres] at h; cases h
  by_cases hbit : key.toNat / 2 ^ 28 % 8 = 1
  · rw [packValue_of_bit hbit] at h
    split_ifs at h with h0 h1
    · cases h; subst h0; exact unpackValue_of_bit_cons hbit 0 rest
    · cases h; subst h1; exact unpackValue_of_bit_cons hbit 1 rest
  · have h2 : 2 ≤ key.toNat / 2 ^ 28 % 8 := by omega
    have h5 : key.toNat / 2 ^ 28 % 8 ≤ 5 := by omega
    rw [packValue_of_wide h2 h5] at h
    rw [unpackValue_of_wide h2 h5]
    generalize keyKind (c.signed key) (key.toNat / 2 ^ 28 % 8) = kind at *
    cases hpack : packInt kind v with
    | error e => rw [hpack] at h; cases h
    | ok out =>
      rw [hpack] at h
      cases h
      rw [unpackInt_packInt hpack, length_packBody (b := .int kind v) hpack]
      rfl

theorem littleEndianValue_key (key : Key) (rest : List Byte) :
    BitVec.ofNat 32 (littleEndianValue 4 (littleEndian 4 key.toNat ++ rest)) = key := by
  have hlen : (leBytes 4 key.toNat).length = 4 := length_leBytes ..
  rw [littleEndian_eq, ← fromLE_take 4 _ (by simp), List.take_left' hlen, fromLE_leBytes,
    Nat.mod_eq_of_lt (by simpa using key.isLt), BitVec.ofNat_toNat, BitVec.setWidth_eq]

/-- Settles O37: the key's four bytes and the value's are read back in turn. -/
theorem cfgItemPackThenUnpackGivesTheItem : Obligations.CfgItemPackThenUnpackGivesTheItem := by
  intro key v bs rest s h
  rw [exec_cfgItemPack, packItem_eq] at h
  cases hv : packValue s.params key v with
  | error e => rw [hv] at h; cases h
  | ok out =>
    rw [hv] at h
    obtain rfl : littleEndian 4 key.toNat ++ out = bs := by
      simpa [answer, Except.map, State.finish] using h
    have hlen : (littleEndian 4 key.toNat).length = 4 := by rw [littleEndian_eq, length_leBytes]
    refine exec_cfgItemUnpack_of_some ?_
    rw [unpackItem_of_long (by simp [hlen]), List.append_assoc, littleEndianValue_key, List.drop_left' hlen,
      unpackValue_packValue hv, List.length_append, hlen]
    rfl

end Sys2Proof.Machine
end

section
/-! PROOFS. The envelope and whole frames: what the serializer writes the parser reads back (43_envelope.md R221-R225,
44_parser.md R256-R258). -/

namespace Sys2Proof.Machine

open Sys2Proof

/-! ## The serializer -/

/-- The model's frame is the one laid out from R80's table. -/
theorem frameBytes_eq_wireFrame (ident : Ident) (payload : List Byte) :
    frameBytes ident payload = wireFrame ident payload := by
  simp only [frameBytes, wireFrame, coveredBytes, littleEndian_eq, Acc.zero_addAll]

theorem length_wireFrame (ident : Ident) (payload : List Byte) :
    (wireFrame ident payload).length = 8 + payload.length := by
  simp [wireFrame, littleEndian_eq]
  omega

theorem envLength_of_long {payload : List Byte} (h : 65535 < payload.length) :
    envLength payload = .error (.decoding .payloadTooLong (.payloadLength payload.length)) := if_pos h

theorem envLength_of_fits {payload : List Byte} (h : payload.length ≤ 65535) :
    envLength payload = .ok (BitVec.ofNat 16 payload.length) := if_neg (by omega)

theorem exec_envToBytes_of_fits {payload : List Byte} (h : payload.length ≤ 65535) (ident : Ident) (s : State) :
    exec (.envToBytes ident payload) s = .next { s with res := .bytes (wireFrame ident payload) } := by
  rw [exec_envToBytes, envLength_of_fits h, frameBytes_eq_wireFrame]; rfl

/-- Settles O39: the length check first, then the frame. -/
theorem envelopeIsTheWireFrame : Obligations.EnvelopeIsTheWireFrame := by
  intro ident payload s
  refine ⟨?_, fun h => ⟨?_, exec_envToBytes_of_fits h ident s, length_wireFrame ident payload⟩⟩
  · rintro h i (rfl | rfl)
    · rw [exec_envLength, envLength_of_long h]; rfl
    · rw [exec_envToBytes, envLength_of_long h]; rfl
  · rw [exec_envLength, envLength_of_fits h]; rfl

/-! ## Byte steps in a row -/

/-- The parser goes from `p` to `p'` by the byte steps of `bs`, with no fault before any of them. -/
inductive Steps (c : Params) : Parser → List Byte → Parser → Prop where
  | nil (p : Parser) : Steps c p [] p
  | cons {p p' : Parser} {x : Byte} {xs : List Byte} (hf : p.fault = none) (h : Steps c (byteStep c p x) xs p') :
      Steps c p (x :: xs) p'

section
variable {c : Params} {p p' p'' : Parser}

theorem Steps.append {xs ys : List Byte} (h : Steps c p xs p') (h' : Steps c p' ys p'') : Steps c p (xs ++ ys) p'' := by
  induction h with
  | nil => exact h'
  | cons hf _ ih => exact .cons hf (ih h')

theorem feed_of_steps {bs : List Byte} {s : State} (hrx : s.rx = []) (h : Steps s.params s.parser bs p') :
    feed bs s = s.withParser p' := by
  induction bs generalizing s with
  | nil => cases h; rfl
  | cons x xs ih =>
    cases h with
    | cons hf h =>
      rw [feed_cons_of_free x xs hf hrx]
      exact ih (s := s.withParser (byteStep s.params s.parser x)) hrx h

theorem exec_process_of_steps {bs : List Byte} {s : State} (hrx : s.rx = [])
    (h : Steps s.params s.parser bs p') : exec (.process bs) s = .next ((s.withParser p').finish .done) := by
  have hfeed := feed_of_steps hrx h
  rw [exec_process, feedAndReturn_of_rx_nil (by rw [hfeed]; exact hrx), hfeed]

/-! ## A frame, byte by byte -/

/-- The parser after the sync bytes, class, id and the low length byte of a frame. -/
def Parser.withHeader (p : Parser) (cls id lo : Byte) : Parser :=
  { p with
    st := .lenHi, cls := cls, id := id, lenLo := lo, cnt := 0, pbuf := [], pck := Acc.zero.addAll [cls, id, lo] }

/-- The parser before the checksum bytes of a frame. -/
def Parser.withFrame (p : Parser) (cls id lo hi : Byte) (payload : List Byte) : Parser :=
  { p with
    st := .crcA, cls := cls, id := id, lenLo := lo, len := declaredLen lo hi, cnt := (declaredLen lo hi).toNat
    pbuf := payload, pck := Acc.zero.addAll ([cls, id, lo, hi] ++ payload) }

theorem steps_header (hst : p.st = .waitSync1) (hf : p.fault = none) (cls id lo : Byte) :
    Steps c p [0xB5, 0x62, cls, id, lo] (p.withHeader cls id lo) := by
  cases p
  cases hst
  cases hf
  exact .cons rfl (.cons rfl (.cons rfl (.cons rfl (.cons rfl (.nil _)))))

theorem steps_payload {bs : List Byte} (hst : p.st = .payload) (hf : p.fault = none) (hbs : bs ≠ [])
    (hlen : p.cnt + bs.length = p.len.toNat) : Steps c p bs
      { p with pbuf := p.pbuf ++ bs, pck := p.pck.addAll bs, cnt := p.len.toNat, st := .crcA } := by
  induction bs generalizing p with
  | nil => exact absurd rfl hbs
  | cons x xs ih =>
    rw [List.length_cons] at hlen
    refine .cons hf ?_
    rcases xs with _ | ⟨y, ys⟩
    · have hlast : p.cnt + 1 = p.len.toNat := hlen
      rw [byteStep_of_selected (row := .payloadLast) (by simp [rowSelected, hst, hlast])]
      simp only [rowAction, actPayloadLast, hlast]
      exact .nil _
    · have hmore : p.cnt + 1 ≠ p.len.toNat := by rw [List.length_cons] at hlen; omega
      rw [byteStep_of_selected (row := .payloadMore) (by simp [rowSelected, hst, hmore])]
      have hrest := ih (p := rowAction .payloadMore c p x) rfl hf (List.cons_ne_nil y ys)
        (by simp only [rowAction, actPayloadMore]; omega)
      simpa [rowAction, actPayloadMore, Acc.addAll] using hrest

/-- The bytes up to the payload's end are captured and fed, the payload being empty or not. -/
theorem steps_frame {cls id lo hi : Byte} {payload : List Byte} (hst : p.st = .waitSync1) (hf : p.fault = none)
    (hlen : (declaredLen lo hi).toNat = payload.length) (hmax : payload.length ≤ c.maxMsgLen.val) :
    Steps c p ([0xB5, 0x62, cls, id, lo, hi] ++ payload) (p.withFrame cls id lo hi payload) := by
  refine Steps.append (xs := [0xB5, 0x62, cls, id, lo]) (steps_header hst hf cls id lo) (.cons hf ?_)
  rcases payload with _ | ⟨x, xs⟩
  · have hzero : declaredLen lo hi = 0 := BitVec.eq_of_toNat_eq hlen
    rw [byteStep_of_selected (row := .lenHiZero) (by simp [rowSelected, Parser.withHeader, hzero])]
    have hcnt : (declaredLen lo hi).toNat = 0 := hlen
    simp only [Parser.withFrame, hcnt]
    exact .nil _
  · have hne : declaredLen lo hi ≠ 0 := fun h => by rw [h] at hlen; cases hlen
    rw [byteStep_of_selected (row := .lenHiPayload)
      (by simpa [rowSelected, Parser.withHeader, hlen] using ⟨hne, hmax⟩)]
    exact steps_payload (bs := x :: xs) rfl hf (List.cons_ne_nil x xs) (by
      rw [show (rowAction .lenHiPayload c (p.withHeader cls id lo) hi).len = declaredLen lo hi from rfl, hlen]
      exact Nat.zero_add _)

/-- The parser before the last byte of a frame, the first checksum byte kept. -/
def Parser.withChecksumA (p : Parser) (a : Byte) : Parser := { p with rxa := a, st := .crcB }

theorem steps_checksum (hst : p.st = .crcA) (hf : p.fault = none) (a b : Byte) :
    Steps c p [a, b] (byteStep c (p.withChecksumA a) b) := by
  refine .cons hf (.cons ?_ ?_)
  · rw [byteStep_fault (by simp [hst]), hf]
  · rw [byteStep_of_selected (x := a) (row := .crcAAny) (by simp [rowSelected, hst])]
    exact .nil _

/-- The last byte of a frame whose checksum agrees, by the filter (R248). -/
theorem byteStep_accept {b : Byte} (hst : p.st = .crcB) (hagree : p.pck.a = p.rxa ∧ p.pck.b = b)
    (hid : (⟨p.cls, p.id⟩ : Ident) ∈ p.filt) (hroom : hasRoom c p.q.length) : byteStep c p b =
      { p with q := p.q ++ [.packet ⟨p.cls, p.id⟩ p.pbuf], st := .waitSync1 } := by
  have hsel : rowSelected c p b .crcBAccept = true := by
    simp [rowSelected, hst, Acc.agrees_eq_decide, hagree, hid]
  rw [byteStep_of_selected hsel, rowAction, actCrcBAccept, Parser.enqueue_of_hasRoom hroom]

theorem byteStep_filtered {b : Byte} (hst : p.st = .crcB) (hagree : p.pck.a = p.rxa ∧ p.pck.b = b)
    (hid : (⟨p.cls, p.id⟩ : Ident) ∉ p.filt) : byteStep c p b =
      { p with diag := p.diag ++ [.filtered ⟨p.cls, p.id⟩], st := .waitSync1 } := by
  have hsel : rowSelected c p b .crcBFiltered = true := by
    simp [rowSelected, hst, Acc.agrees_eq_decide, hagree, hid]
  rw [byteStep_of_selected hsel]
  rfl

theorem byteStep_crcError {b : Byte} (hst : p.st = .crcB) (hno : ¬(p.pck.a = p.rxa ∧ p.pck.b = b))
    (hroom : hasRoom c p.q.length) : byteStep c p b = { p with q := p.q ++ [.crcError], st := .waitSync1 } := by
  have hsel : rowSelected c p b .crcBCrcError = true := by
    simp only [rowSelected, hst, Acc.agrees_eq_decide, hno]
    rfl
  rw [byteStep_of_selected hsel, rowAction, actCrcBCrcError, Parser.enqueue_of_hasRoom hroom]
end

/-- A whole frame goes through its payload to the step of its last byte. -/
theorem exec_process_frame {s : State} {cls id lo hi : Byte} {payload : List Byte}
    (hst : s.parser.st = .waitSync1) (hf : s.parser.fault = none) (hrx : s.rx = [])
    (hlen : (declaredLen lo hi).toNat = payload.length) (hmax : payload.length ≤ s.params.maxMsgLen.val)
    (a b : Byte) : exec (.process ([0xB5, 0x62, cls, id, lo, hi] ++ payload ++ [a, b])) s =
      .next ((s.withParser (byteStep s.params
        ((s.parser.withFrame cls id lo hi payload).withChecksumA a) b)).finish .done) :=
  exec_process_of_steps hrx ((steps_frame hst hf hlen hmax).append
    (steps_checksum (p := s.parser.withFrame cls id lo hi payload) rfl hf a b))

/-- The frame of an identity, written with its two length bytes and the checksum the parser computes. -/
theorem wireFrame_eq (ident : Ident) (payload : List Byte) : wireFrame ident payload =
    [0xB5, 0x62, ident.cls, ident.id, BitVec.ofNat 8 payload.length, BitVec.ofNat 8 (payload.length / 256)] ++
      payload ++ [(Acc.zero.addAll (coveredBytes ident payload)).a, (Acc.zero.addAll (coveredBytes ident payload)).b] := by
  rw [← frameBytes_eq_wireFrame]
  rfl

theorem declaredLen_of_length {n : Nat} (h : n ≤ 65535) :
    (declaredLen (BitVec.ofNat 8 n) (BitVec.ofNat 8 (n / 256))).toNat = n := by
  rw [toNat_declaredLen, BitVec.toNat_ofNat, BitVec.toNat_ofNat]
  omega

theorem le_of_le_maxMsgLen {c : Params} {n : Nat} (h : n ≤ c.maxMsgLen.val) : n ≤ 65535 :=
  h.trans (Nat.le_of_lt_succ c.maxMsgLen.isLt)

/-! ## The agreement of serializer and parser (R225) -/

/-- Settles O56: the parser captures what the serializer covered, so the checksums agree and the filter decides. -/
theorem serializedFrameIsReceived : Obligations.SerializedFrameIsReceived := by
  intro ident payload s hst hf hrx hmax hroom
  have hfits := le_of_le_maxMsgLen hmax
  have hprocess := exec_process_frame (cls := ident.cls) (id := ident.id) hst hf hrx (declaredLen_of_length hfits) hmax
    (Acc.zero.addAll (coveredBytes ident payload)).a (Acc.zero.addAll (coveredBytes ident payload)).b
  rw [← wireFrame_eq] at hprocess
  refine ⟨wireFrame ident payload, ?_⟩
  by_cases hid : ident ∈ s.parser.filt
  · rw [byteStep_accept rfl (by exact ⟨rfl, rfl⟩) (by exact hid) (by exact hroom)] at hprocess
    exact ⟨_, exec_envToBytes_of_fits hfits ident s, hprocess, rfl, hf, rfl, hrx, fun _ => ⟨rfl, rfl⟩,
      fun h => absurd hid h⟩
  · rw [byteStep_filtered rfl (by exact ⟨rfl, rfl⟩) (by exact hid)] at hprocess
    exact ⟨_, exec_envToBytes_of_fits hfits ident s, hprocess, rfl, hf, rfl, hrx, fun h => absurd h hid,
      fun _ => ⟨rfl, rfl⟩⟩

/-- Settles O57: the sixth byte completes a length above the bound. -/
theorem oversizedFrameIsAbandonedAtItsSixthByte : Obligations.OversizedFrameIsAbandonedAtItsSixthByte := by
  intro ident payload s hst hf hrx hbig hfits
  set lo : Byte := BitVec.ofNat 8 payload.length
  set hi : Byte := BitVec.ofNat 8 (payload.length / 256)
  have hlen : (declaredLen lo hi).toNat = payload.length := declaredLen_of_length hfits
  have htake : (wireFrame ident payload).take 6 = [0xB5, 0x62, ident.cls, ident.id, lo, hi] := by
    rw [wireFrame_eq]; rfl
  have hsteps : Steps s.params s.parser ((wireFrame ident payload).take 6)
      (actLenHiOversize s.params (s.parser.withHeader ident.cls ident.id lo) hi) := by
    rw [htake]
    refine Steps.append (xs := [0xB5, 0x62, ident.cls, ident.id, lo]) (steps_header hst hf _ _ _) (.cons hf ?_)
    have hsel : rowSelected s.params (s.parser.withHeader ident.cls ident.id lo) hi .lenHiOversize = true := by
      simpa [rowSelected, Parser.withHeader, hlen] using hbig
    rw [byteStep_of_selected hsel]
    exact .nil _
  refine ⟨_, _, exec_envToBytes_of_fits hfits ident s, exec_process_of_steps hrx hsteps, rfl, hf, rfl, hrx, ?_⟩
  have hword : declaredLen lo hi = BitVec.ofNat 16 payload.length := by
    rw [← hlen, BitVec.ofNat_toNat, BitVec.setWidth_eq]
  rw [← hword]
  rfl

/-! ## Corrupted frames (R257) -/

/-- A frame whose checksum bytes are not those of its covered bytes gives CrcError. -/
theorem exec_process_mismatch {s : State} {cls id lo hi a b : Byte} {payload : List Byte}
    (hst : s.parser.st = .waitSync1) (hf : s.parser.fault = none) (hrx : s.rx = [])
    (hlen : (declaredLen lo hi).toNat = payload.length) (hmax : payload.length ≤ s.params.maxMsgLen.val)
    (hroom : hasRoom s.params s.parser.q.length)
    (hck : ¬((Acc.zero.addAll ([cls, id, lo, hi] ++ payload)).a = a ∧
      (Acc.zero.addAll ([cls, id, lo, hi] ++ payload)).b = b)) :
    ∃ t, exec (.process ([0xB5, 0x62, cls, id, lo, hi] ++ payload ++ [a, b])) s = .next t ∧
      t.parser.st = .waitSync1 ∧ t.parser.fault = none ∧ t.rx = [] ∧ t.parser.q = s.parser.q ++ [.crcError] := by
  have hprocess := exec_process_frame (cls := cls) (id := id) hst hf hrx hlen hmax a b
  rw [byteStep_crcError rfl (by exact hck) (by exact hroom)] at hprocess
  exact ⟨_, hprocess, rfl, hf, hrx, rfl⟩

/-- A changed covered byte changes counter `a`. -/
theorem checksum_of_set_ne {covered : List Byte} {i : Nat} {y : Byte} (hi : i < covered.length)
    (hy : covered[i]? ≠ some y) : ¬((Acc.zero.addAll (covered.set i y)).a = (Acc.zero.addAll covered).a ∧
      (Acc.zero.addAll (covered.set i y)).b = (Acc.zero.addAll covered).b) := by
  have hne : y ≠ covered[i] := fun h => hy (by rw [List.getElem?_eq_getElem hi, h])
  exact fun h => Acc.addAll_set_ne covered i y hi hne Acc.zero h.1

/-- Settles O58: by the place of the changed byte, among the covered ones or a checksum byte of its own. -/
theorem corruptedFrameGivesCrcError : Obligations.CorruptedFrameGivesCrcError := by
  intro ident payload j y s hst hf hrx hmax hroom hj hy
  have hlen := declaredLen_of_length (le_of_le_maxMsgLen hmax)
  rw [wireFrame_eq] at hy ⊢
  set lo : Byte := BitVec.ofNat 8 payload.length
  set hi : Byte := BitVec.ofNat 8 (payload.length / 256)
  set ck := Acc.zero.addAll (coveredBytes ident payload)
  have hcovered : coveredBytes ident payload = [ident.cls, ident.id, lo, hi] ++ payload := rfl
  rcases hj with rfl | rfl | ⟨h6, hj⟩
  · exact exec_process_mismatch hst hf hrx hlen hmax hroom
      (checksum_of_set_ne (covered := coveredBytes ident payload) (i := 0) (by simp [hcovered]) hy)
  · exact exec_process_mismatch hst hf hrx hlen hmax hroom
      (checksum_of_set_ne (covered := coveredBytes ident payload) (i := 1) (by simp [hcovered]) hy)
  obtain ⟨i, rfl⟩ := Nat.exists_eq_add_of_le' h6
  have hset : ([0xB5, 0x62, ident.cls, ident.id, lo, hi] ++ payload ++ [ck.a, ck.b]).set (i + 6) y =
    [0xB5, 0x62, ident.cls, ident.id, lo, hi] ++ (payload ++ [ck.a, ck.b]).set i y := rfl
  replace hy : (payload ++ [ck.a, ck.b])[i]? ≠ some y := hy
  rw [hset]
  rcases lt_or_ge i payload.length with hi' | hi'
  · rw [List.set_append_left _ _ hi', ← List.append_assoc]
    rw [List.getElem?_append_left hi'] at hy
    exact exec_process_mismatch hst hf hrx (by rw [hlen, List.length_set]) (by rwa [List.length_set]) hroom
      (checksum_of_set_ne (covered := coveredBytes ident payload) (i := i + 4) (by simp [hcovered, hi']) hy)
  · obtain ⟨k, rfl⟩ := Nat.exists_eq_add_of_le hi'
    have hk : k = 0 ∨ k = 1 := by omega
    rw [List.set_append_right _ _ hi', Nat.add_sub_cancel_left, ← List.append_assoc]
    rw [List.getElem?_append_right hi', Nat.add_sub_cancel_left] at hy
    rcases hk with rfl | rfl
    · exact exec_process_mismatch hst hf hrx hlen hmax hroom fun h => hy (congrArg some h.1)
    · exact exec_process_mismatch hst hf hrx hlen hmax hroom fun h => hy (congrArg some h.2)

/-! ## Resynchronisation (R256) -/

/-- How many bytes at most the parser takes until it is back in WAIT_SYNC1. -/
def Parser.toSync (c : Params) (p : Parser) : Nat :=
  match p.st with
  | .waitSync1 => 0
  | .waitSync2 => 7 + c.maxMsgLen.val
  | .class_ => 6 + c.maxMsgLen.val
  | .id => 5 + c.maxMsgLen.val
  | .lenLo => 4 + c.maxMsgLen.val
  | .lenHi => 3 + c.maxMsgLen.val
  | .payload => 2 + (p.len.toNat - p.cnt)
  | .crcA => 2
  | .crcB => 1

section
variable {c : Params} {p : Parser}

theorem toSync_le (h : Parser.Inv c p) : p.toSync c ≤ 7 + c.maxMsgLen.val := by
  unfold Parser.toSync
  cases hst : p.st
  case payload =>
    obtain ⟨-, hle, -⟩ := h.inPayload hst
    simp only
    omega
  all_goals simp only; omega

/-- The row of a byte step is one of the parser's state, and each of those leads nearer to WAIT_SYNC1. -/
theorem toSync_byteStep_lt (h : Parser.Inv c p) (hst : p.st ≠ .waitSync1) (x : Byte) :
    (byteStep c p x).toSync c < p.toSync c := by
  have hs := (rowSelected_iff c p x _).2 rfl
  unfold byteStep
  generalize selectRow c p x = row at hs ⊢
  cases row
  case waitSync1Sync | waitSync1Other =>
    simp only [rowSelected, Bool.and_eq_true, beq_iff_eq] at hs
    exact absurd hs.1 hst
  case payloadMore | payloadLast =>
    simp only [rowSelected, Bool.and_eq_true, beq_iff_eq] at hs
    obtain ⟨hlt, -, -⟩ := h.inPayload hs.1
    simp only [Parser.toSync, rowAction, actPayloadMore, actPayloadLast, hs.1]
    omega
  case lenHiPayload =>
    simp only [rowSelected, Bool.and_eq_true, beq_iff_eq, decide_eq_true_eq] at hs
    simp only [Parser.toSync, rowAction, actLenHiPayload, hs.1.1]
    omega
  case classAny | idAny | lenLoAny | crcAAny =>
    simp only [rowSelected, beq_iff_eq] at hs
    simp only [Parser.toSync, rowAction, actClassAny, actIdAny, actLenLoAny, actCrcAAny, hs]
    omega
  case crcBAccept | crcBFiltered =>
    simp only [rowSelected, Bool.and_eq_true, beq_iff_eq] at hs
    simp only [Parser.toSync, rowAction, actCrcBAccept, actCrcBFiltered, hs.1.1]
    omega
  all_goals
    simp only [rowSelected, Bool.and_eq_true, beq_iff_eq] at hs
    simp only [Parser.toSync, rowAction, actWaitSync2Sync, actWaitSync2Other, actLenHiZero, actLenHiOversize,
      actCrcBCrcError, hs.1]
    omega

/-- A step that does not end a frame sets no fault: CRC_B alone can, and it leads to WAIT_SYNC1. -/
theorem byteStep_fault_of_not_back {x : Byte} (h : (byteStep c p x).st ≠ .waitSync1) :
    (byteStep c p x).fault = p.fault := by
  refine byteStep_fault fun hst => h ?_
  simp only [byteStep, selectRow, hst, rowAction_st]
  split_ifs <;> rfl

theorem feed_reaches_waitSync1 {bs : List Byte} {s : State} (hinv : Parser.Inv s.params s.parser)
    (hst : s.parser.st ≠ .waitSync1) (hf : s.parser.fault = none) (hrx : s.rx = [])
    (hlen : s.parser.toSync s.params ≤ bs.length) : ∃ n, 1 ≤ n ∧ n ≤ bs.length ∧
      (feed (bs.take n) s).parser.st = .waitSync1 ∧ (feed (bs.take n) s).rx = [] := by
  induction bs generalizing s with
  | nil =>
    have hlt := toSync_byteStep_lt hinv hst 0
    rw [List.length_nil] at hlen
    omega
  | cons x xs ih =>
    set p := byteStep s.params s.parser x with hp
    have hfeed (n : Nat) : feed ((x :: xs).take (n + 1)) s = feed (xs.take n) (s.withParser p) :=
      feed_cons_of_free x (xs.take n) hf hrx
    by_cases hback : p.st = .waitSync1
    · exact ⟨1, le_rfl, by simp, by rw [hfeed]; exact hback, by rw [hfeed]; exact hrx⟩
    · have hlt := toSync_byteStep_lt hinv hst x
      rw [List.length_cons] at hlen
      obtain ⟨n, hn1, hn, hsync, hnone⟩ := ih (s := s.withParser p) (byteStep_inv hinv x) hback
        ((byteStep_fault_of_not_back hback).trans hf) hrx (by
          simp only [State.withParser_params, State.withParser_parser, hp]; omega)
      exact ⟨n + 1, by omega, by rw [List.length_cons]; omega, by rw [hfeed]; exact hsync, by rw [hfeed]; exact hnone⟩
end

/-- Settles O59: PROCESS feeds, and feeding reaches WAIT_SYNC1 within the bound on the way there. -/
theorem parserResynchronises : Obligations.ParserResynchronises := by
  intro bs s hinv hst hf hrx hlen
  obtain ⟨n, hn1, hn, hsync, hnone⟩ := feed_reaches_waitSync1 hinv.parser hst hf hrx
    ((toSync_le hinv.parser).trans hlen.ge)
  refine ⟨n, _, hn1, hlen ▸ hn, exec_process (bs.take n) s, ?_, ?_⟩
  · rw [feedAndReturn_of_rx_nil hnone]; exact hsync
  · rw [feedAndReturn_of_rx_nil hnone]; exact hnone

end Sys2Proof.Machine
end
